-- ==== Sys2Proof/Word.lean ====
section
/-! DEFINITION. The word types of the block. -/

namespace Sys2Proof

/-- A host-visible register, a sequence counter or a buffer address: REG_W, SEQ_W and ADDR_W are 32 bits (R5). -/
abbrev Word := BitVec 32

/-- One byte of buffer memory or of a bus transfer (R51). -/
abbrev Byte := BitVec 8

end Sys2Proof
end

