-- ==== Sys2Proof/Config.lean ====
section
/-! DEFINITION. What a platform fixes, and the one free value: the parameters of R5. -/

namespace Sys2Proof

/-- A run of byte addresses `base .. base + size - 1` that the memory port reaches: MEM_MAP is a list of these (R5, R53). -/
structure Region where
  base : Nat
  size : Nat
  deriving DecidableEq, Repr

namespace Config

/-- QUEUE_DEPTH: 16 slots (R5). -/
def queueDepth : Nat := 16

/-- The default of the OPEN parameter ARB_RETRY_MAX: no retry (R5). -/
def arbRetryMaxDefault : BitVec 4 := 0

/-- The default of the OPEN parameter WATCHDOG_PRESENT (R5). -/
def watchdogDefault : Bool := true

/-- MEM_MAP of the platform the machine is reset on: OPEN with no default (R5), so no body. -/
opaque memMap : List Region

/-- BLOCK_BASE / 256 of the platform the machine is reset on: OPEN with no default (R5, R64), so no body. -/
opaque blockPage : Nat

/-- The failIndex of an ARBL or TMO failure in a PHASE that R141's table has no row for (IDLE, STOP).
A free value: nothing constrains it. R38 rules those phases out. DESIGN CHOICE, log entry 7. -/
opaque unlistedIndex : BitVec 16 → BitVec 16

end Config
end Sys2Proof
end

