-- ==== Sys2Proof/Syntax.lean ====
section
/-! DEFINITION. The operations of the block's three ports: one constructor per row of spec/opcode_table.json. -/

namespace Sys2Proof

/-- The acknowledge bit: ACK = 0, NACK = 1 (R9). -/
inductive Ack where
  | ack
  | nack
  deriving DecidableEq, Repr

/-- One operation of a port: a HOST register access (R72, R74), an EVENT (R76) or an ACTION (R78). -/
inductive Instr where
  /-- `wr DESC_PTR, v` (R109). -/
  | wrDescPtr (v : Word)
  /-- `rd DESC_PTR` (R109). -/
  | rdDescPtr
  /-- `wr DESC_LEN, v` (R110). -/
  | wrDescLen (v : Word)
  /-- `rd DESC_LEN` (R110). -/
  | rdDescLen
  /-- `enq.w` (R106). -/
  | enqWrite
  /-- `enq.r` (R107). -/
  | enqRead
  /-- `wr CMD, v` with `v` neither 1 nor 2 (R108). -/
  | wrCmdReserved (v : Word)
  /-- `rd STATUS` (R200). -/
  | rdStatus
  /-- `rd BEGIN_SEQ` (R111). -/
  | rdBeginSeq
  /-- `rd END_SEQ` (R112). -/
  | rdEndSeq
  /-- `rd CUR_BYTE` (R201). -/
  | rdCurByte
  /-- `rd ENQ_STATUS` (R113). -/
  | rdEnqStatus
  /-- `rd LAST_TICKET` (R114). -/
  | rdLastTicket
  /-- `rd RESULT[slot]` (R202). -/
  | rdResult (slot : BitVec 4)
  /-- `ev.txc a` (R138 to R144). -/
  | evTxc (a : Ack)
  /-- `ev.rxc d` (R147 to R149). -/
  | evRxc (d : Byte)
  /-- `ev.req` (R145, R146). -/
  | evReq
  /-- `ev.arbl` (R150 to R153). -/
  | evArbl
  /-- `ev.tmo` (R154, R155). -/
  | evTmo
  /-- `START` (R181). -/
  | actStart
  /-- `RSTART` (R182). -/
  | actRstart
  /-- `STOP` (R183). -/
  | actStop
  /-- `TX b` (R184). -/
  | actTx (b : Byte)
  /-- `RX a` (R185). -/
  | actRx (a : Ack)
  /-- `RELEASE` (R189). -/
  | actRelease
  deriving DecidableEq, Repr

end Sys2Proof
end

