-- ==== Sys2Proof/WellFormed.lean ====
section
/-! DEFINITION. Which terms of Instr stand for an operation the encoding has. -/

namespace Sys2Proof

/-- A `wr CMD` is the reserved one only when its value is neither 1 (`enq.w`) nor 2 (`enq.r`): R74, R101, R108.
Every other operand fills its field exactly. -/
def wellFormed : Instr → Bool
  | .wrCmdReserved v => v != 1 && v != 2
  | .wrDescPtr _ | .rdDescPtr | .wrDescLen _ | .rdDescLen | .enqWrite | .enqRead => true
  | .rdStatus | .rdBeginSeq | .rdEndSeq | .rdCurByte | .rdEnqStatus | .rdLastTicket | .rdResult _ => true
  | .evTxc _ | .evRxc _ | .evReq | .evArbl | .evTmo => true
  | .actStart | .actRstart | .actStop | .actTx _ | .actRx _ | .actRelease => true

end Sys2Proof
end

