-- ==== Sys2Proof/Decode.lean ====
section
/-! DEFINITION. The three word formats of R70: decoding, encoding, and the numbering of spec/opcode_table.json. -/

namespace Sys2Proof

/-- A word on one of the three ports. The port names the format (R70). -/
inductive PortWord where
  | host (w : BitVec 41)
  | event (w : BitVec 12)
  | action (w : BitVec 12)
  deriving DecidableEq, Repr

/-- Why a word is no operation. -/
inductive DecodeError where
  /-- An offset that is not a multiple of 4 (R57). -/
  | hostMisaligned
  /-- An offset the register map does not list (R72). -/
  | hostUnmapped
  /-- A write to a register that is only readable (R72). -/
  | hostReadOnly
  /-- A read of CMD (R72). -/
  | hostWriteOnly
  /-- An EVENT whose KIND is 0, 6 or 7 (R79). -/
  | eventReservedKind
  /-- An EVENT with a nonzero unused field (R79). -/
  | eventNonzeroField
  /-- An ACTION whose KIND is 0 or 7 (R78). -/
  | actionReservedKind
  /-- An ACTION with a nonzero unused field (R77). -/
  | actionNonzeroField
  deriving DecidableEq, Repr

/-- The registers of the map of R72. -/
inductive HostReg where
  | descPtr
  | descLen
  | cmd
  | status
  | beginSeq
  | endSeq
  | curByte
  | enqStatus
  | lastTicket
  | result (slot : BitVec 4)
  deriving DecidableEq, Repr

/-- The register at a 4-byte-aligned offset (R72). RESULT[s] is selected by OFFSET[7:6] = 0b01 with s = OFFSET[5:2] (R73). -/
def regAt (off : BitVec 8) : Option HostReg :=
  if off.extractLsb' 6 2 = 0b01#2 then some (.result (off.extractLsb' 2 4))
  else if off = 0x00#8 then some .descPtr
  else if off = 0x04#8 then some .descLen
  else if off = 0x08#8 then some .cmd
  else if off = 0x0C#8 then some .status
  else if off = 0x10#8 then some .beginSeq
  else if off = 0x14#8 then some .endSeq
  else if off = 0x18#8 then some .curByte
  else if off = 0x1C#8 then some .enqStatus
  else if off = 0x20#8 then some .lastTicket
  else none

/-- The offset of a register (R72). -/
def HostReg.offset : HostReg → BitVec 8
  | .descPtr => 0x00
  | .descLen => 0x04
  | .cmd => 0x08
  | .status => 0x0C
  | .beginSeq => 0x10
  | .endSeq => 0x14
  | .curByte => 0x18
  | .enqStatus => 0x1C
  | .lastTicket => 0x20
  | .result slot => 0b01#2 ++ slot ++ 0b00#2

/-- The fields of a HOST word (R71). -/
def hostWE (w : BitVec 41) : Bool := w.getLsbD 40
def hostOffset (w : BitVec 41) : BitVec 8 := w.extractLsb' 32 8
def hostWData (w : BitVec 41) : Word := w.extractLsb' 0 32

/-- The command a write of `v` to CMD performs (R74, R101). -/
def commandOf (v : Word) : Instr :=
  if v = 1 then .enqWrite else if v = 2 then .enqRead else .wrCmdReserved v

/-- A legal access to a register, by direction (R72). A read ignores WDATA (R71). -/
def accessOf (r : HostReg) (we : Bool) (v : Word) : Except DecodeError Instr :=
  match r, we with
  | .descPtr, true => .ok (.wrDescPtr v)
  | .descPtr, false => .ok .rdDescPtr
  | .descLen, true => .ok (.wrDescLen v)
  | .descLen, false => .ok .rdDescLen
  | .cmd, true => .ok (commandOf v)
  | .cmd, false => .error .hostWriteOnly
  | .status, false => .ok .rdStatus
  | .beginSeq, false => .ok .rdBeginSeq
  | .endSeq, false => .ok .rdEndSeq
  | .curByte, false => .ok .rdCurByte
  | .enqStatus, false => .ok .rdEnqStatus
  | .lastTicket, false => .ok .rdLastTicket
  | .result slot, false => .ok (.rdResult slot)
  | .status, true => .error .hostReadOnly
  | .beginSeq, true => .error .hostReadOnly
  | .endSeq, true => .error .hostReadOnly
  | .curByte, true => .error .hostReadOnly
  | .enqStatus, true => .error .hostReadOnly
  | .lastTicket, true => .error .hostReadOnly
  | .result _, true => .error .hostReadOnly

/-- A HOST word (R71 to R74, R83). -/
def decodeHost (w : BitVec 41) : Except DecodeError Instr :=
  if (hostOffset w).extractLsb' 0 2 ≠ 0b00#2 then .error .hostMisaligned
  else match regAt (hostOffset w) with
    | none => .error .hostUnmapped
    | some r => accessOf r (hostWE w) (hostWData w)

/-- The fields of an EVENT or ACTION word (R75, R77). -/
def wordKind (w : BitVec 12) : BitVec 3 := w.extractLsb' 9 3
def wordAckB (w : BitVec 12) : BitVec 1 := w.extractLsb' 8 1
def wordData (w : BitVec 12) : Byte := w.extractLsb' 0 8

/-- The acknowledge bit as a value: ACK = 0, NACK = 1 (R9). -/
def Ack.ofBit (b : BitVec 1) : Ack := if b = 0 then .ack else .nack
def Ack.bit : Ack → BitVec 1
  | .ack => 0
  | .nack => 1

/-- `r` where the unused fields of the word are zero (R79, R77), else the named error. -/
def unlessNonzero (e : DecodeError) (zero : Bool) (i : Instr) : Except DecodeError Instr :=
  if zero then .ok i else .error e

/-- An EVENT word (R75, R76, R79). -/
def decodeEvent (w : BitVec 12) : Except DecodeError Instr :=
  if wordKind w = 1 then unlessNonzero .eventNonzeroField (wordData w == 0) (.evTxc (Ack.ofBit (wordAckB w)))
  else if wordKind w = 2 then unlessNonzero .eventNonzeroField (wordAckB w == 0) (.evRxc (wordData w))
  else if wordKind w = 3 then unlessNonzero .eventNonzeroField (wordAckB w == 0 && wordData w == 0) .evReq
  else if wordKind w = 4 then unlessNonzero .eventNonzeroField (wordAckB w == 0 && wordData w == 0) .evArbl
  else if wordKind w = 5 then unlessNonzero .eventNonzeroField (wordAckB w == 0 && wordData w == 0) .evTmo
  else .error .eventReservedKind

/-- An ACTION word (R77, R78). -/
def decodeAction (w : BitVec 12) : Except DecodeError Instr :=
  if wordKind w = 1 then unlessNonzero .actionNonzeroField (wordAckB w == 0 && wordData w == 0) .actStart
  else if wordKind w = 2 then unlessNonzero .actionNonzeroField (wordAckB w == 0 && wordData w == 0) .actRstart
  else if wordKind w = 3 then unlessNonzero .actionNonzeroField (wordAckB w == 0 && wordData w == 0) .actStop
  else if wordKind w = 4 then unlessNonzero .actionNonzeroField (wordAckB w == 0) (.actTx (wordData w))
  else if wordKind w = 5 then unlessNonzero .actionNonzeroField (wordData w == 0) (.actRx (Ack.ofBit (wordAckB w)))
  else if wordKind w = 6 then unlessNonzero .actionNonzeroField (wordAckB w == 0 && wordData w == 0) .actRelease
  else .error .actionReservedKind

/-- A word of any port (R83). Total: every word is an operation or an error with a name. -/
def decode : PortWord → Except DecodeError Instr
  | .host w => decodeHost w
  | .event w => decodeEvent w
  | .action w => decodeAction w

/-- The HOST word with these fields (R71). -/
def hostWord (we : Bool) (off : BitVec 8) (v : Word) : BitVec 41 := BitVec.ofBool we ++ off ++ v

/-- The EVENT or ACTION word with these fields (R75, R77). -/
def portWord (kind : BitVec 3) (ackB : BitVec 1) (data : Byte) : BitVec 12 := kind ++ ackB ++ data

/-- A read's word: WDATA is 0 (R71). -/
def readWord (r : HostReg) : PortWord := .host (hostWord false r.offset 0)

/-- A write's word (R71). -/
def writeWord (r : HostReg) (v : Word) : PortWord := .host (hostWord true r.offset v)

/-- The word of a well-formed operation (R81). -/
def encode : Instr → PortWord
  | .wrDescPtr v => writeWord .descPtr v
  | .rdDescPtr => readWord .descPtr
  | .wrDescLen v => writeWord .descLen v
  | .rdDescLen => readWord .descLen
  | .enqWrite => writeWord .cmd 1
  | .enqRead => writeWord .cmd 2
  | .wrCmdReserved v => writeWord .cmd v
  | .rdStatus => readWord .status
  | .rdBeginSeq => readWord .beginSeq
  | .rdEndSeq => readWord .endSeq
  | .rdCurByte => readWord .curByte
  | .rdEnqStatus => readWord .enqStatus
  | .rdLastTicket => readWord .lastTicket
  | .rdResult slot => readWord (.result slot)
  | .evTxc a => .event (portWord 1 a.bit 0)
  | .evRxc d => .event (portWord 2 0 d)
  | .evReq => .event (portWord 3 0 0)
  | .evArbl => .event (portWord 4 0 0)
  | .evTmo => .event (portWord 5 0 0)
  | .actStart => .action (portWord 1 0 0)
  | .actRstart => .action (portWord 2 0 0)
  | .actStop => .action (portWord 3 0 0)
  | .actTx b => .action (portWord 4 0 b)
  | .actRx a => .action (portWord 5 a.bit 0)
  | .actRelease => .action (portWord 6 0 0)

/-- The port word of `nbits` table bits: a HOST word where there are more than 16, else a 12-bit word, which the table does
not place on a port by its bits alone: an EVENT where it is a legal one, else an ACTION where it is a legal one, else an
EVENT. DESIGN CHOICE, log entry 10. -/
def tableWord (nbits w : Nat) : Option PortWord :=
  if 16 < nbits then
    if w < 2 ^ 41 then some (.host (BitVec.ofNat 41 w)) else none
  else if w < 2 ^ 12 then
    match decodeEvent (BitVec.ofNat 12 w), decodeAction (BitVec.ofNat 12 w) with
    | .error _, .ok _ => some (.action (BitVec.ofNat 12 w))
    | _, _ => some (.event (BitVec.ofNat 12 w))
  else none

/-- The operation of the word that spec/opcode_table.json numbers `w` (bit 0 least significant). -/
def decodeTableWord (nbits w : Nat) : Option Instr :=
  match tableWord nbits w with
  | none => none
  | some p => match decode p with
    | .ok i => some i
    | .error _ => none

end Sys2Proof
end

