-- ==== Sys2Proof/Machine/State.lean ====
section
/-! DEFINITION. The state of the block and of what R39 keeps beside it, as plain data, and the state after reset. -/

namespace Sys2Proof.Machine

/-- The direction of a transaction: DIR_WRITE = 0, DIR_READ = 1 (R9, R25). -/
inductive Dir where
  | write
  | read
  deriving DecidableEq, Repr

/-- A queue slot: the Transaction Descriptor of R25. -/
structure Slot where
  ptr : Word
  len : BitVec 16
  dir : Dir
  deriving DecidableEq, Repr

/-- PHASE (R30). Its codes 6 and 7 are reserved and never held, so they have no constructor. -/
inductive Phase where
  | idle
  | addr
  | writeData
  | readData
  | stop
  | restart
  deriving DecidableEq, Repr

/-- ENQ_STATUS (R34). -/
inductive EnqStatus where
  | none
  | ok
  | queueFull
  | badLength
  | badCommand
  deriving DecidableEq, Repr

/-- The `code` of a result record (R36). -/
inductive ResultCode where
  | none
  | ok
  | noack
  | arbLost
  | timeout
  deriving DecidableEq, Repr

/-- RESULT[s] (R36). -/
structure Result where
  code : ResultCode
  failIndex : BitVec 16
  deriving DecidableEq, Repr

/-- A PHY action (R78). -/
inductive Action where
  | start
  | rstart
  | stop
  | tx (b : Byte)
  | rx (a : Ack)
  | release
  deriving DecidableEq, Repr

/-- The PHY's outstanding operation: the one that owes an answer (R186). -/
inductive PhyOp where
  | tx (b : Byte)
  | rstart
  | rx (a : Ack)
  deriving DecidableEq, Repr

/-- The PHY: does it drive the bus as master (R181, R183, R189), and what does it still have to answer (R39, R186)? -/
structure Phy where
  driving : Bool
  outstanding : Option PhyOp
  deriving DecidableEq, Repr

/-- The width of a host access on the platform's bus (R57). -/
inductive HostWidth where
  | byte
  | half
  | word
  deriving DecidableEq, Repr

/-- One entry of the model's fault record (R233), with the info that R233 lists. -/
inductive ModelFault where
  /-- HOST_ACCESS (code 1): unmapped offset, wrong direction, misaligned offset or width other than 32. -/
  | hostAccess (offset : BitVec 8) (we : Bool) (width : HostWidth)
  /-- MEM_FAULT (code 2): a memory-port access outside MEM_MAP. -/
  | memFault (addr : Word)
  /-- ILLEGAL_EVENT (code 3): a reserved KIND or a nonzero unused field. -/
  | illegalEvent (w : BitVec 12)
  /-- SPURIOUS_EVENT (code 4): a legal kind that PHASE does not expect. -/
  | spuriousEvent (w : BitVec 12) (phase : Phase)
  deriving DecidableEq, Repr

/-- A host access on the platform's bus, by absolute address: it selects the block when the address of its first byte falls
in the block's 256 bytes (R64; DESIGN CHOICE, log entry 14), and reaches nothing otherwise (DESIGN CHOICE, log entry 15). -/
structure BusAccess where
  addr : Nat
  width : HostWidth
  we : Bool
  wdata : Word
  deriving DecidableEq, Repr

/-- One step of one agent (R6): which agent moves next, and with what. A run's order of steps is a list of these (R58). -/
inductive Input where
  /-- Host: a 32-bit register access, as the HOST word of R71. -/
  | host (w : BitVec 41)
  /-- Host: an access on the platform's bus (R57, R64). It never reaches memory. DESIGN CHOICE, log entry 15. -/
  | bus (a : BusAccess)
  /-- PHY or watchdog: an EVENT word, raised and handled in one step (R157). An answer the PHY owes comes after the PHY has
  performed what it answers (R182, R184, R185). -/
  | event (w : BitVec 12)
  /-- PHY: performs the oldest emitted action (R180). -/
  | perform
  /-- Host: `HostStore(addr, 1, v)` (R8). -/
  | store (addr : Word) (v : Byte)
  /-- Host: `HostLoad(addr, 1)` (R8). -/
  | load (addr : Word)
  deriving DecidableEq, Repr

/-- The platform's OPEN parameters (R5). No step writes them. BLOCK_BASE is `256 * blockPage`. Log entry 6. -/
structure Params where
  arbRetryMax : BitVec 4
  watchdogPresent : Bool
  memMap : List Region
  blockPage : Nat
  deriving DecidableEq, Repr

/-- Buffer memory: the bytes that differ from what an unlisted address reads as, by rising address. -/
abbrev Memory := List Host.Cell

/-- The machine: the block's elements of R22, then what R39 keeps beside them, then the model's own fields. -/
@[ext]
structure State where
  /-- DESC_PTR (R23). -/
  descPtr : Word
  /-- DESC_LEN (R24). -/
  descLen : Word
  /-- SLOT[0..15] (R25). -/
  slots : Vector Slot 16
  /-- BEGIN_SEQ (R26). -/
  beginSeq : Word
  /-- END_SEQ (R27). -/
  endSeq : Word
  /-- IDLE (R29). -/
  idle : Bool
  /-- PHASE (R30). -/
  phase : Phase
  /-- CUR_BYTE (R31). -/
  curByte : BitVec 16
  /-- RETRIES (R32). -/
  retries : BitVec 4
  /-- ENQ_STATUS (R34). -/
  enqStatus : EnqStatus
  /-- LAST_TICKET (R35). -/
  lastTicket : Word
  /-- RESULT[0..15] (R36). -/
  results : Vector Result 16
  /-- Buffer memory (R39, R50). -/
  mem : Memory
  /-- The PHY (R39, R186). -/
  phy : Phy
  /-- The actions emitted and not yet performed, oldest first (R39, R180). -/
  actions : List Action
  /-- The actions the PHY has performed on the bus, oldest first (R158, R180). -/
  traffic : List Action
  /-- The fault record, oldest first (R39, R238). -/
  faults : List ModelFault
  /-- The value the last host register read returned (R8 `return v`). Log entry 5. -/
  readData : Word
  /-- The byte the last HostLoad returned (R8). Log entry 5. -/
  loadData : Byte
  /-- The agents' steps still to come, in order (R6, R58). Log entry 1. -/
  inputs : List Input
  /-- The platform's parameters (R5). Log entry 6. -/
  params : Params
  deriving DecidableEq, Repr

/-- Why a step stops with a fault: no step of this machine does. The spec's own `raise Fault` discards the step, records
it and lets the machine go on (R238), so it is a next state. DEDUCED, log entry 8. -/
inductive Fault where
  deriving DecidableEq, Repr

/-- Why a step is refused. -/
inductive Refusal where
  /-- Raised by `exec` for an instruction that has no meaning yet. Safe: the machine stops. -/
  | notModelled (mnemonic : String)
  /-- Raised by `step` for a TMO on a platform without a watchdog, where R156 says TMO never occurs. Safe: the machine stops. -/
  | watchdogAbsent
  deriving DecidableEq, Repr

/-- SLOT contents at reset: the spec gives none (R260). DESIGN CHOICE, log entry 2. -/
def Slot.atReset : Slot := { ptr := 0, len := 0, dir := .write }

/-- The parameters of the platform that `State.reset` is on: R5's defaults where it gives one. -/
def Params.atReset : Params :=
  { arbRetryMax := Config.arbRetryMaxDefault
    watchdogPresent := Config.watchdogDefault
    memMap := Config.memMap
    blockPage := Config.blockPage }

/-- The state after reset (R260). -/
def State.reset : State :=
  { descPtr := 0
    descLen := 0
    slots := Vector.replicate 16 Slot.atReset
    beginSeq := 0
    endSeq := 0
    idle := true
    phase := .idle
    curByte := 0
    retries := 0
    enqStatus := .none
    lastTicket := 0
    results := Vector.replicate 16 { code := .none, failIndex := 0 }
    mem := []
    phy := { driving := false, outstanding := none }
    actions := []
    traffic := []
    faults := []
    readData := 0
    loadData := 0
    inputs := []
    params := Params.atReset }

end Sys2Proof.Machine
end

