-- ==== Sys2Proof/Machine/Ops.lean ====
section
/-! DEFINITION. The named operations on memory and on the state: every read and write of a meaning goes through these, and
`raise Fault` is `State.recordFault` under `settle`. -/

namespace Sys2Proof.Machine

/-! ## Buffer memory -/

/-- What an unlisted address reads as. DESIGN CHOICE, log entry 4. -/
def unlistedByte : Byte := 0

/-- The byte at an address. -/
def Memory.read : Memory → Nat → Byte
  | [], _ => unlistedByte
  | (b, v) :: rest, a => if a = b then v else Memory.read rest a

/-- `m` with the cell `(a, v)` before it, which an unlisted value leaves out. -/
def Memory.cons (a : Nat) (v : Byte) (m : Memory) : Memory := if v = unlistedByte then m else (a, v) :: m

/-- `m` with the byte `v` at `a`, in canonical form again. -/
def Memory.write : Memory → Nat → Byte → Memory
  | [], a, v => Memory.cons a v []
  | (b, w) :: rest, a, v =>
    if a < b then Memory.cons a v ((b, w) :: rest)
    else if a = b then Memory.cons a v rest
    else (b, w) :: Memory.write rest a v

/-- Addresses rise strictly from `lo`, stay below 2^32 (R50), and no cell holds what an unlisted address reads as. -/
def Memory.wfFrom : Nat → Memory → Bool
  | _, [] => true
  | lo, (a, v) :: rest => decide (lo ≤ a) && decide (a < 2 ^ 32) && decide (v ≠ unlistedByte) && Memory.wfFrom (a + 1) rest

/-- Memory's canonical form. -/
def Memory.wf (m : Memory) : Bool := Memory.wfFrom 0 m

/-- Is the byte address in MEM_MAP (R53)? -/
def mapped (map : List Region) (addr : Word) : Bool :=
  map.any fun r => decide (r.base ≤ addr.toNat) && decide (addr.toNat < r.base + r.size)

/-! ## Fields -/

def State.setDescPtr (s : State) (v : Word) : State := { s with descPtr := v }
def State.setDescLen (s : State) (v : Word) : State := { s with descLen := v }
def State.setBeginSeq (s : State) (v : Word) : State := { s with beginSeq := v }
def State.setEndSeq (s : State) (v : Word) : State := { s with endSeq := v }
def State.setIdle (s : State) (b : Bool) : State := { s with idle := b }
def State.setPhase (s : State) (p : Phase) : State := { s with phase := p }
def State.setCurByte (s : State) (i : BitVec 16) : State := { s with curByte := i }
def State.setRetries (s : State) (n : BitVec 4) : State := { s with retries := n }
def State.setEnqStatus (s : State) (e : EnqStatus) : State := { s with enqStatus := e }
def State.setLastTicket (s : State) (t : Word) : State := { s with lastTicket := t }
def State.setMem (s : State) (m : Memory) : State := { s with mem := m }
def State.setPhy (s : State) (p : Phy) : State := { s with phy := p }
def State.setActions (s : State) (l : List Action) : State := { s with actions := l }
def State.setTraffic (s : State) (l : List Action) : State := { s with traffic := l }
def State.setReadData (s : State) (v : Word) : State := { s with readData := v }
def State.setLoadData (s : State) (v : Byte) : State := { s with loadData := v }
def State.setInputs (s : State) (l : List Input) : State := { s with inputs := l }

/-- SLOT[i] (R25). -/
def State.slot (s : State) (i : BitVec 4) : Slot := s.slots[i.toNat]'i.isLt

/-- SLOT[i] <- d (R25). -/
def State.setSlot (s : State) (i : BitVec 4) (d : Slot) : State := { s with slots := s.slots.set i.toNat d i.isLt }

/-- RESULT[i] (R36). -/
def State.result (s : State) (i : BitVec 4) : Result := s.results[i.toNat]'i.isLt

/-- RESULT[i] <- r (R36). -/
def State.setResult (s : State) (i : BitVec 4) (r : Result) : State :=
  { s with results := s.results.set i.toNat r i.isLt }

/-- `emit(A)`: append to the actions for the PHY (R8, R180). -/
def State.emit (s : State) (a : Action) : State := { s with actions := s.actions ++ [a] }

/-! ## Model faults: this machine's exceptions -/

/-- What `raise Fault(kind, info)` leaves of a step: the record with the entry appended, and nothing else changed (R238). There
is no return from one: nothing is saved and the next step goes on (R239, R240). -/
def State.recordFault (s : State) (f : ModelFault) : State := { s with faults := s.faults ++ [f] }

/-- A step's outcome from the state before it: its effects, or on a model fault the record alone (R8, R238). -/
def settle (s : State) : Except ModelFault State → Host.Outcome State Fault Refusal
  | .ok t => .next t
  | .error f => .next (s.recordFault f)

/-! ## The memory port -/

/-- `MemRead(addr, 1)` (R8, R51, R53). -/
def memRead (s : State) (addr : Word) : Except ModelFault Byte :=
  if mapped s.params.memMap addr then .ok (Memory.read s.mem addr.toNat) else .error (.memFault addr)

/-- `MemWrite(addr, 1, v)` (R8, R51, R53). -/
def memWrite (s : State) (addr : Word) (v : Byte) : Except ModelFault State :=
  if mapped s.params.memMap addr then .ok (s.setMem (Memory.write s.mem addr.toNat v)) else .error (.memFault addr)

/-! ## The PHY -/

/-- The outstanding operation after one more action: TX, RSTART and RX owe an answer (R182, R184, R185), STOP and RELEASE
abandon one (R183, R189), START owes nothing of its own (R181). -/
def Action.after (o : Option PhyOp) : Action → Option PhyOp
  | .start => o
  | .rstart => some .rstart
  | .stop => none
  | .tx b => some (.tx b)
  | .rx a => some (.rx a)
  | .release => none

/-- Does the PHY drive the bus as master after one more action (R181, R183, R189)? -/
def Action.drives (d : Bool) : Action → Bool
  | .start => true
  | .rstart => d
  | .stop => false
  | .tx _ => d
  | .rx _ => d
  | .release => false

/-- The PHY performs an action on the bus (R180 to R185, R189). -/
def State.perform (s : State) (a : Action) : State :=
  (s.setPhy { driving := a.drives s.phy.driving, outstanding := a.after s.phy.outstanding }).setTraffic (s.traffic ++ [a])

/-- The operation the PHY owes an answer for, over the lists emitted so far (R186). -/
def State.owed (s : State) : Option PhyOp := s.actions.foldl (fun o a => a.after o) s.phy.outstanding

/-- The PHY performs, in order, every action emitted and not yet performed (R180). -/
def State.catchUp (s : State) : State := s.actions.foldl State.perform (s.setActions [])

/-- The PHY has raised its one owed answer (R186). -/
def State.answered (s : State) : State := s.setPhy { s.phy with outstanding := none }

end Sys2Proof.Machine
end

