-- ==== Sys2Proof/Machine/Operands.lean ====
section
/-! DEFINITION. The operand forms: the codes of the named values, the positions in the queue, buffer addresses, and the words
a host read returns. -/

namespace Sys2Proof.Machine

/-! ## Codes -/

/-- DIR_WRITE = 0, DIR_READ = 1 (R9). -/
def Dir.bit : Dir → BitVec 1
  | .write => 0
  | .read => 1

/-- R30. -/
def Phase.code : Phase → BitVec 3
  | .idle => 0
  | .addr => 1
  | .writeData => 2
  | .readData => 3
  | .stop => 4
  | .restart => 5

/-- R34. -/
def EnqStatus.code : EnqStatus → BitVec 3
  | .none => 0
  | .ok => 1
  | .queueFull => 2
  | .badLength => 3
  | .badCommand => 4

/-- R36. -/
def ResultCode.code : ResultCode → BitVec 3
  | .none => 0
  | .ok => 1
  | .noack => 2
  | .arbLost => 3
  | .timeout => 4

/-- R233. -/
def ModelFault.code : ModelFault → Nat
  | .hostAccess _ _ _ => 1
  | .memFault _ => 2
  | .illegalEvent _ => 3
  | .spuriousEvent _ _ => 4

/-- The access width in bits (R57). -/
def HostWidth.bits : HostWidth → Nat
  | .byte => 8
  | .half => 16
  | .word => 32

/-- The operation that performs an action (R78). -/
def Action.toInstr : Action → Instr
  | .start => .actStart
  | .rstart => .actRstart
  | .stop => .actStop
  | .tx b => .actTx b
  | .rx a => .actRx a
  | .release => .actRelease

/-- The action an ACTION word stands for (R78). -/
def Action.ofWord (w : BitVec 12) : Option Action :=
  match decodeAction w with
  | .ok .actStart => some .start
  | .ok .actRstart => some .rstart
  | .ok .actStop => some .stop
  | .ok (.actTx b) => some (.tx b)
  | .ok (.actRx a) => some (.rx a)
  | .ok .actRelease => some .release
  | _ => none

/-! ## The queue's positions and the transaction in flight -/

/-- The slot of a sequence number: its low four bits (R26, R27, R35). -/
def slotOf (seq : Word) : BitVec 4 := seq.setWidth 4

/-- `beginPos` (R26). -/
def State.beginPos (s : State) : BitVec 4 := slotOf s.beginSeq

/-- `endPos` (R27). -/
def State.endPos (s : State) : BitVec 4 := slotOf s.endSeq

/-- `cur`, which is SLOT[beginPos] (R33). -/
def State.cur (s : State) : Slot := s.slot s.beginPos

/-- `baddr(i)` of the transaction in flight (R52). -/
def State.baddr (s : State) (i : BitVec 16) : Word := s.cur.ptr + i.setWidth 32

/-- `H(dir)`, the header length (R9, R134). -/
def headerLen : Dir → BitVec 16
  | .write => 2
  | .read => 3

/-- The phase after byte `i` of a write is handed to the PHY (R134). -/
def phaseAfterTx (i : BitVec 16) : Phase := if i < 2 then .addr else .writeData

/-- `ackFor(i)`: the acknowledge bit for byte `i` of a read of length `len` (R135). -/
def ackFor (len i : BitVec 16) : Ack := if i + 1 < len then .ack else .nack

/-- `inProgress()` (R141). The table has no row for IDLE and STOP: a free value there, log entry 7. -/
def State.inProgress (s : State) : BitVec 16 :=
  match s.phase with
  | .addr => s.curByte - 1
  | .writeData => s.curByte - 1
  | .restart => 2
  | .readData => s.curByte
  | .idle => Config.unlistedIndex s.curByte
  | .stop => Config.unlistedIndex s.curByte

/-! ## Words a host read returns (R73: reserved bits are 0) -/

/-- CUR_BYTE (R31, R201). -/
def curByteWord (i : BitVec 16) : Word := i.setWidth 32

/-- ENQ_STATUS (R34, R113). -/
def enqStatusWord (e : EnqStatus) : Word := e.code.setWidth 32

/-- RESULT[s] (R36, R202). -/
def resultWord (r : Result) : Word := r.failIndex ++ 0#13 ++ r.code.code

/-! ## Event words, as a spurious event's info records them (R136) -/

/-- The EVENT word of `ev.txc a` (R81). -/
def txcWord (a : Ack) : BitVec 12 := portWord 1 a.bit 0

/-- The EVENT word of `ev.rxc d` (R81). -/
def rxcWord (d : Byte) : BitVec 12 := portWord 2 0 d

/-- The EVENT word of `ev.req` (R81). -/
def reqWord : BitVec 12 := portWord 3 0 0

/-- The EVENT word of `ev.arbl` (R81). -/
def arblWord : BitVec 12 := portWord 4 0 0

/-- The EVENT word of `ev.tmo` (R81). -/
def tmoWord : BitVec 12 := portWord 5 0 0

end Sys2Proof.Machine
end

