-- ==== Sys2Proof/Machine/Flags.lean ====
section
/-! DEFINITION. The computed conditions: COUNT, FULL, slot occupancy, the STATUS word, length legality, completion. -/

namespace Sys2Proof.Machine

/-- COUNT (R28). -/
def State.count (s : State) : Word := s.endSeq - s.beginSeq

/-- FULL (R28). -/
def State.full (s : State) : Bool := s.count == 16

/-- Is slot `i` occupied (R25)? -/
def State.occupied (s : State) (i : BitVec 4) : Bool := decide ((i - s.beginPos).toNat < s.count.toNat)

/-- STATUS.DIR: the direction in flight, 0 while idle (R37). -/
def State.dirBit (s : State) : BitVec 1 := if s.idle then 0 else s.cur.dir.bit

/-- The STATUS word (R37, R200). -/
def State.statusWord (s : State) : Word :=
  0#16 ++ s.retries ++ s.dirBit ++ s.phase.code ++ 0#1 ++ s.count.setWidth 5 ++ BitVec.ofBool s.full ++ BitVec.ofBool s.idle

/-- The least length of a transaction (R102). -/
def minLen : Dir → Word
  | .write => 1
  | .read => 4

/-- `legal(dir, L)` (R102). -/
def legalLen (dir : Dir) (len : Word) : Bool := decide (len ≤ 0xFFFF) && decide (minLen dir ≤ len)

/-- `done(t)` against a value read from BEGIN_SEQ (R203). -/
def doneAt (t beginSeq : Word) : Bool := decide (16 ≤ (t - beginSeq).toNat)

end Sys2Proof.Machine
end

