-- ==== Sys2Proof/Machine/HostRegs.lean ====
section
/-! DEFINITION. The host family without the commands: the staging registers and every register read (R109 to R114, R200 to R202). -/

namespace Sys2Proof.Machine

/-- `return v`: the value a host read returns (R8); a read changes nothing else. -/
def hostReturn (v : Word) (s : State) : Host.Outcome State Fault Refusal := .next (s.setReadData v)

/-- WR_DESC_PTR (R109). -/
def execWrDescPtr (v : Word) (s : State) : Host.Outcome State Fault Refusal := .next (s.setDescPtr v)

/-- RD_DESC_PTR (R109). -/
def execRdDescPtr (s : State) : Host.Outcome State Fault Refusal := hostReturn s.descPtr s

/-- WR_DESC_LEN (R110). -/
def execWrDescLen (v : Word) (s : State) : Host.Outcome State Fault Refusal := .next (s.setDescLen v)

/-- RD_DESC_LEN (R110). -/
def execRdDescLen (s : State) : Host.Outcome State Fault Refusal := hostReturn s.descLen s

/-- RD_STATUS (R200). -/
def execRdStatus (s : State) : Host.Outcome State Fault Refusal := hostReturn s.statusWord s

/-- RD_BEGIN_SEQ (R111). -/
def execRdBeginSeq (s : State) : Host.Outcome State Fault Refusal := hostReturn s.beginSeq s

/-- RD_END_SEQ (R112). -/
def execRdEndSeq (s : State) : Host.Outcome State Fault Refusal := hostReturn s.endSeq s

/-- RD_CUR_BYTE (R201). -/
def execRdCurByte (s : State) : Host.Outcome State Fault Refusal := hostReturn (curByteWord s.curByte) s

/-- RD_ENQ_STATUS (R113): reading does not clear it. -/
def execRdEnqStatus (s : State) : Host.Outcome State Fault Refusal := hostReturn (enqStatusWord s.enqStatus) s

/-- RD_LAST_TICKET (R114). -/
def execRdLastTicket (s : State) : Host.Outcome State Fault Refusal := hostReturn s.lastTicket s

/-- RD_RESULT (R202): reading does not clear the record. -/
def execRdResult (slot : BitVec 4) (s : State) : Host.Outcome State Fault Refusal := hostReturn (resultWord (s.result slot)) s

end Sys2Proof.Machine
end

