-- ==== Sys2Proof/Machine/Phy.lean ====
section
/-! DEFINITION. The action family: the PHY performs one action (R180 to R185, R189). -/

namespace Sys2Proof.Machine

/-- ACT_START (R181): takes the bus as master; no event answers it. -/
def execActStart (s : State) : Host.Outcome State Fault Refusal := .next (s.perform .start)

/-- ACT_RSTART (R182): owes REQ, or ARBL. -/
def execActRstart (s : State) : Host.Outcome State Fault Refusal := .next (s.perform .rstart)

/-- ACT_STOP (R183): releases the bus and abandons an outstanding operation. -/
def execActStop (s : State) : Host.Outcome State Fault Refusal := .next (s.perform .stop)

/-- ACT_TX (R184): owes TXC, or ARBL. -/
def execActTx (b : Byte) (s : State) : Host.Outcome State Fault Refusal := .next (s.perform (.tx b))

/-- ACT_RX (R185): owes RXC, or ARBL. -/
def execActRx (a : Ack) (s : State) : Host.Outcome State Fault Refusal := .next (s.perform (.rx a))

/-- ACT_RELEASE (R189): stops driving the bus and abandons an outstanding operation. -/
def execActRelease (s : State) : Host.Outcome State Fault Refusal := .next (s.perform .release)

/-! ## Raising an event -/

/-- The events that answer an outstanding operation: the owed one, or ARBL in its place (R182, R184, R185, R187). -/
def PhyOp.answeredWith : PhyOp → Instr → Bool
  | .tx _, .evTxc _ => true
  | .rstart, .evReq => true
  | .rx _, .evRxc _ => true
  | .tx _, .evArbl => true
  | .rstart, .evArbl => true
  | .rx _, .evArbl => true
  | _, _ => false

/-- The event is an answer that the PHY owes, over the lists emitted so far (R186). -/
def State.owes (s : State) (i : Instr) : Bool :=
  match s.owed with
  | none => false
  | some op => op.answeredWith i

/-- The state in which the PHY raises an event: it has first performed what the event answers (R182, R184, R185: generate, shift
out or clock in, then raise), and so, in order (R180), all that was emitted before. An event that it does not owe answers no
action, and a timeout is the watchdog's: neither waits for the PHY. DESIGN CHOICE, log entry 1. A model fault
of the event's handler does not undo the performing. DESIGN CHOICE, log entry 16. -/
def State.raising (s : State) (i : Instr) : State := if s.owes i then s.catchUp else s

end Sys2Proof.Machine
end

