-- ==== Sys2Proof/Machine/Sequencer.lean ====
section
/-! DEFINITION. The bus state machine: the internal procedures (R131 to R136) and the handler of every event in every phase
(R130, R138 to R155). A handler answers the state after the step, or the model fault that discards it (R238). -/

namespace Sys2Proof.Machine

/-! ## Internal procedures -/

/-- `startOp()` (R132). -/
def startOp (s : State) : Except ModelFault State :=
  match memRead s (s.baddr 0) with
  | .error f => .error f
  | .ok b => .ok ((((s.emit .start).emit (.tx b)).setCurByte 1).setPhase .addr)

/-- `nextOp()` (R131). -/
def nextOp (s : State) : Except ModelFault State := startOp ((s.setCurByte 0).setRetries 0)

/-- The part of `retire` before the queue is looked at: the result is recorded and BEGIN_SEQ advances (R133). -/
def State.retired (s : State) (code : ResultCode) (idx : BitVec 16) : State :=
  ((s.setPhase .stop).setResult s.beginPos { code := code, failIndex := idx }).setBeginSeq (s.beginSeq + 1)

/-- `retire(code, idx)` (R133). -/
def retire (code : ResultCode) (idx : BitVec 16) (s : State) : Except ModelFault State :=
  let t := s.retired code idx
  if t.endSeq = t.beginSeq then .ok ((t.setIdle true).setPhase .idle) else nextOp t

/-- `spurious(ev)` (R136). -/
def spurious (w : BitVec 12) (s : State) : Except ModelFault State := .error (.spuriousEvent w s.phase)

/-! ## Transmit complete -/

/-- Read buffer byte `i` and hand it to the PHY: CUR_BYTE is then `i + 1` (R138, R139, R145). -/
def sendByte (i : BitVec 16) (p : Phase) (s : State) : Except ModelFault State :=
  match memRead s (s.baddr i) with
  | .error f => .error f
  | .ok b => .ok (((s.emit (.tx b)).setCurByte (i + 1)).setPhase p)

/-- `txAckWrite()` (R138). -/
def txAckWrite (s : State) : Except ModelFault State :=
  if s.curByte < s.cur.len then sendByte s.curByte (phaseAfterTx s.curByte) s
  else retire .ok 0 (s.emit .stop)

/-- `txAckReadAddr()` (R139): the register byte goes out and PHASE stays ADDR. -/
def txAckReadAddr (s : State) : Except ModelFault State := sendByte 1 s.phase s

/-- `txAckReadReg()` (R140). -/
def txAckReadReg (s : State) : Except ModelFault State := .ok ((s.emit .rstart).setPhase .restart)

/-- `txAckReadReaddr()` (R142). -/
def txAckReadReaddr (s : State) : Except ModelFault State :=
  .ok ((s.setPhase .readData).emit (.rx (ackFor s.cur.len 3)))

/-- `txNack()` (R143). -/
def txNack (s : State) : Except ModelFault State := retire .noack (s.curByte - 1) (s.emit .stop)

/-- A transmitted byte was acknowledged, by direction and CUR_BYTE (R130). -/
def txAck (s : State) : Except ModelFault State :=
  match s.cur.dir with
  | .write => txAckWrite s
  | .read =>
    if s.curByte = 1 then txAckReadAddr s
    else if s.curByte = 2 then txAckReadReg s
    else txAckReadReaddr s

/-- TXC where PHASE expects it (R130). -/
def txComplete : Ack → State → Except ModelFault State
  | .nack, s => txNack s
  | .ack, s => txAck s

/-- TXC in every phase (R130, R144). -/
def onTxc (a : Ack) (s : State) : Except ModelFault State :=
  match s.phase with
  | .addr => txComplete a s.answered
  | .writeData => txComplete a s.answered
  | .idle => spurious (txcWord a) s
  | .readData => spurious (txcWord a) s
  | .stop => spurious (txcWord a) s
  | .restart => spurious (txcWord a) s

/-! ## Request -/

/-- `request()` (R145). -/
def request (s : State) : Except ModelFault State := sendByte 2 .addr s

/-- REQ in every phase (R130, R146). -/
def onReq (s : State) : Except ModelFault State :=
  match s.phase with
  | .restart => request s.answered
  | .idle => spurious reqWord s
  | .addr => spurious reqWord s
  | .writeData => spurious reqWord s
  | .readData => spurious reqWord s
  | .stop => spurious reqWord s

/-! ## Receive complete -/

/-- Store the received byte at index CUR_BYTE and advance the cursor (R147, R148). -/
def storeByte (d : Byte) (s : State) : Except ModelFault State :=
  match memWrite s (s.baddr s.curByte) d with
  | .error f => .error f
  | .ok t => .ok (t.setCurByte (s.curByte + 1))

/-- `rxMore(d)` (R147). -/
def rxMore (d : Byte) (s : State) : Except ModelFault State :=
  match storeByte d s with
  | .error f => .error f
  | .ok t => .ok (t.emit (.rx (ackFor s.cur.len (s.curByte + 1))))

/-- `rxLast(d)` (R148): the memory write precedes the retire (R60). -/
def rxLast (d : Byte) (s : State) : Except ModelFault State :=
  match storeByte d s with
  | .error f => .error f
  | .ok t => retire .ok 0 (t.emit .stop)

/-- RXC where PHASE expects it (R130). DEDUCED past the last byte, log entry 12. -/
def rxComplete (d : Byte) (s : State) : Except ModelFault State :=
  if s.curByte + 1 < s.cur.len then rxMore d s else rxLast d s

/-- RXC in every phase (R130, R149). -/
def onRxc (d : Byte) (s : State) : Except ModelFault State :=
  match s.phase with
  | .readData => rxComplete d s.answered
  | .idle => spurious (rxcWord d) s
  | .addr => spurious (rxcWord d) s
  | .writeData => spurious (rxcWord d) s
  | .stop => spurious (rxcWord d) s
  | .restart => spurious (rxcWord d) s

/-! ## Arbitration loss -/

/-- `arbRetry()` (R151). -/
def arbRetry (s : State) : Except ModelFault State := startOp ((s.emit .release).setRetries (s.retries + 1))

/-- `arbFail()` (R152). -/
def arbFail (s : State) : Except ModelFault State := retire .arbLost s.inProgress (s.emit .release)

/-- ARBL in every phase (R130, R153): accepted in every phase but IDLE (R150). -/
def onArbl (s : State) : Except ModelFault State :=
  if s.phase = .idle then spurious arblWord s
  else if s.retries < s.params.arbRetryMax then arbRetry s.answered
  else arbFail s.answered

/-! ## Watchdog timeout -/

/-- `timeout()` (R154). -/
def timeout (s : State) : Except ModelFault State := retire .timeout s.inProgress (s.emit .stop)

/-- TMO in every phase (R130, R155): no effect in IDLE. -/
def onTmo (s : State) : Except ModelFault State := if s.phase = .idle then .ok s else timeout s

/-! ## The events' meanings -/

/-- EV_TXC (R130, R138 to R144). -/
def execEvTxc (a : Ack) (s : State) : Host.Outcome State Fault Refusal := settle s (onTxc a s)

/-- EV_RXC (R130, R147 to R149). -/
def execEvRxc (d : Byte) (s : State) : Host.Outcome State Fault Refusal := settle s (onRxc d s)

/-- EV_REQ (R130, R145, R146). -/
def execEvReq (s : State) : Host.Outcome State Fault Refusal := settle s (onReq s)

/-- EV_ARBL (R130, R150 to R153). -/
def execEvArbl (s : State) : Host.Outcome State Fault Refusal := settle s (onArbl s)

/-- EV_TMO (R130, R154, R155). -/
def execEvTmo (s : State) : Host.Outcome State Fault Refusal := settle s (onTmo s)

end Sys2Proof.Machine
end

