-- ==== Sys2Proof/Machine/Queue.lean ====
section
/-! DEFINITION. The enqueue commands (R101 to R108). -/

namespace Sys2Proof.Machine

/-- The registers and the slot an accepted enqueue writes (R104). -/
def State.accepted (s : State) (dir : Dir) : State :=
  ((((s.setSlot s.endPos { ptr := s.descPtr, len := s.descLen.setWidth 16, dir := dir }).setResult s.endPos
    { code := .none, failIndex := 0 }).setLastTicket s.endSeq).setEndSeq (s.endSeq + 1)).setEnqStatus .ok

/-- `startFromIdle()` (R105). -/
def startFromIdle (s : State) : Except ModelFault State := nextOp (s.setIdle false)

/-- `enqueue(dir)` (R104), with the order of checks of R103. -/
def enqueue (dir : Dir) (s : State) : Except ModelFault State :=
  if legalLen dir s.descLen = false then .ok (s.setEnqStatus .badLength)
  else if s.count = 16 then .ok (s.setEnqStatus .queueFull)
  else if s.idle then startFromIdle (s.accepted dir)
  else .ok (s.accepted dir)

/-- ENQ_WRITE (R106). -/
def execEnqWrite (s : State) : Host.Outcome State Fault Refusal := settle s (enqueue .write s)

/-- ENQ_READ (R107). -/
def execEnqRead (s : State) : Host.Outcome State Fault Refusal := settle s (enqueue .read s)

/-- WR_CMD_RESERVED (R108): rejected, whatever the reserved value. -/
def execWrCmdReserved (_v : Word) (s : State) : Host.Outcome State Fault Refusal := .next (s.setEnqStatus .badCommand)

end Sys2Proof.Machine
end

