-- ==== Sys2Proof/Machine/Dispatch.lean ====
section
/-! DEFINITION. One arm per constructor of Instr. -/

namespace Sys2Proof.Machine

def exec (i : Instr) (s : State) : Host.Outcome State Fault Refusal :=
  match i with
  | .wrDescPtr v => Sys2Proof.Machine.execWrDescPtr v s
  | .rdDescPtr => Sys2Proof.Machine.execRdDescPtr s
  | .wrDescLen v => Sys2Proof.Machine.execWrDescLen v s
  | .rdDescLen => Sys2Proof.Machine.execRdDescLen s
  | .enqWrite => Sys2Proof.Machine.execEnqWrite s
  | .enqRead => Sys2Proof.Machine.execEnqRead s
  | .wrCmdReserved v => Sys2Proof.Machine.execWrCmdReserved v s
  | .rdStatus => Sys2Proof.Machine.execRdStatus s
  | .rdBeginSeq => Sys2Proof.Machine.execRdBeginSeq s
  | .rdEndSeq => Sys2Proof.Machine.execRdEndSeq s
  | .rdCurByte => Sys2Proof.Machine.execRdCurByte s
  | .rdEnqStatus => Sys2Proof.Machine.execRdEnqStatus s
  | .rdLastTicket => Sys2Proof.Machine.execRdLastTicket s
  | .rdResult slot => Sys2Proof.Machine.execRdResult slot s
  | .evTxc a => Sys2Proof.Machine.execEvTxc a s
  | .evRxc d => Sys2Proof.Machine.execEvRxc d s
  | .evReq => Sys2Proof.Machine.execEvReq s
  | .evArbl => Sys2Proof.Machine.execEvArbl s
  | .evTmo => Sys2Proof.Machine.execEvTmo s
  | .actStart => Sys2Proof.Machine.execActStart s
  | .actRstart => Sys2Proof.Machine.execActRstart s
  | .actStop => Sys2Proof.Machine.execActStop s
  | .actTx b => Sys2Proof.Machine.execActTx b s
  | .actRx a => Sys2Proof.Machine.execActRx a s
  | .actRelease => Sys2Proof.Machine.execActRelease s

end Sys2Proof.Machine
end

