-- ==== Sys2Proof/Machine/Deliver.lean ====
section
/-! DEFINITION. How one agent's step reaches the machine: the words of the ports, the host's own accesses to memory, and the
PHY's performing of an action (R6, R57, R64, R79, R180). -/

namespace Sys2Proof.Machine

/-- A HOST word (R71): the operation it encodes, or HOST_ACCESS (R72, R80). -/
def deliverHost (w : BitVec 41) (s : State) : Host.Outcome State Fault Refusal :=
  match decodeHost w with
  | .ok i => exec i s
  | .error _ => .next (s.recordFault (.hostAccess (hostOffset w) (hostWE w) .word))

/-- A host access on the platform's bus (R57, R64): the block takes it when its first byte's address is in the
block's 256 bytes. An access that begins 1 to 3 bytes below BLOCK_BASE and runs into the block is none of its accesses, and has no
effect and no fault: the spec does not say. DESIGN CHOICE, log entry 14. An access outside the block, to buffer memory too, is
none of the block's either and leaves memory as it is: R50 leaves the host's own accesses outside the spec, and here the host
reaches memory by `Input.store` and `Input.load` alone. DESIGN CHOICE, log entry 15. -/
def deliverBus (a : BusAccess) (s : State) : Host.Outcome State Fault Refusal :=
  if 256 * s.params.blockPage ≤ a.addr ∧ a.addr < 256 * s.params.blockPage + 256 then
    match a.width with
    | .word => deliverHost (hostWord a.we (BitVec.ofNat 8 a.addr) a.wdata) s
    | .half => .next (s.recordFault (.hostAccess (BitVec.ofNat 8 a.addr) a.we .half))
    | .byte => .next (s.recordFault (.hostAccess (BitVec.ofNat 8 a.addr) a.we .byte))
  else .next s

/-- An EVENT word (R75): ILLEGAL_EVENT is checked first, then the handler decides (R237), once the PHY has performed what the
event answers (R182, R184, R185). A TMO needs a watchdog (R156). DESIGN CHOICE, log entry 9. When the
handler ends in a model fault, what it did is discarded (R238), and the PHY's performing before it stays: R8 and R238 do not speak
of that performing. DESIGN CHOICE, log entry 16. -/
def deliverEvent (w : BitVec 12) (s : State) : Host.Outcome State Fault Refusal :=
  match decodeEvent w with
  | .ok i => if i = .evTmo ∧ s.params.watchdogPresent = false then .refused .watchdogAbsent else exec i (s.raising i)
  | .error _ => .next (s.recordFault (.illegalEvent w))

/-- The PHY performs the oldest action of the lists emitted so far (R180); with none it has nothing to do. -/
def deliverPerform (s : State) : Host.Outcome State Fault Refusal :=
  match s.actions with
  | [] => .next s
  | a :: rest => exec a.toInstr (s.setActions rest)

/-- `HostStore(addr, 1, v)` (R8, R58): the host reaches all of buffer memory by its own accesses (R50). -/
def deliverStore (addr : Word) (v : Byte) (s : State) : Host.Outcome State Fault Refusal :=
  .next (s.setMem (Memory.write s.mem addr.toNat v))

/-- `HostLoad(addr, 1)` (R8, R58). -/
def deliverLoad (addr : Word) (s : State) : Host.Outcome State Fault Refusal :=
  .next (s.setLoadData (Memory.read s.mem addr.toNat))

/-- One agent's step (R6). -/
def deliver : Input → State → Host.Outcome State Fault Refusal
  | .host w, s => deliverHost w s
  | .bus a, s => deliverBus a s
  | .event w, s => deliverEvent w s
  | .perform, s => deliverPerform s
  | .store addr v, s => deliverStore addr v s
  | .load addr, s => deliverLoad addr s

/-- Take the next agent's step (R6, R58). With no step to come, no agent moves and the machine waits (R190, I-6). -/
def takeStep (s : State) : Host.Outcome State Fault Refusal :=
  match s.inputs with
  | [] => .next s
  | i :: rest => deliver i (s.setInputs rest)

/-- Place a port word as the next step: a HOST or EVENT word at its port, an action as the oldest one the PHY has to perform.
An `ev.tmo` takes a watchdog (R156). -/
def placeWord (p : PortWord) (s : State) : State :=
  match p with
  | .host w => s.setInputs (.host w :: s.inputs)
  | .event w =>
    { s with
      inputs := .event w :: s.inputs
      params := { s.params with watchdogPresent := s.params.watchdogPresent || w == tmoWord } }
  | .action w =>
    match Action.ofWord w with
    | some a => (s.setActions (a :: s.actions)).setInputs (.perform :: s.inputs)
    | none => s

/-- Place a word of the opcode table as the next step. -/
def placeTableWord (s : State) (nbits w : Nat) : State :=
  match tableWord nbits w with
  | some p => placeWord p s
  | none => s

end Sys2Proof.Machine
end

