-- ==== Sys2Proof/Machine/Step.lean ====
section
/-! DEFINITION. The step of the machine. -/

namespace Sys2Proof.Machine

/-- One step: the next agent's (R6). -/
def step (s : State) : Host.Outcome State Fault Refusal := takeStep s

/-- `s` with a word of the opcode table as the step to come. Log entry 10. -/
def State.withFetchWord (s : State) (nbits w : Nat) : State := placeTableWord s nbits w

end Sys2Proof.Machine
end

