-- ==== Sys2Proof/Machine/HostProc.lean ====
section
/-! DEFINITION. The host procedures of R206 to R211 (pseudo-instructions, R82): host software over the block's interface. A
procedure is the point it has reached, each of its accesses one step of the host, so that other agents may move between. -/

namespace Sys2Proof.Machine

/-- What `execute` returns (R207): the rejection that `schedule` reported, or the RESULT word. The tag tells the two apart; R207
returns either as a bare word. DESIGN CHOICE, log entry 13. -/
inductive ExecResult where
  | rejected (enqStatus : Word)
  | completed (result : Word)
  deriving DecidableEq, Repr

/-- What `readSync` returns beside its byte (R211): `r.code` (R36) of a completed transaction. A rejection has no `.code`, and the
tagged ENQ_STATUS stands there: the spec does not say what does. DESIGN CHOICE, log entry 13. -/
inductive ReadStatus where
  | rejected (enqStatus : Word)
  | code (c : BitVec 3)
  deriving DecidableEq, Repr

/-- `r.code` of what `execute` returned (R211): bits 2:0 of a RESULT word (R36). A rejection stays itself. DESIGN CHOICE, log
entry 13. -/
def ExecResult.status : ExecResult → ReadStatus
  | .rejected st => .rejected st
  | .completed result => .code (result.extractLsb' 0 3)

/-- What a procedure returns. -/
inductive ProcResult where
  /-- `schedule` (R206): OK and the ticket. -/
  | accepted (ticket : Word)
  /-- `schedule` (R206): the rejection, nothing queued. -/
  | rejected (enqStatus : Word)
  /-- `execute` and `writeSync` (R207, R210). -/
  | executed (r : ExecResult)
  /-- `readSync` (R211): the byte is meaningful only when the code is OK. -/
  | readByte (r : ReadStatus) (b : Byte)
  /-- `isIdle` (R208). -/
  | idleFlag (b : Bool)
  /-- `flush` (R209). -/
  | flushed
  deriving DecidableEq, Repr

/-- What to do once the command is enqueued: return (`schedule`), wait for the result (`execute`, `writeSync`), or wait for it
and load the byte at `p + 3` (`readSync`). -/
inductive ProcGoal where
  | schedule
  | execute
  | readSync (p : Word)
  deriving DecidableEq, Repr

/-- Where a procedure stands: the access it makes next. -/
inductive Proc where
  /-- `HostStore` each byte of `b :: more` in turn, from `at_` on (R210, R211), and then stage `{ptr, len, dir}`. -/
  | storing (at_ : Word) (b : Byte) (more : List Byte) (g : ProcGoal) (ptr len : Word) (dir : Dir)
  /-- `wr DESC_PTR, ptr` (R206). -/
  | wrPtr (g : ProcGoal) (ptr len : Word) (dir : Dir)
  /-- `wr DESC_LEN, len` (R206). -/
  | wrLen (g : ProcGoal) (len : Word) (dir : Dir)
  /-- `enq.w` or `enq.r` (R206). -/
  | command (g : ProcGoal) (dir : Dir)
  /-- `rd ENQ_STATUS` (R206). -/
  | rdEnqStatus (g : ProcGoal)
  /-- `rd LAST_TICKET` (R206). -/
  | rdLastTicket (g : ProcGoal)
  /-- `rd BEGIN_SEQ`, until `done(t)` (R207). -/
  | pollBegin (g : ProcGoal) (t : Word)
  /-- `rd RESULT[t[3:0]]` (R207). -/
  | rdResult (g : ProcGoal) (t : Word)
  /-- `HostLoad(p + 3, 1)` (R211). -/
  | loading (p : Word) (r : ExecResult)
  /-- `rd STATUS` for `isIdle` (R208). -/
  | rdIdle
  /-- `rd STATUS`, until bit 0 is set (R209). -/
  | pollIdle
  /-- The procedure has returned. -/
  | returned (r : ProcResult)
  deriving DecidableEq, Repr

/-- `schedule(ptr, len, dir)` (R206). -/
def procSchedule (ptr len : Word) (dir : Dir) : Proc := .wrPtr .schedule ptr len dir

/-- `execute(ptr, len, dir)` (R207). -/
def procExecute (ptr len : Word) (dir : Dir) : Proc := .wrPtr .execute ptr len dir

/-- `isIdle()` (R208). -/
def procIsIdle : Proc := .rdIdle

/-- `flush()` (R209). -/
def procFlush : Proc := .pollIdle

/-- `S[6:0] << 1 | dir` (R210, R211). -/
def addrByte (slave : BitVec 7) (dir : Dir) : Byte := slave ++ dir.bit

/-- `writeSync(S, R, v)` with the host's 3-byte buffer at `p` (R210). -/
def procWriteSync (p : Word) (slave : BitVec 7) (reg v : Byte) : Proc :=
  .storing p (addrByte slave .write) [reg, v] .execute p 3 .write

/-- `readSync(S, R)` with the host's 4-byte buffer at `p` (R211). -/
def procReadSync (p : Word) (slave : BitVec 7) (reg : Byte) : Proc :=
  .storing p (addrByte slave .write) [reg, addrByte slave .read, 0] (.readSync p) p 4 .read

/-- The host step that performs an operation of the HOST port. -/
def hostStep (i : Instr) : Option Input :=
  match encode i with
  | .host w => some (.host w)
  | .event _ => none
  | .action _ => none

/-- The access the procedure makes next; none once it has returned. -/
def Proc.input : Proc → Option Input
  | .storing a b _ _ _ _ _ => some (.store a b)
  | .wrPtr _ ptr _ _ => hostStep (.wrDescPtr ptr)
  | .wrLen _ len _ => hostStep (.wrDescLen len)
  | .command _ .write => hostStep .enqWrite
  | .command _ .read => hostStep .enqRead
  | .rdEnqStatus _ => hostStep .rdEnqStatus
  | .rdLastTicket _ => hostStep .rdLastTicket
  | .pollBegin _ _ => hostStep .rdBeginSeq
  | .rdResult _ t => hostStep (.rdResult (slotOf t))
  | .loading p _ => some (.load (p + 3))
  | .rdIdle => hostStep .rdStatus
  | .pollIdle => hostStep .rdStatus
  | .returned _ => none

/-- `execute` has its result: what the goal does with it (R207, R210, R211). -/
def ProcGoal.finish (r : ExecResult) : ProcGoal → Proc
  | .schedule => .returned (.executed r)
  | .execute => .returned (.executed r)
  | .readSync p => .loading p r

/-- Where the procedure stands after its access, by what the access returned (`v` from a register, `b` from memory). After a
rejection `execute` returns it (R207), and `readSync` still loads its byte and returns the two together: DESIGN CHOICE, log
entry 13. -/
def Proc.resume (v : Word) (b : Byte) : Proc → Proc
  | .storing a _ (c :: more) g ptr len dir => .storing (a + 1) c more g ptr len dir
  | .storing _ _ [] g ptr len dir => .wrPtr g ptr len dir
  | .wrPtr g _ len dir => .wrLen g len dir
  | .wrLen g _ dir => .command g dir
  | .command g _ => .rdEnqStatus g
  | .rdEnqStatus g =>
    if v = enqStatusWord .ok then .rdLastTicket g
    else match g with
      | .schedule => .returned (.rejected v)
      | .execute => ProcGoal.finish (.rejected v) .execute
      | .readSync p => ProcGoal.finish (.rejected v) (.readSync p)
  | .rdLastTicket g =>
    match g with
    | .schedule => .returned (.accepted v)
    | .execute => .pollBegin .execute v
    | .readSync p => .pollBegin (.readSync p) v
  | .pollBegin g t => if doneAt t v then .rdResult g t else .pollBegin g t
  | .rdResult g _ => g.finish (.completed v)
  | .loading _ r => .returned (.readByte r.status b)
  | .rdIdle => .returned (.idleFlag (v.getLsbD 0))
  | .pollIdle => if v.getLsbD 0 then .returned .flushed else .pollIdle
  | .returned r => .returned r

/-- One host step of a procedure: its access is the machine's next step, and what that returned resumes it. -/
def Proc.advance (p : Proc) (s : State) : Host.Outcome (Proc × State) Fault Refusal :=
  match p.input with
  | none => .next (p, s)
  | some i =>
    match step (s.setInputs (i :: s.inputs)) with
    | .next t => .next (p.resume t.readData t.loadData, t)
    | .fault f => .fault f
    | .refused r => .refused r

end Sys2Proof.Machine
end

