-- ==== Sys2Proof/Safety.lean ====
section
/-! DEFINITION. What claims call a good state: the invariants of R38 and the ones beside it, the fault-free run, and the
unchecked preconditions of R266 and R268. -/

namespace Sys2Proof.Machine

/-- No model fault has been recorded: a claim about the silicon takes this as a premise (R238, log entry 8). -/
abbrev State.faultFree (s : State) : Prop := s.faults = []

/-- R38, item 1. -/
abbrev State.countBounded (s : State) : Prop := s.count.toNat ≤ 16

/-- R38, item 2. -/
abbrev State.idleAgrees (s : State) : Prop := (s.idle = true ↔ s.count = 0) ∧ (s.idle = true ↔ s.phase = .idle)

/-- R38, item 3. -/
abbrev State.phaseHeld (s : State) : Prop := s.phase ≠ .stop

/-- R38, item 4: PHASE = ADDR. -/
abbrev State.addrCursor (s : State) : Prop :=
  s.phase = .addr → 1 ≤ s.curByte ∧ s.curByte ≤ headerLen s.cur.dir ∧ s.curByte ≤ s.cur.len

/-- R38, item 4: PHASE = RESTART. -/
abbrev State.restartCursor (s : State) : Prop := s.phase = .restart → s.cur.dir = .read ∧ s.curByte = 2

/-- R38, item 4: PHASE = WRITE_DATA. -/
abbrev State.writeCursor (s : State) : Prop :=
  s.phase = .writeData → s.cur.dir = .write ∧ 3 ≤ s.curByte ∧ s.curByte ≤ s.cur.len

/-- R38, item 4: PHASE = READ_DATA. -/
abbrev State.readCursor (s : State) : Prop :=
  s.phase = .readData → s.cur.dir = .read ∧ 3 ≤ s.curByte ∧ s.curByte < s.cur.len

/-- R38, item 5, for every occupied slot and so for `cur`. -/
abbrev State.queueLegal (s : State) : Prop :=
  ∀ i : BitVec 4, s.occupied i = true → minLen (s.slot i).dir ≤ (s.slot i).len.setWidth 32

/-- R38, item 6. -/
abbrev State.retriesBounded (s : State) : Prop := s.retries ≤ s.params.arbRetryMax

/-- The invariant of R38. -/
abbrev State.Inv (s : State) : Prop :=
  s.countBounded ∧ s.idleAgrees ∧ s.phaseHeld ∧ s.addrCursor ∧ s.restartCursor ∧ s.writeCursor ∧ s.readCursor ∧
    s.queueLegal ∧ s.retriesBounded

/-- Buffer memory is in canonical form. -/
abbrev State.memCanonical (s : State) : Prop := Memory.wf s.mem = true

/-- The operation the PHY owes is the one PHASE expects (R187), and a receive was requested with the acknowledge bit of the
byte being received (R135). -/
def State.owedExpected (s : State) : Bool :=
  match s.phase, s.owed with
  | .idle, none => true
  | .addr, some (.tx _) => true
  | .writeData, some (.tx _) => true
  | .restart, some .rstart => true
  | .readData, some (.rx a) => a == ackFor s.cur.len s.curByte
  | _, _ => false

/-- The event is one the PHY may raise now: it has performed every action emitted, and the event answers the operation
outstanding (R180, R182, R184 to R186). A step that delivers an event the PHY owes meets this first (`State.raising`). -/
abbrev State.phyMayRaise (s : State) (i : Instr) : Prop :=
  s.actions = [] ∧ ∃ op, s.phy.outstanding = some op ∧ op.answeredWith i = true

/-- The record of every pending transaction is `{NONE, 0}` (R36, R202). -/
abbrev State.pendingUnrecorded (s : State) : Prop :=
  ∀ i : BitVec 4, s.occupied i = true → s.result i = { code := .none, failIndex := 0 }

/-- `failIndex` is 0 for OK and NONE (R36). -/
abbrev State.failIndexClean (s : State) : Prop :=
  ∀ i : BitVec 4, ((s.result i).code = .none ∨ (s.result i).code = .ok) → (s.result i).failIndex = 0

/-- LAST_TICKET is the ticket before END_SEQ once a descriptor was accepted (R34, R35). -/
abbrev State.ticketAgrees (s : State) : Prop := s.enqStatus = .ok → s.lastTicket + 1 = s.endSeq

/-- The byte address is in the slot's buffer (R52, R266). -/
abbrev Slot.covers (d : Slot) (addr : Word) : Prop := (addr - d.ptr).toNat < d.len.toNat

/-- The byte belongs to the block: it is in the buffer of a pending transaction (R266). -/
abbrev State.ownsByte (s : State) (addr : Word) : Prop := ∃ i : BitVec 4, s.occupied i = true ∧ (s.slot i).covers addr

/-- The header bytes of the slot's buffer follow the source's layout (R137, R268). -/
def State.layoutOk (s : State) (d : Slot) : Bool :=
  let b0 := Memory.read s.mem d.ptr.toNat
  let b2 := Memory.read s.mem (d.ptr + 2).toNat
  match d.dir with
  | .write => !b0.getLsbD 0
  | .read => !b0.getLsbD 0 && b2.getLsbD 0 && b2.extractLsb' 1 7 == b0.extractLsb' 1 7

/-- The whole buffer of the slot is in MEM_MAP (R53, R266). -/
abbrev State.bufferMapped (s : State) (d : Slot) : Prop :=
  ∀ i : BitVec 16, i < d.len → mapped s.params.memMap (d.ptr + i.setWidth 32) = true

end Sys2Proof.Machine
end

