-- ==== Sys2Proof/Certificates/Slice0/Obligations.lean ====
section
/-! DEFINITION. The statements about the block, each from the rules of spec/ that its docstring names. -/

namespace Sys2Proof.Certificates

open Sys2Proof.Machine

/-! Shared words of the statements, written from the rules and not from the meanings. -/

/-- The operation is an event's (R76). -/
def isEvent : Instr → Bool
  | .evTxc _ | .evRxc _ | .evReq | .evArbl | .evTmo => true
  | _ => false

/-- The operation is an enqueue command (R74). -/
def isEnqueue : Instr → Bool
  | .enqWrite | .enqRead => true
  | _ => false

/-- The operation is an action the PHY performs (R78). -/
def isAction : Instr → Bool
  | .actStart | .actRstart | .actStop | .actTx _ | .actRx _ | .actRelease => true
  | _ => false

/-- The enqueue command of a direction (R106, R107). -/
def enqueueOf : Dir → Instr
  | .write => .enqWrite
  | .read => .enqRead

/-- The transaction that follows the one in flight (R133: the new head once BEGIN_SEQ has advanced). -/
def nextSlot (s : State) : Slot := s.slot (slotOf (s.beginSeq + 1))

/-- No transaction follows the one in flight (R133: COUNT is 0 after the retire). -/
abbrev lastPending (s : State) : Prop := s.endSeq = s.beginSeq + 1

/-- The retire of the transaction in flight finds nothing queued, or a first byte it may read (R53, R132, R133). -/
abbrev nextReadable (s : State) : Prop := lastPending s ∨ mapped s.params.memMap (nextSlot s).ptr = true

/-- The PHY has answered: nothing is outstanding (R186). -/
def answeredBy (s : State) : State := { s with phy := { s.phy with outstanding := none } }

/-- What a step that ends the transaction in flight leaves (R131 to R133): `bus` ends it on the bus, the result is recorded,
BEGIN_SEQ advances, and the block goes idle or starts the next transaction in the same step. -/
def afterRetire (s : State) (bus : Action) (code : ResultCode) (idx : BitVec 16) : State :=
  if s.endSeq = s.beginSeq + 1 then
    { s.setResult s.beginPos { code := code, failIndex := idx } with
      beginSeq := s.beginSeq + 1
      idle := true
      phase := .idle
      actions := s.actions ++ [bus] }
  else
    { s.setResult s.beginPos { code := code, failIndex := idx } with
      beginSeq := s.beginSeq + 1
      phase := .addr
      curByte := 1
      retries := 0
      actions := s.actions ++ [bus, .start, .tx (Memory.read s.mem (nextSlot s).ptr.toNat)] }

/-- The step of a retire whose next transaction has a first byte outside MEM_MAP: it is discarded and recorded (R53, R238). -/
def nextUnreadable (s : State) : State := { s with faults := s.faults ++ [.memFault (nextSlot s).ptr] }

/-- What an accepted enqueue writes whether the block is idle or not (R104). -/
def afterAccept (s : State) (dir : Dir) : State :=
  { (s.setSlot (slotOf s.endSeq) { ptr := s.descPtr, len := s.descLen.setWidth 16, dir := dir }).setResult (slotOf s.endSeq)
      { code := .none, failIndex := 0 } with
    lastTicket := s.endSeq
    endSeq := s.endSeq + 1
    enqStatus := .ok }

/-- A host store of `v` to `addr` and, right behind it, the step `i`: the step emits `emitted`, behind all that was performed or
emitted before (R58, R63). -/
def lateStoreSent (s : State) (addr : Word) (v : Byte) (i : Input) (emitted : List Action) : Prop :=
  ∀ rest : List Input, s.inputs = .store addr v :: i :: rest →
    ∃ t u, step s = .next t ∧ step t = .next u ∧ u.traffic ++ u.actions = s.traffic ++ s.actions ++ emitted

/-- The operation ends the transaction in flight (R159): the acknowledge of a write's last byte, a NACK, a read's last byte, an
arbitration lost with no retry left, or a timeout. -/
def endsTransaction (i : Instr) (s : State) : Prop :=
  (i = .evTxc .ack ∧ (s.phase = .addr ∨ s.phase = .writeData) ∧ s.cur.dir = .write ∧ s.curByte = s.cur.len) ∨
  (i = .evTxc .nack ∧ (s.phase = .addr ∨ s.phase = .writeData)) ∨
  ((∃ d, i = .evRxc d) ∧ s.phase = .readData ∧ s.curByte + 1 = s.cur.len) ∨
  (i = .evArbl ∧ s.phase ≠ .idle ∧ s.retries = s.params.arbRetryMax) ∨
  (i = .evTmo ∧ s.phase ≠ .idle)

/-- A sequence of operations, each on the state the one before it left. -/
def execAll : List Instr → State → Host.Outcome State Fault Refusal
  | [], s => .next s
  | i :: rest, s => match exec i s with
    | .next t => execAll rest t
    | .fault f => .fault f
    | .refused r => .refused r

/-- A procedure of the host, `n` of its accesses one after the other (R206). -/
def advances : Nat → Proc → State → Host.Outcome (Proc × State) Fault Refusal
  | 0, p, s => .next (p, s)
  | n + 1, p, s => match p.advance s with
    | .next (q, t) => advances n q t
    | .fault f => .fault f
    | .refused r => .refused r

end Sys2Proof.Certificates

open Sys2Proof Sys2Proof.Machine Sys2Proof.Certificates

/-! ## Encoding -/

/-- R71 to R78: the decoder reads back every well-formed operation from its word. -/
def Obligations.DecodeOfEncode : Prop := ∀ i : Instr, wellFormed i = true → decode (encode i) = .ok i

/-- R71 to R79: a word that decodes is the word of its operation, but that a host read may carry any WDATA, which decoders
ignore (R71); and what decodes is well-formed. -/
def Obligations.EncodeOfDecode : Prop :=
  (∀ (w : BitVec 41) (i : Instr), decode (.host w) = .ok i →
    wellFormed i = true ∧ encode i = .host (if hostWE w then w else hostWord false (hostOffset w) 0)) ∧
  (∀ (w : BitVec 12) (i : Instr), decode (.event w) = .ok i → wellFormed i = true ∧ encode i = .event w) ∧
  (∀ (w : BitVec 12) (i : Instr), decode (.action w) = .ok i → wellFormed i = true ∧ encode i = .action w)

/-- R81, R83: words written out from the encoding tables, one of each family. -/
def Obligations.EncodingTableWords : Prop :=
  decode (.host 0x10020000100) = .ok (.wrDescPtr 0x20000100) ∧ decode (.host 0x10800000002) = .ok .enqRead ∧
  decode (.host 0x10800000007) = .ok (.wrCmdReserved 7) ∧ decode (.host 0x07C00000000) = .ok (.rdResult 15) ∧
  decode (.event 0x300) = .ok (.evTxc .nack) ∧ decode (.event 0x45A) = .ok (.evRxc 0x5A) ∧
  decode (.action 0x8A1) = .ok (.actTx 0xA1) ∧ decode (.action 0xB00) = .ok (.actRx .nack)

/-- R72: the map's accesses are the ones that decode. `RESULT[s]` is at 0x40 + 4 s. -/
def Obligations.HostMapExactly : Prop :=
  ∀ w : BitVec 41, (∃ i, decode (.host w) = .ok i) ↔
    (hostOffset w = 0x00 ∨ hostOffset w = 0x04 ∨ (hostOffset w = 0x08 ∧ hostWE w = true) ∨
      (hostWE w = false ∧
        (hostOffset w = 0x0C ∨ hostOffset w = 0x10 ∨ hostOffset w = 0x14 ∨ hostOffset w = 0x18 ∨ hostOffset w = 0x1C ∨
          hostOffset w = 0x20 ∨ ∃ slot : BitVec 4, hostOffset w = 0x40 + 4 * slot.setWidth 8)))

/-! ## Steps -/

/-- R6, R130, R157: a word that decodes is run as its operation, on the state with that step taken off the schedule; a TMO
takes a watchdog (R156); the PHY performs the oldest emitted action (R180). An event that the PHY owes is handled where the PHY has
performed all that was emitted, what the event answers among it (R180, R182, R184, R185), and any other event where things stand. That the performing
stays when the handler faults is the model's choice: log entry 16. -/
def Obligations.StepRunsDecodedWord : Prop :=
  (∀ (s : State) (w : BitVec 41) (rest : List Input) (i : Instr), s.inputs = .host w :: rest → decode (.host w) = .ok i →
    step s = exec i { s with inputs := rest }) ∧
  (∀ (s : State) (w : BitVec 12) (rest : List Input) (i : Instr), s.inputs = .event w :: rest → decode (.event w) = .ok i →
    (i = .evTmo → s.params.watchdogPresent = true) → s.owes i = false → step s = exec i { s with inputs := rest }) ∧
  (∀ (s : State) (w : BitVec 12) (rest : List Input) (i : Instr), s.inputs = .event w :: rest → decode (.event w) = .ok i →
    s.owes i = true → step s = exec i { s with
      inputs := rest
      actions := []
      traffic := s.traffic ++ s.actions
      phy := { driving := s.actions.foldl (fun d a => a.drives d) s.phy.driving, outstanding := s.owed } }) ∧
  (∀ (s : State) (rest : List Input) (a : Action) (more : List Action), s.inputs = .perform :: rest → s.actions = a :: more →
    step s = exec a.toInstr { s with inputs := rest, actions := more })

/-- R57, R72: a 32-bit access that the map does not list, or at a misaligned offset, and an 8- or 16-bit access to the block,
is recorded as HOST_ACCESS and changes nothing else. That an access which begins in the block and runs past its end is one to the
block, as the third clause has it at the last offsets, is the model's choice: log entry 14. -/
def Obligations.IllegalHostAccessRecorded : Prop :=
  (∀ (s : State) (w : BitVec 41) (rest : List Input) (e : DecodeError), s.inputs = .host w :: rest →
    decode (.host w) = .error e →
    step s = .next { s with
      inputs := rest
      faults := s.faults ++ [.hostAccess (hostOffset w) (hostWE w) .word] }) ∧
  (∀ w : BitVec 41, (hostOffset w).toNat % 4 ≠ 0 → ∃ e, decode (.host w) = .error e) ∧
  (∀ (s : State) (a : BusAccess) (rest : List Input) (off : BitVec 8), s.inputs = .bus a :: rest →
    a.addr = 256 * s.params.blockPage + off.toNat → a.width ≠ .word →
    step s = .next { s with
      inputs := rest
      faults := s.faults ++ [.hostAccess off a.we a.width] })

/-- R57, R64, R71: a 32-bit access on the platform's bus to BLOCK_BASE + offset is the HOST access at that offset, and one whose
first byte is outside the block's 256 bytes does not reach the block. That the first byte decides, for an access that runs into
the block from below it too, is the model's choice: log entry 14. So is that an access outside the block changes nothing, memory
included: log entry 15. -/
def Obligations.BusAccessSelectsBlock : Prop :=
  (∀ (s : State) (a : BusAccess) (rest : List Input) (off : BitVec 8), s.inputs = .bus a :: rest →
    a.addr = 256 * s.params.blockPage + off.toNat → a.width = .word →
    step s = step { s with inputs := .host (hostWord a.we off a.wdata) :: rest }) ∧
  (∀ (s : State) (a : BusAccess) (rest : List Input), s.inputs = .bus a :: rest →
    (a.addr < 256 * s.params.blockPage ∨ 256 * s.params.blockPage + 256 ≤ a.addr) →
    step s = .next { s with inputs := rest })

/-- R79: an EVENT word is illegal exactly where its KIND is 0, 6 or 7 or an unused field is nonzero, and the step then records
it as ILLEGAL_EVENT and changes nothing else. -/
def Obligations.IllegalEventRecorded : Prop :=
  (∀ w : BitVec 12, (∃ e, decode (.event w) = .error e) ↔
    (wordKind w = 0 ∨ wordKind w = 6 ∨ wordKind w = 7 ∨ (wordKind w ≠ 2 ∧ wordData w ≠ 0) ∨
      (wordKind w ≠ 1 ∧ wordAckB w ≠ 0))) ∧
  (∀ (s : State) (w : BitVec 12) (rest : List Input) (e : DecodeError), s.inputs = .event w :: rest →
    decode (.event w) = .error e →
    step s = .next { s with inputs := rest, faults := s.faults ++ [.illegalEvent w] })

/-- R58: the host's own byte accesses. A load after a store to the same byte returns the byte stored, a store leaves every other
byte as it was, and neither touches the block. -/
def Obligations.HostMemoryAccess : Prop :=
  (∀ (s : State) (addr : Word) (v : Byte) (rest : List Input), s.memCanonical → s.inputs = .store addr v :: .load addr :: rest →
    ∃ t u, step s = .next t ∧ step t = .next u ∧ u.loadData = v) ∧
  (∀ (s : State) (addr : Word) (v : Byte) (rest : List Input), s.inputs = .store addr v :: rest →
    ∃ t, step s = .next t ∧ t = { s with inputs := rest, mem := t.mem } ∧
      ∀ a : Word, a ≠ addr → Memory.read t.mem a.toNat = Memory.read s.mem a.toNat) ∧
  (∀ (s : State) (addr : Word) (rest : List Input), s.inputs = .load addr :: rest →
    step s = .next { s with inputs := rest, loadData := Memory.read s.mem addr.toNat })

/-- R63: a host store to a transmit byte before the step that sends it is the byte the bus gets, and one after it changes nothing
emitted. The steps that send a byte are those of R138, R139 and R145, and of R132 for byte 0: by an enqueue from idle, by each
event that ends a transaction with another one queued, and by a retry. The last received byte is stored before the next
transaction's byte 0 is read (R58), so that byte is taken elsewhere. -/
def Obligations.TransmitByteReadLate : Prop :=
  (∀ (s : State) (v : Byte), s.memCanonical → s.phase = .addr ∨ s.phase = .writeData → s.cur.dir = .write →
    s.curByte < s.cur.len → mapped s.params.memMap (s.baddr s.curByte) = true →
    lateStoreSent s (s.baddr s.curByte) v (.event 0x200) [.tx v]) ∧
  (∀ (s : State) (v : Byte), s.memCanonical → s.phase = .addr → s.cur.dir = .read → s.curByte = 1 →
    mapped s.params.memMap (s.cur.ptr + 1) = true →
    lateStoreSent s (s.cur.ptr + 1) v (.event 0x200) [.tx v]) ∧
  (∀ (s : State) (v : Byte), s.memCanonical → s.phase = .restart → mapped s.params.memMap (s.cur.ptr + 2) = true →
    lateStoreSent s (s.cur.ptr + 2) v (.event 0x600) [.tx v]) ∧
  (∀ (s : State) (dir : Dir) (v : Byte), s.memCanonical → legalLen dir s.descLen = true → s.idle = true →
    s.endSeq = s.beginSeq → mapped s.params.memMap s.descPtr = true →
    lateStoreSent s s.descPtr v (.host (hostWord true 0x08 (match dir with | .write => 1 | .read => 2))) [.start, .tx v]) ∧
  (∀ (s : State) (v : Byte), s.memCanonical → ¬ lastPending s → mapped s.params.memMap (nextSlot s).ptr = true →
    (s.phase = .addr ∨ s.phase = .writeData → s.cur.dir = .write → s.cur.len ≤ s.curByte →
      lateStoreSent s (nextSlot s).ptr v (.event 0x200) [.stop, .start, .tx v]) ∧
    (s.phase = .addr ∨ s.phase = .writeData → lateStoreSent s (nextSlot s).ptr v (.event 0x300) [.stop, .start, .tx v]) ∧
    (∀ d : Byte, s.phase = .readData → s.curByte + 1 = s.cur.len → mapped s.params.memMap (s.baddr s.curByte) = true →
      (nextSlot s).ptr ≠ s.baddr s.curByte →
      lateStoreSent s (nextSlot s).ptr v (.event (portWord 2 0 d)) [.stop, .start, .tx v]) ∧
    (s.phase ≠ .idle → s.retries = s.params.arbRetryMax →
      lateStoreSent s (nextSlot s).ptr v (.event 0x800) [.release, .start, .tx v]) ∧
    (s.phase ≠ .idle → s.params.watchdogPresent = true →
      lateStoreSent s (nextSlot s).ptr v (.event 0xA00) [.stop, .start, .tx v])) ∧
  (∀ (s : State) (v : Byte), s.memCanonical → s.phase ≠ .idle → s.retries < s.params.arbRetryMax →
    mapped s.params.memMap s.cur.ptr = true →
    lateStoreSent s s.cur.ptr v (.event 0x800) [.release, .start, .tx v]) ∧
  (∀ (s : State) (addr : Word) (v : Byte) (rest : List Input), s.inputs = .store addr v :: rest →
    ∃ t, step s = .next t ∧ t.actions = s.actions ∧ t.traffic = s.traffic)

/-- R8, R238: no operation stops the machine. -/
def Obligations.EveryInstructionAnswers : Prop := ∀ (i : Instr) (s : State), ∃ t, exec i s = .next t

/-- R6, R156: a step answers a next state unless it is a TMO on a platform with no watchdog, where the model refuses it. -/
def Obligations.StepStopsOnlyWithoutWatchdog : Prop :=
  ∀ s : State, (∃ t, step s = .next t) ∨
    (∃ rest, s.inputs = .event 0xA00 :: rest ∧ s.params.watchdogPresent = false ∧ step s = .refused .watchdogAbsent)

/-- R238: a step of an operation either leaves the fault record alone, or appends one entry to it and changes nothing else. -/
def Obligations.FaultDiscardsStep : Prop :=
  ∀ (i : Instr) (s t : State), exec i s = .next t →
    t.faults = s.faults ∨ ∃ f, t = { s with faults := s.faults ++ [f] }

/-! ## Reset -/

/-- R260: the values reset gives. -/
def Obligations.ResetValues : Prop :=
  State.reset.idle = true ∧ State.reset.phase = .idle ∧ State.reset.beginSeq = 0 ∧ State.reset.endSeq = 0 ∧
  State.reset.count = 0 ∧ State.reset.full = false ∧ State.reset.curByte = 0 ∧ State.reset.retries = 0 ∧
  State.reset.descPtr = 0 ∧ State.reset.descLen = 0 ∧ State.reset.enqStatus = .none ∧ State.reset.lastTicket = 0 ∧
  (∀ i : BitVec 4, State.reset.result i = { code := .none, failIndex := 0 }) ∧ State.reset.statusWord = 0x00000001 ∧
  State.reset.faults = [] ∧ State.reset.actions = []

/-- R38 at reset, and the other invariants of the model there. -/
def Obligations.InvariantsAtReset : Prop :=
  State.reset.Inv ∧ State.reset.memCanonical ∧ State.reset.owedExpected = true ∧ State.reset.pendingUnrecorded ∧
  State.reset.failIndexClean ∧ State.reset.ticketAgrees

/-- R264: DESC_LEN is 0 after reset, no operation but WR_DESC_LEN changes it, and while it is 0 an enqueue is rejected with
BAD_LENGTH and starts nothing, whatever else has happened since reset. -/
def Obligations.EnqueueAfterResetRejected : Prop :=
  State.reset.descLen = 0 ∧
  (∀ (i : Instr) (s t : State), (∀ v, i ≠ .wrDescLen v) → exec i s = .next t → t.descLen = s.descLen) ∧
  (∀ (s : State) (dir : Dir), s.descLen = 0 → exec (enqueueOf dir) s = .next { s with enqStatus := .badLength })

/-! ## Invariants every step keeps -/

/-- R38: the six items, from every state that meets them. -/
def Obligations.StepKeepsInv : Prop := ∀ s t : State, s.Inv → step s = .next t → t.Inv

/-- Buffer memory keeps its canonical form. -/
def Obligations.StepKeepsMemoryCanonical : Prop := ∀ s t : State, s.memCanonical → step s = .next t → t.memCanonical

/-- R186, R187, R135: what the PHY owes is what PHASE expects. -/
def Obligations.StepKeepsOwedExpected : Prop :=
  ∀ s t : State, s.Inv → s.owedExpected = true → step s = .next t → t.owedExpected = true

/-- R36, R202: the record of a pending transaction is `{NONE, 0}`, and an OK or NONE record has failIndex 0. -/
def Obligations.StepKeepsResultRecords : Prop :=
  ∀ s t : State, s.Inv → s.pendingUnrecorded → s.failIndexClean → step s = .next t → t.pendingUnrecorded ∧ t.failIndexClean

/-- R34, R35: while ENQ_STATUS is OK, LAST_TICKET is the ticket before END_SEQ. -/
def Obligations.StepKeepsTicketAgreement : Prop := ∀ s t : State, s.ticketAgrees → step s = .next t → t.ticketAgrees

/-! ## Host registers -/

/-- R109, R110: the staging registers, written and read as they are. -/
def Obligations.StagingRegisters : Prop :=
  (∀ v : Word, decode (.host (hostWord true 0x00 v)) = .ok (.wrDescPtr v) ∧
    decode (.host (hostWord false 0x00 v)) = .ok .rdDescPtr ∧ decode (.host (hostWord true 0x04 v)) = .ok (.wrDescLen v) ∧
    decode (.host (hostWord false 0x04 v)) = .ok .rdDescLen) ∧
  (∀ (s : State) (v : Word), exec (.wrDescPtr v) s = .next { s with descPtr := v }) ∧
  (∀ s : State, exec .rdDescPtr s = .next { s with readData := s.descPtr }) ∧
  (∀ (s : State) (v : Word), exec (.wrDescLen v) s = .next { s with descLen := v }) ∧
  (∀ s : State, exec .rdDescLen s = .next { s with readData := s.descLen }) ∧
  (∀ (s : State) (v : Word), ∃ t, execAll [.wrDescPtr v, .rdDescPtr] s = .next t ∧ t.readData = v) ∧
  (∀ (s : State) (v : Word), ∃ t, execAll [.wrDescLen v, .rdDescLen] s = .next t ∧ t.readData = v)

/-- R111, R112, R114: a counter or ticket read returns the register and changes nothing else. -/
def Obligations.CounterReads : Prop :=
  ∀ s : State, exec .rdBeginSeq s = .next { s with readData := s.beginSeq } ∧
    exec .rdEndSeq s = .next { s with readData := s.endSeq } ∧
    exec .rdLastTicket s = .next { s with readData := s.lastTicket }

/-- R31, R34, R36, R113, R201, R202: the three reads that place a narrower register in a word with its reserved bits 0. -/
def Obligations.NarrowRegisterReads : Prop :=
  (∀ s : State, ∃ w : Word, exec .rdCurByte s = .next { s with readData := w } ∧ w.extractLsb' 0 16 = s.curByte ∧
    w.extractLsb' 16 16 = 0) ∧
  (∀ s : State, ∃ w : Word, exec .rdEnqStatus s = .next { s with readData := w } ∧ w.extractLsb' 0 3 = s.enqStatus.code ∧
    w.extractLsb' 3 29 = 0) ∧
  (∀ (s : State) (slot : BitVec 4), ∃ w : Word, exec (.rdResult slot) s = .next { s with readData := w } ∧
    w.extractLsb' 0 3 = (s.result slot).code.code ∧ w.extractLsb' 3 13 = 0 ∧
    w.extractLsb' 16 16 = (s.result slot).failIndex)

/-- R37, R200: the fields of the word that `rd STATUS` returns. -/
def Obligations.StatusRead : Prop :=
  ∀ s : State, ∃ w : Word, exec .rdStatus s = .next { s with readData := w } ∧
    w.extractLsb' 0 1 = (if s.idle then 1 else 0) ∧ w.extractLsb' 1 1 = (if s.endSeq - s.beginSeq = 16 then 1 else 0) ∧
    w.extractLsb' 2 5 = (s.endSeq - s.beginSeq).extractLsb' 0 5 ∧ w.extractLsb' 7 1 = 0 ∧ w.extractLsb' 8 3 = s.phase.code ∧
    w.extractLsb' 11 1 = (if s.idle then 0 else if s.cur.dir = .read then 1 else 0) ∧ w.extractLsb' 12 4 = s.retries ∧
    w.extractLsb' 16 16 = 0

/-- R30, R37, R200: in a state that meets R38, the word shows IDLE only with COUNT = 0 and PHASE = IDLE, FULL only with
COUNT = 16, and no reserved or transient PHASE. -/
def Obligations.StatusSnapshotConsistent : Prop :=
  ∀ s t : State, s.Inv → exec .rdStatus s = .next t →
    (t.readData.extractLsb' 0 1 = 1 ↔ t.readData.extractLsb' 2 5 = 0) ∧
    (t.readData.extractLsb' 0 1 = 1 ↔ t.readData.extractLsb' 8 3 = 0) ∧
    (t.readData.extractLsb' 1 1 = 1 ↔ t.readData.extractLsb' 2 5 = 16) ∧
    t.readData.extractLsb' 8 3 ≠ 4 ∧ t.readData.extractLsb' 8 3 ≠ 6 ∧ t.readData.extractLsb' 8 3 ≠ 7

/-! ## The queue -/

/-- R102: the legal lengths. -/
def Obligations.LegalLengths : Prop :=
  ∀ (dir : Dir) (len : Word), legalLen dir len = true ↔
    len.toNat ≤ 0xFFFF ∧ ((dir = .write ∧ 1 ≤ len.toNat) ∨ (dir = .read ∧ 4 ≤ len.toNat))

/-- R108: any value but 1 and 2 written to CMD is the reserved command, which is rejected as BAD_COMMAND, whatever is staged or
queued, and changes nothing else. -/
def Obligations.ReservedCommandRejected : Prop :=
  (∀ v : Word, v ≠ 1 → v ≠ 2 → decode (.host (hostWord true 0x08 v)) = .ok (.wrCmdReserved v)) ∧
  (∀ (s : State) (v : Word), exec (.wrCmdReserved v) s = .next { s with enqStatus := .badCommand })

/-- R104 to R107: the enqueue commands. A length that is not legal is rejected first and a full queue second, each changing
ENQ_STATUS alone. An accepted enqueue while a transaction is in flight starts nothing; one from idle, where COUNT is 0, starts its
transaction in the same step; and a first byte outside MEM_MAP then discards the whole step. -/
def Obligations.EnqueueCommands : Prop :=
  (∀ dir : Dir, decode (.host (hostWord true 0x08 (match dir with | .write => 1 | .read => 2))) = .ok (enqueueOf dir)) ∧
  (∀ (s : State) (dir : Dir), legalLen dir s.descLen = false →
    exec (enqueueOf dir) s = .next { s with enqStatus := .badLength }) ∧
  (∀ (s : State) (dir : Dir), legalLen dir s.descLen = true → s.endSeq - s.beginSeq = 16 →
    exec (enqueueOf dir) s = .next { s with enqStatus := .queueFull }) ∧
  (∀ (s : State) (dir : Dir), legalLen dir s.descLen = true → s.endSeq - s.beginSeq ≠ 16 → s.idle = false →
    exec (enqueueOf dir) s = .next (afterAccept s dir)) ∧
  (∀ (s : State) (dir : Dir), legalLen dir s.descLen = true → s.idle = true → s.endSeq = s.beginSeq →
    mapped s.params.memMap s.descPtr = true →
    exec (enqueueOf dir) s = .next { afterAccept s dir with
      idle := false
      phase := .addr
      curByte := 1
      retries := 0
      actions := s.actions ++ [.start, .tx (Memory.read s.mem s.descPtr.toNat)] }) ∧
  (∀ (s : State) (dir : Dir), legalLen dir s.descLen = true → s.idle = true → s.endSeq = s.beginSeq →
    mapped s.params.memMap s.descPtr = false →
    exec (enqueueOf dir) s = .next { s with faults := s.faults ++ [.memFault s.descPtr] })

/-- What an enqueue command leaves unchanged: everything but ENQ_STATUS, LAST_TICKET, END_SEQ, the slot and record at endPos,
and, from idle, IDLE, PHASE, CUR_BYTE, RETRIES and the emitted actions. -/
def Obligations.EnqueueFrame : Prop :=
  ∀ (s t : State) (dir : Dir), exec (enqueueOf dir) s = .next t →
    t.descPtr = s.descPtr ∧ t.descLen = s.descLen ∧ t.beginSeq = s.beginSeq ∧ t.phy = s.phy ∧ t.traffic = s.traffic ∧
    t.readData = s.readData ∧ t.loadData = s.loadData ∧ t.inputs = s.inputs ∧ t.params = s.params ∧
    (∀ i : BitVec 4, i ≠ slotOf s.endSeq → t.slot i = s.slot i ∧ t.result i = s.result i) ∧
    (s.idle = false → t.idle = s.idle ∧ t.phase = s.phase ∧ t.curByte = s.curByte ∧ t.retries = s.retries ∧
      t.actions = s.actions) ∧
    (∀ a : Nat, Memory.read t.mem a = Memory.read s.mem a)

/-- R25, R115: no operation changes the slot of a pending transaction. -/
def Obligations.PendingSlotsImmutable : Prop :=
  ∀ (i : Instr) (s t : State), s.Inv → exec i s = .next t → ∀ k : BitVec 4, s.occupied k = true → t.slot k = s.slot k

/-- R26, R27: the sequence counters advance by 1, BEGIN_SEQ only in an event's step and END_SEQ only when an enqueue is
accepted. -/
def Obligations.SequenceCountersAdvance : Prop :=
  ∀ (i : Instr) (s t : State), exec i s = .next t →
    (t.beginSeq = s.beginSeq ∨ (isEvent i = true ∧ t.beginSeq = s.beginSeq + 1)) ∧
    (t.endSeq = s.endSeq ∨ (isEnqueue i = true ∧ t.endSeq = s.endSeq + 1 ∧ t.enqStatus = .ok ∧ t.lastTicket = s.endSeq))

/-- R203, R205: `done(t)` is false for a pending ticket, and true for one retired up to 2^32 - 16 retirements ago. -/
def Obligations.DoneExactly : Prop :=
  (∀ (s : State) (t : Word), s.Inv → (t - s.beginSeq).toNat < s.count.toNat → doneAt t s.beginSeq = false) ∧
  (∀ (b : Word) (n : Nat), 1 ≤ n → n ≤ 2 ^ 32 - 16 → doneAt (b - BitVec.ofNat 32 n) b = true)

/-! ## Transmit complete -/

/-- R138, R133: an acknowledged byte of a write sends the next one; after the last one the transaction ends with OK. A read of the
buffer, or of the next transaction's first byte, outside MEM_MAP discards the whole step. -/
def Obligations.WriteAckSendsOrRetires : Prop :=
  (∀ s : State, s.phase = .addr ∨ s.phase = .writeData → s.cur.dir = .write → s.curByte < s.cur.len →
    mapped s.params.memMap (s.baddr s.curByte) = true →
    exec (.evTxc .ack) s = .next { answeredBy s with
      curByte := s.curByte + 1
      phase := if s.curByte < 2 then .addr else .writeData
      actions := s.actions ++ [.tx (Memory.read s.mem (s.baddr s.curByte).toNat)] }) ∧
  (∀ s : State, s.phase = .addr ∨ s.phase = .writeData → s.cur.dir = .write → s.curByte < s.cur.len →
    mapped s.params.memMap (s.baddr s.curByte) = false →
    exec (.evTxc .ack) s = .next { s with faults := s.faults ++ [.memFault (s.baddr s.curByte)] }) ∧
  (∀ s : State, s.phase = .addr ∨ s.phase = .writeData → s.cur.dir = .write → s.cur.len ≤ s.curByte → nextReadable s →
    exec (.evTxc .ack) s = .next (afterRetire (answeredBy s) .stop .ok 0)) ∧
  (∀ s : State, s.phase = .addr ∨ s.phase = .writeData → s.cur.dir = .write → s.cur.len ≤ s.curByte → ¬ nextReadable s →
    exec (.evTxc .ack) s = .next (nextUnreadable s))

/-- R143, R133: a NACK of any transmitted byte, in either direction, fails the transaction with the index of that byte. -/
def Obligations.NackFailsTransaction : Prop :=
  (∀ s : State, s.phase = .addr ∨ s.phase = .writeData → nextReadable s →
    exec (.evTxc .nack) s = .next (afterRetire (answeredBy s) .stop .noack (s.curByte - 1))) ∧
  (∀ s : State, s.phase = .addr ∨ s.phase = .writeData → ¬ nextReadable s →
    exec (.evTxc .nack) s = .next (nextUnreadable s))

/-- R139: the acknowledged address byte of a read sends the register byte. -/
def Obligations.ReadAddressAckSendsRegister : Prop :=
  (∀ s : State, s.phase = .addr → s.cur.dir = .read → s.curByte = 1 → mapped s.params.memMap (s.cur.ptr + 1) = true →
    exec (.evTxc .ack) s = .next { answeredBy s with
      curByte := 2
      actions := s.actions ++ [.tx (Memory.read s.mem (s.cur.ptr + 1).toNat)] }) ∧
  (∀ s : State, s.phase = .addr → s.cur.dir = .read → s.curByte = 1 → mapped s.params.memMap (s.cur.ptr + 1) = false →
    exec (.evTxc .ack) s = .next { s with faults := s.faults ++ [.memFault (s.cur.ptr + 1)] })

/-- R140: the acknowledged register byte of a read asks for a repeated start. -/
def Obligations.ReadRegisterAckRestarts : Prop :=
  ∀ s : State, s.phase = .addr → s.cur.dir = .read → s.curByte = 2 →
    exec (.evTxc .ack) s = .next { answeredBy s with phase := .restart, actions := s.actions ++ [.rstart] }

/-- R142, R135: the acknowledged re-address byte of a read asks for byte 3, to be NACKed when it is the only one. -/
def Obligations.ReadReaddressAckReceives : Prop :=
  ∀ s : State, s.phase = .addr → s.cur.dir = .read → s.curByte = 3 →
    exec (.evTxc .ack) s = .next { answeredBy s with
      phase := .readData
      actions := s.actions ++ [.rx (if 4 < s.cur.len then .ack else .nack)] }

/-! ## Request -/

/-- R145: the PHY's request after the repeated start sends the re-address byte. -/
def Obligations.RequestSendsReaddress : Prop :=
  (∀ s : State, s.phase = .restart → mapped s.params.memMap (s.cur.ptr + 2) = true →
    exec .evReq s = .next { answeredBy s with
      curByte := 3
      phase := .addr
      actions := s.actions ++ [.tx (Memory.read s.mem (s.cur.ptr + 2).toNat)] }) ∧
  (∀ s : State, s.phase = .restart → mapped s.params.memMap (s.cur.ptr + 2) = false →
    exec .evReq s = .next { s with faults := s.faults ++ [.memFault (s.cur.ptr + 2)] })

/-! ## Receive complete -/

/-- R147, R135: a received byte with more to come is stored, and the next one is asked for. -/
def Obligations.ReceiveStoresAndAsksForMore : Prop :=
  (∀ (s : State) (d : Byte), s.phase = .readData → s.curByte + 1 < s.cur.len →
    mapped s.params.memMap (s.baddr s.curByte) = true →
    exec (.evRxc d) s = .next { answeredBy s with
      mem := Memory.write s.mem (s.baddr s.curByte).toNat d
      curByte := s.curByte + 1
      actions := s.actions ++ [.rx (if s.curByte + 2 < s.cur.len then .ack else .nack)] }) ∧
  (∀ (s : State) (d : Byte), s.phase = .readData → s.curByte + 1 < s.cur.len →
    mapped s.params.memMap (s.baddr s.curByte) = false →
    exec (.evRxc d) s = .next { s with faults := s.faults ++ [.memFault (s.baddr s.curByte)] })

/-- R148, R133: the last received byte is stored and the transaction ends with OK. -/
def Obligations.ReceiveOfLastByteRetires : Prop :=
  (∀ (s : State) (d : Byte), s.phase = .readData → s.curByte + 1 = s.cur.len →
    mapped s.params.memMap (s.baddr s.curByte) = true → nextReadable s →
    exec (.evRxc d) s = .next (afterRetire
      { answeredBy s with
        mem := Memory.write s.mem (s.baddr s.curByte).toNat d
        curByte := s.curByte + 1 } .stop .ok 0)) ∧
  (∀ (s : State) (d : Byte), s.phase = .readData → s.curByte + 1 = s.cur.len →
    mapped s.params.memMap (s.baddr s.curByte) = false →
    exec (.evRxc d) s = .next { s with faults := s.faults ++ [.memFault (s.baddr s.curByte)] }) ∧
  (∀ (s : State) (d : Byte), s.phase = .readData → s.curByte + 1 = s.cur.len →
    mapped s.params.memMap (s.baddr s.curByte) = true → ¬ nextReadable s →
    exec (.evRxc d) s = .next (nextUnreadable s))

/-- R51, R137: the bytes a received byte's step may change in memory are the one it is stored to, and that one then reads as
the byte received; no other operation changes memory. -/
def Obligations.MemoryFrame : Prop :=
  (∀ (i : Instr) (s t : State), (∀ d, i ≠ .evRxc d) → exec i s = .next t →
    ∀ a : Nat, Memory.read t.mem a = Memory.read s.mem a) ∧
  (∀ (d : Byte) (s t : State), exec (.evRxc d) s = .next t →
    ∀ a : Nat, a ≠ (s.baddr s.curByte).toNat → Memory.read t.mem a = Memory.read s.mem a) ∧
  (∀ (d : Byte) (s t : State), s.memCanonical → s.phase = .readData → exec (.evRxc d) s = .next t → t.faults = s.faults →
    Memory.read t.mem (s.baddr s.curByte).toNat = d)

/-- R38, R51, R52, R266: a byte that an operation changes in memory is the byte at index CUR_BYTE of the transaction in flight: it
lies in that transaction's buffer, past its header, and the transaction is pending, so the block owns it. -/
def Obligations.StoresOnlyToOwnedBytes : Prop :=
  ∀ (i : Instr) (s t : State) (a : Word), s.Inv → exec i s = .next t →
    Memory.read t.mem a.toNat ≠ Memory.read s.mem a.toNat →
    a = s.baddr s.curByte ∧ s.cur.covers a ∧ 3 ≤ (a - s.cur.ptr).toNat ∧ s.occupied s.beginPos = true ∧ s.ownsByte a

/-! ## Arbitration loss and timeout -/

/-- R151: a lost arbitration with a retry left restarts the transaction from byte 0. -/
def Obligations.ArbitrationLossRetries : Prop :=
  (∀ s : State, s.phase ≠ .idle → s.retries < s.params.arbRetryMax → mapped s.params.memMap s.cur.ptr = true →
    exec .evArbl s = .next { answeredBy s with
      retries := s.retries + 1
      curByte := 1
      phase := .addr
      actions := s.actions ++ [.release, .start, .tx (Memory.read s.mem s.cur.ptr.toNat)] }) ∧
  (∀ s : State, s.phase ≠ .idle → s.retries < s.params.arbRetryMax → mapped s.params.memMap s.cur.ptr = false →
    exec .evArbl s = .next { s with faults := s.faults ++ [.memFault s.cur.ptr] })

/-- R141: the index that a failed transaction reports. -/
def Obligations.FailIndexByPhase : Prop :=
  ∀ s : State, (s.phase = .addr ∨ s.phase = .writeData → s.inProgress = s.curByte - 1) ∧
    (s.phase = .restart → s.inProgress = 2) ∧ (s.phase = .readData → s.inProgress = s.curByte)

/-- R152, R133: a lost arbitration with no retry left fails the transaction and releases the bus. -/
def Obligations.ArbitrationLossFails : Prop :=
  (∀ s : State, s.phase ≠ .idle → s.retries = s.params.arbRetryMax → nextReadable s →
    exec .evArbl s = .next (afterRetire (answeredBy s) .release .arbLost s.inProgress)) ∧
  (∀ s : State, s.phase ≠ .idle → s.retries = s.params.arbRetryMax → ¬ nextReadable s →
    exec .evArbl s = .next (nextUnreadable s))

/-- R154, R155, R133: a timeout stops and fails the transaction in flight, and has no effect when there is none. -/
def Obligations.TimeoutStopsTransaction : Prop :=
  (∀ s : State, s.phase ≠ .idle → nextReadable s → exec .evTmo s = .next (afterRetire s .stop .timeout s.inProgress)) ∧
  (∀ s : State, s.phase ≠ .idle → ¬ nextReadable s → exec .evTmo s = .next (nextUnreadable s)) ∧
  (∀ s : State, s.phase = .idle → exec .evTmo s = .next s)

/-! ## Every event -/

/-- R136, R144, R146, R149, R153: an event that PHASE does not expect is recorded as SPURIOUS_EVENT and changes nothing else. -/
def Obligations.SpuriousEventRecorded : Prop :=
  ∀ s : State,
    (∀ a : Ack, s.phase ≠ .addr → s.phase ≠ .writeData →
      exec (.evTxc a) s = .next { s with faults := s.faults ++ [.spuriousEvent (portWord 1 a.bit 0) s.phase] }) ∧
    (s.phase ≠ .restart → exec .evReq s = .next { s with faults := s.faults ++ [.spuriousEvent 0x600 s.phase] }) ∧
    (∀ d : Byte, s.phase ≠ .readData →
      exec (.evRxc d) s = .next { s with faults := s.faults ++ [.spuriousEvent (portWord 2 0 d) s.phase] }) ∧
    (s.phase = .idle → exec .evArbl s = .next { s with faults := s.faults ++ [.spuriousEvent 0x800 .idle] })

/-- R186, R187: in a state that meets R38 and where the PHY owes what PHASE expects, an event that the PHY owes is never
spurious: it has its effect, or a memory access of it is outside MEM_MAP. Such an event is raised where the PHY has performed what
it answers (R182, R184, R185). -/
def Obligations.OwedAnswerNeverSpurious : Prop :=
  (∀ (i : Instr) (s : State), s.Inv → s.owedExpected = true → s.owes i = true →
    ∃ t, exec i s = .next t ∧ (t.faults = s.faults ∨ ∃ addr, mapped s.params.memMap addr = false ∧
      t = { s with faults := s.faults ++ [.memFault addr] })) ∧
  (∀ (i : Instr) (s : State), s.owes i = true → (s.raising i).phyMayRaise i)

/-- What an event leaves unchanged: the staging registers, the slots, END_SEQ, ENQ_STATUS, LAST_TICKET, every record but the one
of the transaction in flight, what the host last read, the bus traffic, the schedule and the parameters (R22, R206, R245). -/
def Obligations.EventFrame : Prop :=
  ∀ (i : Instr) (s t : State), isEvent i = true → exec i s = .next t →
    t.descPtr = s.descPtr ∧ t.descLen = s.descLen ∧ t.slots = s.slots ∧ t.endSeq = s.endSeq ∧ t.enqStatus = s.enqStatus ∧
    t.lastTicket = s.lastTicket ∧ (∀ k : BitVec 4, k ≠ s.beginPos → t.result k = s.result k) ∧ t.readData = s.readData ∧
    t.loadData = s.loadData ∧ t.traffic = s.traffic ∧ t.phy.driving = s.phy.driving ∧ t.inputs = s.inputs ∧
    t.params = s.params

/-- R206, R245: what an event does to the sequencer does not depend on the staging registers, on ENQ_STATUS, on LAST_TICKET or on
what the host last read. -/
def Obligations.EventsIgnoreStaging : Prop :=
  ∀ (i : Instr) (s t : State) (p l k r : Word) (e : EnqStatus), isEvent i = true → exec i s = .next t →
    exec i { s with descPtr := p, descLen := l, lastTicket := k, readData := r, enqStatus := e } =
      .next { t with descPtr := p, descLen := l, lastTicket := k, readData := r, enqStatus := e }

/-- R180: a host or event operation appends at most three actions, and an action's appends none. -/
def Obligations.AtMostThreeActions : Prop :=
  ∀ (i : Instr) (s t : State), exec i s = .next t →
    ∃ l : List Action, t.actions = s.actions ++ l ∧ l.length ≤ 3 ∧ (isAction i = true → l = [])

/-- R133, R241: an event after which the transaction in flight has retired leaves the block idle or with the next transaction
started, and recovers whatever the outcome. -/
def Obligations.RetireRecovers : Prop :=
  ∀ (i : Instr) (s t : State), isEvent i = true → exec i s = .next t → t.beginSeq = s.beginSeq + 1 →
    (t.result s.beginPos).code ≠ .none ∧
    ((t.endSeq = t.beginSeq ∧ t.idle = true ∧ t.phase = .idle) ∨
      (t.endSeq ≠ t.beginSeq ∧ t.idle = s.idle ∧ t.phase = .addr ∧ t.curByte = 1 ∧ t.retries = 0))

/-! ## The PHY -/

/-- R181 to R185, R189: what the PHY's performing of each action leaves: who drives the bus, what is outstanding, and the bus
traffic. Nothing else changes. -/
def Obligations.ActionsPerformed : Prop :=
  ∀ s : State,
    exec .actStart s = .next { s with phy := { s.phy with driving := true }, traffic := s.traffic ++ [.start] } ∧
    exec .actRstart s = .next { s with phy := { s.phy with outstanding := some .rstart }, traffic := s.traffic ++ [.rstart] } ∧
    exec .actStop s = .next { s with phy := { driving := false, outstanding := none }, traffic := s.traffic ++ [.stop] } ∧
    (∀ b : Byte, exec (.actTx b) s =
      .next { s with phy := { s.phy with outstanding := some (.tx b) }, traffic := s.traffic ++ [.tx b] }) ∧
    (∀ a : Ack, exec (.actRx a) s =
      .next { s with phy := { s.phy with outstanding := some (.rx a) }, traffic := s.traffic ++ [.rx a] }) ∧
    exec .actRelease s = .next { s with phy := { driving := false, outstanding := none }, traffic := s.traffic ++ [.release] }

/-- R180, R182, R184, R185: the PHY performs the emitted actions in their order, and performing them does not change what it owes
(R186). An answer that it owes comes after them: the step that raises it leaves every action emitted before in the traffic, and
only what the operation emits still to perform. That this holds of a step that ends in a model fault too is the model's choice: log
entry 16. -/
def Obligations.ActionsPerformedInOrder : Prop :=
  (∀ (s : State) (rest : List Input), s.inputs = List.replicate s.actions.length .perform ++ rest →
    ∃ t, Host.Core.run core s.actions.length s = .next t ∧ t.traffic = s.traffic ++ s.actions ∧ t.actions = [] ∧
      t.inputs = rest ∧ t.phy.outstanding = s.owed) ∧
  (∀ (s : State) (w : BitVec 12) (rest : List Input) (i : Instr), s.inputs = .event w :: rest → decode (.event w) = .ok i →
    s.owes i = true → ∃ t, step s = .next t ∧ t.traffic = s.traffic ++ s.actions ∧
      ∃ u, exec i { s with inputs := rest } = .next u ∧ u.actions = s.actions ++ t.actions)

/-! ## Whole transactions -/

/-- R158: the bus traffic of a write whose bytes are all acknowledged, and of what is queued behind it. -/
def Obligations.WriteTransactionTraffic : Prop :=
  ∀ s : State, s.phase = .addr → s.cur.dir = .write → s.curByte = 1 → 1 ≤ s.cur.len → s.bufferMapped s.cur → nextReadable s →
    ∃ t, execAll (List.replicate s.cur.len.toNat (.evTxc .ack)) s = .next t ∧
      t.actions = s.actions ++
        (List.range (s.cur.len.toNat - 1)).map (fun j => Action.tx (Memory.read s.mem (s.baddr (BitVec.ofNat 16 (j + 1))).toNat))
        ++ [.stop] ++
        (if lastPending s then [] else [.start, .tx (Memory.read s.mem (nextSlot s).ptr.toNat)]) ∧
      t.result s.beginPos = { code := .ok, failIndex := 0 } ∧ t.beginSeq = s.beginSeq + 1 ∧ t.mem = s.mem

/-- R158: the bus traffic of a read that is acknowledged throughout, with ACK for every byte but the last, the received bytes in
ascending order from index 3, and what is queued behind it, whose first byte is read after the last received byte is stored. -/
def Obligations.ReadTransactionTraffic : Prop :=
  ∀ (s : State) (data : List Byte), s.memCanonical → s.phase = .addr → s.cur.dir = .read → s.curByte = 1 → 1 ≤ data.length →
    s.cur.len.toNat = data.length + 3 → s.bufferMapped s.cur → nextReadable s →
    ∃ t, execAll ([.evTxc .ack, .evTxc .ack, .evReq, .evTxc .ack] ++ data.map .evRxc) s = .next t ∧
      t.actions = s.actions ++
        [.tx (Memory.read s.mem (s.cur.ptr + 1).toNat), .rstart, .tx (Memory.read s.mem (s.cur.ptr + 2).toNat)] ++
        List.replicate (data.length - 1) (.rx .ack) ++ [.rx .nack, .stop] ++
        (if lastPending s then [] else [.start, .tx (Memory.read t.mem (nextSlot s).ptr.toNat)]) ∧
      (∀ j : Nat, (h : j < data.length) → Memory.read t.mem (s.cur.ptr + BitVec.ofNat 32 (3 + j)).toNat = data[j]) ∧
      (∀ a : Word, (a - s.cur.ptr).toNat < 3 ∨ s.cur.len.toNat ≤ (a - s.cur.ptr).toNat →
        Memory.read t.mem a.toNat = Memory.read s.mem a.toNat) ∧
      t.result s.beginPos = { code := .ok, failIndex := 0 } ∧ t.beginSeq = s.beginSeq + 1 ∧ (lastPending s → t.idle = true)

/-! ## Host procedures -/

/-- R206: `schedule` returns OK and the ticket when the enqueue is accepted, and the rejection with nothing queued when it is
not. -/
def Obligations.ScheduleReturns : Prop :=
  (∀ (s : State) (ptr len : Word) (dir : Dir), legalLen dir len = true → s.endSeq - s.beginSeq ≠ 16 →
    (s.idle = true → s.endSeq = s.beginSeq ∧ mapped s.params.memMap ptr = true) →
    ∃ t, advances 5 (procSchedule ptr len dir) s = .next (.returned (.accepted s.endSeq), t) ∧ t.endSeq = s.endSeq + 1 ∧
      t.slot (slotOf s.endSeq) = { ptr := ptr, len := len.setWidth 16, dir := dir }) ∧
  (∀ (s : State) (ptr len : Word) (dir : Dir), legalLen dir len = true → s.endSeq - s.beginSeq = 16 →
    ∃ t, advances 4 (procSchedule ptr len dir) s = .next (.returned (.rejected 2), t) ∧ t.endSeq = s.endSeq ∧
      t.slots = s.slots) ∧
  (∀ (s : State) (ptr len : Word) (dir : Dir), legalLen dir len = false →
    ∃ t, advances 4 (procSchedule ptr len dir) s = .next (.returned (.rejected 3), t) ∧ t.endSeq = s.endSeq ∧
      t.slots = s.slots)

/-! ## When a transaction ends -/

/-- R38, R130, R159: in a state that meets R38, an operation that is not discarded ends the transaction in flight exactly where
R159 has it retire, and BEGIN_SEQ is otherwise as it was. R38 is why the last byte of a write or a read and the last retry are
equalities (R138, R148, R152). -/
def Obligations.TransactionEndsExactly : Prop :=
  ∀ (i : Instr) (s t : State), s.Inv → exec i s = .next t → t.faults = s.faults →
    (endsTransaction i s → t.beginSeq = s.beginSeq + 1) ∧ (¬ endsTransaction i s → t.beginSeq = s.beginSeq)

/-! ## readSync -/

/-- R211, R207: `readSync`, with its accesses one after the other. It stores the four bytes of its buffer and queues a read of
them when the enqueue is accepted; it polls BEGIN_SEQ until its ticket has retired; and then it returns the code of the ticket's
record and the byte at `p + 3`. What it returns on a rejection is the model's choice and not stated: log entry 13. -/
def Obligations.ReadSyncReturns : Prop :=
  (∀ (s : State) (p : Word) (slave : BitVec 7) (reg : Byte), s.memCanonical → s.endSeq - s.beginSeq ≠ 16 →
    (s.idle = true → s.endSeq = s.beginSeq ∧ mapped s.params.memMap p = true) →
    ∃ t, advances 9 (procReadSync p slave reg) s = .next (.pollBegin (.readSync p) s.endSeq, t) ∧
      t.endSeq = s.endSeq + 1 ∧ t.slot (slotOf s.endSeq) = { ptr := p, len := 4, dir := .read } ∧
      Memory.read t.mem p.toNat = slave ++ 0#1 ∧ Memory.read t.mem (p + 1).toNat = reg ∧
      Memory.read t.mem (p + 2).toNat = slave ++ 1#1 ∧ Memory.read t.mem (p + 3).toNat = 0) ∧
  (∀ (s : State) (p ticket : Word), doneAt ticket s.beginSeq = false →
    (Proc.pollBegin (.readSync p) ticket).advance s =
      .next (.pollBegin (.readSync p) ticket, { s with readData := s.beginSeq })) ∧
  (∀ (s : State) (p ticket : Word), doneAt ticket s.beginSeq = true →
    ∃ t, advances 3 (.pollBegin (.readSync p) ticket) s =
      .next (.returned (.readByte (.code (s.result (slotOf ticket)).code.code) (Memory.read s.mem (p + 3).toNat)), t))
end

