-- ==== Sys2Proof/Laws/Memory.lean ====
section
/-! SUPPORT. Buffer memory: read after write, and that every operation keeps the canonical form. -/

namespace Sys2Proof.Machine

theorem Memory.wfFrom_cons (lo a : Nat) (v : Byte) (m : Memory) :
    Memory.wfFrom lo ((a, v) :: m) = true ↔
      lo ≤ a ∧ a < 2 ^ 32 ∧ v ≠ unlistedByte ∧ Memory.wfFrom (a + 1) m = true := by
  simp [Memory.wfFrom, and_assoc]

theorem Memory.wfFrom_mono {lo lo' : Nat} (h : lo' ≤ lo) {m : Memory} (hm : Memory.wfFrom lo m = true) :
    Memory.wfFrom lo' m = true := by
  cases m with
  | nil => rfl
  | cons c m =>
    obtain ⟨a, v⟩ := c
    rw [Memory.wfFrom_cons] at hm ⊢
    exact ⟨le_trans h hm.1, hm.2⟩

/-- An address below every listed one reads as unlisted. -/
theorem Memory.read_below {lo x : Nat} {m : Memory} (hm : Memory.wfFrom lo m = true) (h : x < lo) :
    Memory.read m x = unlistedByte := by
  induction m generalizing lo with
  | nil => rfl
  | cons c m ih =>
    obtain ⟨a, v⟩ := c
    rw [Memory.wfFrom_cons] at hm
    have hne : x ≠ a := by omega
    simp only [Memory.read, if_neg hne]
    exact ih hm.2.2.2 (by omega)

theorem Memory.read_cons_other {a x : Nat} (h : x ≠ a) (v : Byte) (m : Memory) :
    Memory.read (Memory.cons a v m) x = Memory.read m x := by
  unfold Memory.cons
  split
  · rfl
  · simp [Memory.read, h]

theorem Memory.read_cons_same {a : Nat} (v : Byte) {m : Memory} (hm : Memory.wfFrom (a + 1) m = true) :
    Memory.read (Memory.cons a v m) a = v := by
  unfold Memory.cons
  split
  · next h => rw [Memory.read_below hm (Nat.lt_succ_self a), h]
  · simp [Memory.read]

theorem Memory.wfFrom_cons_value {lo a : Nat} (v : Byte) {m : Memory} (hlo : lo ≤ a) (ha : a < 2 ^ 32)
    (hm : Memory.wfFrom (a + 1) m = true) : Memory.wfFrom lo (Memory.cons a v m) = true := by
  unfold Memory.cons
  split
  · exact Memory.wfFrom_mono (by omega) hm
  · next h => exact (Memory.wfFrom_cons _ _ _ _).2 ⟨hlo, ha, h, hm⟩

/-- A write leaves every other address alone, whatever the list. -/
theorem Memory.read_write_other {a x : Nat} (h : x ≠ a) (v : Byte) (m : Memory) :
    Memory.read (Memory.write m a v) x = Memory.read m x := by
  induction m with
  | nil => exact Memory.read_cons_other h v []
  | cons c m ih =>
    obtain ⟨b, w⟩ := c
    unfold Memory.write
    split
    · exact Memory.read_cons_other h v _
    · split
      · next hab =>
        subst hab
        rw [Memory.read_cons_other h]
        simp [Memory.read, h]
      · simp [Memory.read, ih]

theorem Memory.read_write_same_from {lo a : Nat} (v : Byte) {m : Memory} (hm : Memory.wfFrom lo m = true) :
    Memory.read (Memory.write m a v) a = v := by
  induction m generalizing lo with
  | nil => exact Memory.read_cons_same v rfl
  | cons c m ih =>
    obtain ⟨b, w⟩ := c
    have hm' := (Memory.wfFrom_cons _ _ _ _).1 hm
    unfold Memory.write
    split
    · next h => exact Memory.read_cons_same v ((Memory.wfFrom_cons _ _ _ _).2 ⟨h, hm'.2⟩)
    · split
      · next h => subst h; exact Memory.read_cons_same v hm'.2.2.2
      · next h => simp only [Memory.read, if_neg h]; exact ih hm'.2.2.2

/-- A read after a write to the same address gives the value written. -/
theorem Memory.read_write_same {a : Nat} (v : Byte) {m : Memory} (hm : Memory.wf m = true) :
    Memory.read (Memory.write m a v) a = v := Memory.read_write_same_from v hm

theorem Memory.write_wfFrom {lo a : Nat} (v : Byte) {m : Memory} (hm : Memory.wfFrom lo m = true) (hlo : lo ≤ a)
    (ha : a < 2 ^ 32) : Memory.wfFrom lo (Memory.write m a v) = true := by
  induction m generalizing lo with
  | nil => exact Memory.wfFrom_cons_value v hlo ha rfl
  | cons c m ih =>
    obtain ⟨b, w⟩ := c
    have hm' := (Memory.wfFrom_cons _ _ _ _).1 hm
    unfold Memory.write
    split
    · next h => exact Memory.wfFrom_cons_value v hlo ha ((Memory.wfFrom_cons _ _ _ _).2 ⟨h, hm'.2⟩)
    · split
      · next h => subst h; exact Memory.wfFrom_cons_value v hlo ha hm'.2.2.2
      · next h1 h2 =>
        exact (Memory.wfFrom_cons _ _ _ _).2 ⟨hm'.1, hm'.2.1, hm'.2.2.1, ih hm'.2.2.2 (by omega)⟩

/-- A write at a 32-bit address keeps the canonical form. -/
theorem Memory.write_wf (addr : Word) (v : Byte) {m : Memory} (hm : Memory.wf m = true) :
    Memory.wf (Memory.write m addr.toNat v) = true :=
  Memory.write_wfFrom v hm (Nat.zero_le _) addr.isLt

/-- Reset memory is in canonical form. -/
theorem State.reset_memory_wf : Memory.wf State.reset.mem = true := rfl

end Sys2Proof.Machine
end

