-- ==== Sys2Proof/Laws/State.lean ====
section
/-! SUPPORT. What each named update of the state writes, one lemma per update and field, all true by rfl. -/

namespace Sys2Proof.Machine

variable (s : State)

@[simp] theorem State.setDescPtr_descPtr (v : Word) : (s.setDescPtr v).descPtr = v := rfl
@[simp] theorem State.setDescPtr_descLen (v : Word) : (s.setDescPtr v).descLen = s.descLen := rfl
@[simp] theorem State.setDescPtr_slots (v : Word) : (s.setDescPtr v).slots = s.slots := rfl
@[simp] theorem State.setDescPtr_beginSeq (v : Word) : (s.setDescPtr v).beginSeq = s.beginSeq := rfl
@[simp] theorem State.setDescPtr_endSeq (v : Word) : (s.setDescPtr v).endSeq = s.endSeq := rfl
@[simp] theorem State.setDescPtr_idle (v : Word) : (s.setDescPtr v).idle = s.idle := rfl
@[simp] theorem State.setDescPtr_phase (v : Word) : (s.setDescPtr v).phase = s.phase := rfl
@[simp] theorem State.setDescPtr_curByte (v : Word) : (s.setDescPtr v).curByte = s.curByte := rfl
@[simp] theorem State.setDescPtr_retries (v : Word) : (s.setDescPtr v).retries = s.retries := rfl
@[simp] theorem State.setDescPtr_enqStatus (v : Word) : (s.setDescPtr v).enqStatus = s.enqStatus := rfl
@[simp] theorem State.setDescPtr_lastTicket (v : Word) : (s.setDescPtr v).lastTicket = s.lastTicket := rfl
@[simp] theorem State.setDescPtr_results (v : Word) : (s.setDescPtr v).results = s.results := rfl
@[simp] theorem State.setDescPtr_mem (v : Word) : (s.setDescPtr v).mem = s.mem := rfl
@[simp] theorem State.setDescPtr_phy (v : Word) : (s.setDescPtr v).phy = s.phy := rfl
@[simp] theorem State.setDescPtr_actions (v : Word) : (s.setDescPtr v).actions = s.actions := rfl
@[simp] theorem State.setDescPtr_traffic (v : Word) : (s.setDescPtr v).traffic = s.traffic := rfl
@[simp] theorem State.setDescPtr_faults (v : Word) : (s.setDescPtr v).faults = s.faults := rfl
@[simp] theorem State.setDescPtr_readData (v : Word) : (s.setDescPtr v).readData = s.readData := rfl
@[simp] theorem State.setDescPtr_loadData (v : Word) : (s.setDescPtr v).loadData = s.loadData := rfl
@[simp] theorem State.setDescPtr_inputs (v : Word) : (s.setDescPtr v).inputs = s.inputs := rfl
@[simp] theorem State.setDescPtr_params (v : Word) : (s.setDescPtr v).params = s.params := rfl
@[simp] theorem State.setDescPtr_slot (v : Word) (q : BitVec 4) : (s.setDescPtr v).slot q = s.slot q := rfl
@[simp] theorem State.setDescPtr_result (v : Word) (q : BitVec 4) : (s.setDescPtr v).result q = s.result q := rfl
@[simp] theorem State.setDescPtr_cur (v : Word) : (s.setDescPtr v).cur = s.cur := rfl
@[simp] theorem State.setDescPtr_baddr (v : Word) (j : BitVec 16) : (s.setDescPtr v).baddr j = s.baddr j := rfl
@[simp] theorem State.setDescPtr_beginPos (v : Word) : (s.setDescPtr v).beginPos = s.beginPos := rfl
@[simp] theorem State.setDescPtr_endPos (v : Word) : (s.setDescPtr v).endPos = s.endPos := rfl
@[simp] theorem State.setDescPtr_count (v : Word) : (s.setDescPtr v).count = s.count := rfl
@[simp] theorem State.setDescPtr_owed (v : Word) : (s.setDescPtr v).owed = s.owed := rfl

@[simp] theorem State.setDescLen_descPtr (v : Word) : (s.setDescLen v).descPtr = s.descPtr := rfl
@[simp] theorem State.setDescLen_descLen (v : Word) : (s.setDescLen v).descLen = v := rfl
@[simp] theorem State.setDescLen_slots (v : Word) : (s.setDescLen v).slots = s.slots := rfl
@[simp] theorem State.setDescLen_beginSeq (v : Word) : (s.setDescLen v).beginSeq = s.beginSeq := rfl
@[simp] theorem State.setDescLen_endSeq (v : Word) : (s.setDescLen v).endSeq = s.endSeq := rfl
@[simp] theorem State.setDescLen_idle (v : Word) : (s.setDescLen v).idle = s.idle := rfl
@[simp] theorem State.setDescLen_phase (v : Word) : (s.setDescLen v).phase = s.phase := rfl
@[simp] theorem State.setDescLen_curByte (v : Word) : (s.setDescLen v).curByte = s.curByte := rfl
@[simp] theorem State.setDescLen_retries (v : Word) : (s.setDescLen v).retries = s.retries := rfl
@[simp] theorem State.setDescLen_enqStatus (v : Word) : (s.setDescLen v).enqStatus = s.enqStatus := rfl
@[simp] theorem State.setDescLen_lastTicket (v : Word) : (s.setDescLen v).lastTicket = s.lastTicket := rfl
@[simp] theorem State.setDescLen_results (v : Word) : (s.setDescLen v).results = s.results := rfl
@[simp] theorem State.setDescLen_mem (v : Word) : (s.setDescLen v).mem = s.mem := rfl
@[simp] theorem State.setDescLen_phy (v : Word) : (s.setDescLen v).phy = s.phy := rfl
@[simp] theorem State.setDescLen_actions (v : Word) : (s.setDescLen v).actions = s.actions := rfl
@[simp] theorem State.setDescLen_traffic (v : Word) : (s.setDescLen v).traffic = s.traffic := rfl
@[simp] theorem State.setDescLen_faults (v : Word) : (s.setDescLen v).faults = s.faults := rfl
@[simp] theorem State.setDescLen_readData (v : Word) : (s.setDescLen v).readData = s.readData := rfl
@[simp] theorem State.setDescLen_loadData (v : Word) : (s.setDescLen v).loadData = s.loadData := rfl
@[simp] theorem State.setDescLen_inputs (v : Word) : (s.setDescLen v).inputs = s.inputs := rfl
@[simp] theorem State.setDescLen_params (v : Word) : (s.setDescLen v).params = s.params := rfl
@[simp] theorem State.setDescLen_slot (v : Word) (q : BitVec 4) : (s.setDescLen v).slot q = s.slot q := rfl
@[simp] theorem State.setDescLen_result (v : Word) (q : BitVec 4) : (s.setDescLen v).result q = s.result q := rfl
@[simp] theorem State.setDescLen_cur (v : Word) : (s.setDescLen v).cur = s.cur := rfl
@[simp] theorem State.setDescLen_baddr (v : Word) (j : BitVec 16) : (s.setDescLen v).baddr j = s.baddr j := rfl
@[simp] theorem State.setDescLen_beginPos (v : Word) : (s.setDescLen v).beginPos = s.beginPos := rfl
@[simp] theorem State.setDescLen_endPos (v : Word) : (s.setDescLen v).endPos = s.endPos := rfl
@[simp] theorem State.setDescLen_count (v : Word) : (s.setDescLen v).count = s.count := rfl
@[simp] theorem State.setDescLen_owed (v : Word) : (s.setDescLen v).owed = s.owed := rfl

@[simp] theorem State.setBeginSeq_descPtr (v : Word) : (s.setBeginSeq v).descPtr = s.descPtr := rfl
@[simp] theorem State.setBeginSeq_descLen (v : Word) : (s.setBeginSeq v).descLen = s.descLen := rfl
@[simp] theorem State.setBeginSeq_slots (v : Word) : (s.setBeginSeq v).slots = s.slots := rfl
@[simp] theorem State.setBeginSeq_beginSeq (v : Word) : (s.setBeginSeq v).beginSeq = v := rfl
@[simp] theorem State.setBeginSeq_endSeq (v : Word) : (s.setBeginSeq v).endSeq = s.endSeq := rfl
@[simp] theorem State.setBeginSeq_idle (v : Word) : (s.setBeginSeq v).idle = s.idle := rfl
@[simp] theorem State.setBeginSeq_phase (v : Word) : (s.setBeginSeq v).phase = s.phase := rfl
@[simp] theorem State.setBeginSeq_curByte (v : Word) : (s.setBeginSeq v).curByte = s.curByte := rfl
@[simp] theorem State.setBeginSeq_retries (v : Word) : (s.setBeginSeq v).retries = s.retries := rfl
@[simp] theorem State.setBeginSeq_enqStatus (v : Word) : (s.setBeginSeq v).enqStatus = s.enqStatus := rfl
@[simp] theorem State.setBeginSeq_lastTicket (v : Word) : (s.setBeginSeq v).lastTicket = s.lastTicket := rfl
@[simp] theorem State.setBeginSeq_results (v : Word) : (s.setBeginSeq v).results = s.results := rfl
@[simp] theorem State.setBeginSeq_mem (v : Word) : (s.setBeginSeq v).mem = s.mem := rfl
@[simp] theorem State.setBeginSeq_phy (v : Word) : (s.setBeginSeq v).phy = s.phy := rfl
@[simp] theorem State.setBeginSeq_actions (v : Word) : (s.setBeginSeq v).actions = s.actions := rfl
@[simp] theorem State.setBeginSeq_traffic (v : Word) : (s.setBeginSeq v).traffic = s.traffic := rfl
@[simp] theorem State.setBeginSeq_faults (v : Word) : (s.setBeginSeq v).faults = s.faults := rfl
@[simp] theorem State.setBeginSeq_readData (v : Word) : (s.setBeginSeq v).readData = s.readData := rfl
@[simp] theorem State.setBeginSeq_loadData (v : Word) : (s.setBeginSeq v).loadData = s.loadData := rfl
@[simp] theorem State.setBeginSeq_inputs (v : Word) : (s.setBeginSeq v).inputs = s.inputs := rfl
@[simp] theorem State.setBeginSeq_params (v : Word) : (s.setBeginSeq v).params = s.params := rfl
@[simp] theorem State.setBeginSeq_slot (v : Word) (q : BitVec 4) : (s.setBeginSeq v).slot q = s.slot q := rfl
@[simp] theorem State.setBeginSeq_result (v : Word) (q : BitVec 4) : (s.setBeginSeq v).result q = s.result q := rfl
@[simp] theorem State.setBeginSeq_endPos (v : Word) : (s.setBeginSeq v).endPos = s.endPos := rfl
@[simp] theorem State.setBeginSeq_owed (v : Word) : (s.setBeginSeq v).owed = s.owed := rfl

@[simp] theorem State.setEndSeq_descPtr (v : Word) : (s.setEndSeq v).descPtr = s.descPtr := rfl
@[simp] theorem State.setEndSeq_descLen (v : Word) : (s.setEndSeq v).descLen = s.descLen := rfl
@[simp] theorem State.setEndSeq_slots (v : Word) : (s.setEndSeq v).slots = s.slots := rfl
@[simp] theorem State.setEndSeq_beginSeq (v : Word) : (s.setEndSeq v).beginSeq = s.beginSeq := rfl
@[simp] theorem State.setEndSeq_endSeq (v : Word) : (s.setEndSeq v).endSeq = v := rfl
@[simp] theorem State.setEndSeq_idle (v : Word) : (s.setEndSeq v).idle = s.idle := rfl
@[simp] theorem State.setEndSeq_phase (v : Word) : (s.setEndSeq v).phase = s.phase := rfl
@[simp] theorem State.setEndSeq_curByte (v : Word) : (s.setEndSeq v).curByte = s.curByte := rfl
@[simp] theorem State.setEndSeq_retries (v : Word) : (s.setEndSeq v).retries = s.retries := rfl
@[simp] theorem State.setEndSeq_enqStatus (v : Word) : (s.setEndSeq v).enqStatus = s.enqStatus := rfl
@[simp] theorem State.setEndSeq_lastTicket (v : Word) : (s.setEndSeq v).lastTicket = s.lastTicket := rfl
@[simp] theorem State.setEndSeq_results (v : Word) : (s.setEndSeq v).results = s.results := rfl
@[simp] theorem State.setEndSeq_mem (v : Word) : (s.setEndSeq v).mem = s.mem := rfl
@[simp] theorem State.setEndSeq_phy (v : Word) : (s.setEndSeq v).phy = s.phy := rfl
@[simp] theorem State.setEndSeq_actions (v : Word) : (s.setEndSeq v).actions = s.actions := rfl
@[simp] theorem State.setEndSeq_traffic (v : Word) : (s.setEndSeq v).traffic = s.traffic := rfl
@[simp] theorem State.setEndSeq_faults (v : Word) : (s.setEndSeq v).faults = s.faults := rfl
@[simp] theorem State.setEndSeq_readData (v : Word) : (s.setEndSeq v).readData = s.readData := rfl
@[simp] theorem State.setEndSeq_loadData (v : Word) : (s.setEndSeq v).loadData = s.loadData := rfl
@[simp] theorem State.setEndSeq_inputs (v : Word) : (s.setEndSeq v).inputs = s.inputs := rfl
@[simp] theorem State.setEndSeq_params (v : Word) : (s.setEndSeq v).params = s.params := rfl
@[simp] theorem State.setEndSeq_slot (v : Word) (q : BitVec 4) : (s.setEndSeq v).slot q = s.slot q := rfl
@[simp] theorem State.setEndSeq_result (v : Word) (q : BitVec 4) : (s.setEndSeq v).result q = s.result q := rfl
@[simp] theorem State.setEndSeq_cur (v : Word) : (s.setEndSeq v).cur = s.cur := rfl
@[simp] theorem State.setEndSeq_baddr (v : Word) (j : BitVec 16) : (s.setEndSeq v).baddr j = s.baddr j := rfl
@[simp] theorem State.setEndSeq_beginPos (v : Word) : (s.setEndSeq v).beginPos = s.beginPos := rfl
@[simp] theorem State.setEndSeq_owed (v : Word) : (s.setEndSeq v).owed = s.owed := rfl

@[simp] theorem State.setIdle_descPtr (b : Bool) : (s.setIdle b).descPtr = s.descPtr := rfl
@[simp] theorem State.setIdle_descLen (b : Bool) : (s.setIdle b).descLen = s.descLen := rfl
@[simp] theorem State.setIdle_slots (b : Bool) : (s.setIdle b).slots = s.slots := rfl
@[simp] theorem State.setIdle_beginSeq (b : Bool) : (s.setIdle b).beginSeq = s.beginSeq := rfl
@[simp] theorem State.setIdle_endSeq (b : Bool) : (s.setIdle b).endSeq = s.endSeq := rfl
@[simp] theorem State.setIdle_idle (b : Bool) : (s.setIdle b).idle = b := rfl
@[simp] theorem State.setIdle_phase (b : Bool) : (s.setIdle b).phase = s.phase := rfl
@[simp] theorem State.setIdle_curByte (b : Bool) : (s.setIdle b).curByte = s.curByte := rfl
@[simp] theorem State.setIdle_retries (b : Bool) : (s.setIdle b).retries = s.retries := rfl
@[simp] theorem State.setIdle_enqStatus (b : Bool) : (s.setIdle b).enqStatus = s.enqStatus := rfl
@[simp] theorem State.setIdle_lastTicket (b : Bool) : (s.setIdle b).lastTicket = s.lastTicket := rfl
@[simp] theorem State.setIdle_results (b : Bool) : (s.setIdle b).results = s.results := rfl
@[simp] theorem State.setIdle_mem (b : Bool) : (s.setIdle b).mem = s.mem := rfl
@[simp] theorem State.setIdle_phy (b : Bool) : (s.setIdle b).phy = s.phy := rfl
@[simp] theorem State.setIdle_actions (b : Bool) : (s.setIdle b).actions = s.actions := rfl
@[simp] theorem State.setIdle_traffic (b : Bool) : (s.setIdle b).traffic = s.traffic := rfl
@[simp] theorem State.setIdle_faults (b : Bool) : (s.setIdle b).faults = s.faults := rfl
@[simp] theorem State.setIdle_readData (b : Bool) : (s.setIdle b).readData = s.readData := rfl
@[simp] theorem State.setIdle_loadData (b : Bool) : (s.setIdle b).loadData = s.loadData := rfl
@[simp] theorem State.setIdle_inputs (b : Bool) : (s.setIdle b).inputs = s.inputs := rfl
@[simp] theorem State.setIdle_params (b : Bool) : (s.setIdle b).params = s.params := rfl
@[simp] theorem State.setIdle_slot (b : Bool) (q : BitVec 4) : (s.setIdle b).slot q = s.slot q := rfl
@[simp] theorem State.setIdle_result (b : Bool) (q : BitVec 4) : (s.setIdle b).result q = s.result q := rfl
@[simp] theorem State.setIdle_cur (b : Bool) : (s.setIdle b).cur = s.cur := rfl
@[simp] theorem State.setIdle_baddr (b : Bool) (j : BitVec 16) : (s.setIdle b).baddr j = s.baddr j := rfl
@[simp] theorem State.setIdle_beginPos (b : Bool) : (s.setIdle b).beginPos = s.beginPos := rfl
@[simp] theorem State.setIdle_endPos (b : Bool) : (s.setIdle b).endPos = s.endPos := rfl
@[simp] theorem State.setIdle_count (b : Bool) : (s.setIdle b).count = s.count := rfl
@[simp] theorem State.setIdle_owed (b : Bool) : (s.setIdle b).owed = s.owed := rfl

@[simp] theorem State.setPhase_descPtr (p : Phase) : (s.setPhase p).descPtr = s.descPtr := rfl
@[simp] theorem State.setPhase_descLen (p : Phase) : (s.setPhase p).descLen = s.descLen := rfl
@[simp] theorem State.setPhase_slots (p : Phase) : (s.setPhase p).slots = s.slots := rfl
@[simp] theorem State.setPhase_beginSeq (p : Phase) : (s.setPhase p).beginSeq = s.beginSeq := rfl
@[simp] theorem State.setPhase_endSeq (p : Phase) : (s.setPhase p).endSeq = s.endSeq := rfl
@[simp] theorem State.setPhase_idle (p : Phase) : (s.setPhase p).idle = s.idle := rfl
@[simp] theorem State.setPhase_phase (p : Phase) : (s.setPhase p).phase = p := rfl
@[simp] theorem State.setPhase_curByte (p : Phase) : (s.setPhase p).curByte = s.curByte := rfl
@[simp] theorem State.setPhase_retries (p : Phase) : (s.setPhase p).retries = s.retries := rfl
@[simp] theorem State.setPhase_enqStatus (p : Phase) : (s.setPhase p).enqStatus = s.enqStatus := rfl
@[simp] theorem State.setPhase_lastTicket (p : Phase) : (s.setPhase p).lastTicket = s.lastTicket := rfl
@[simp] theorem State.setPhase_results (p : Phase) : (s.setPhase p).results = s.results := rfl
@[simp] theorem State.setPhase_mem (p : Phase) : (s.setPhase p).mem = s.mem := rfl
@[simp] theorem State.setPhase_phy (p : Phase) : (s.setPhase p).phy = s.phy := rfl
@[simp] theorem State.setPhase_actions (p : Phase) : (s.setPhase p).actions = s.actions := rfl
@[simp] theorem State.setPhase_traffic (p : Phase) : (s.setPhase p).traffic = s.traffic := rfl
@[simp] theorem State.setPhase_faults (p : Phase) : (s.setPhase p).faults = s.faults := rfl
@[simp] theorem State.setPhase_readData (p : Phase) : (s.setPhase p).readData = s.readData := rfl
@[simp] theorem State.setPhase_loadData (p : Phase) : (s.setPhase p).loadData = s.loadData := rfl
@[simp] theorem State.setPhase_inputs (p : Phase) : (s.setPhase p).inputs = s.inputs := rfl
@[simp] theorem State.setPhase_params (p : Phase) : (s.setPhase p).params = s.params := rfl
@[simp] theorem State.setPhase_slot (p : Phase) (q : BitVec 4) : (s.setPhase p).slot q = s.slot q := rfl
@[simp] theorem State.setPhase_result (p : Phase) (q : BitVec 4) : (s.setPhase p).result q = s.result q := rfl
@[simp] theorem State.setPhase_cur (p : Phase) : (s.setPhase p).cur = s.cur := rfl
@[simp] theorem State.setPhase_baddr (p : Phase) (j : BitVec 16) : (s.setPhase p).baddr j = s.baddr j := rfl
@[simp] theorem State.setPhase_beginPos (p : Phase) : (s.setPhase p).beginPos = s.beginPos := rfl
@[simp] theorem State.setPhase_endPos (p : Phase) : (s.setPhase p).endPos = s.endPos := rfl
@[simp] theorem State.setPhase_count (p : Phase) : (s.setPhase p).count = s.count := rfl
@[simp] theorem State.setPhase_owed (p : Phase) : (s.setPhase p).owed = s.owed := rfl

@[simp] theorem State.setCurByte_descPtr (i : BitVec 16) : (s.setCurByte i).descPtr = s.descPtr := rfl
@[simp] theorem State.setCurByte_descLen (i : BitVec 16) : (s.setCurByte i).descLen = s.descLen := rfl
@[simp] theorem State.setCurByte_slots (i : BitVec 16) : (s.setCurByte i).slots = s.slots := rfl
@[simp] theorem State.setCurByte_beginSeq (i : BitVec 16) : (s.setCurByte i).beginSeq = s.beginSeq := rfl
@[simp] theorem State.setCurByte_endSeq (i : BitVec 16) : (s.setCurByte i).endSeq = s.endSeq := rfl
@[simp] theorem State.setCurByte_idle (i : BitVec 16) : (s.setCurByte i).idle = s.idle := rfl
@[simp] theorem State.setCurByte_phase (i : BitVec 16) : (s.setCurByte i).phase = s.phase := rfl
@[simp] theorem State.setCurByte_curByte (i : BitVec 16) : (s.setCurByte i).curByte = i := rfl
@[simp] theorem State.setCurByte_retries (i : BitVec 16) : (s.setCurByte i).retries = s.retries := rfl
@[simp] theorem State.setCurByte_enqStatus (i : BitVec 16) : (s.setCurByte i).enqStatus = s.enqStatus := rfl
@[simp] theorem State.setCurByte_lastTicket (i : BitVec 16) : (s.setCurByte i).lastTicket = s.lastTicket := rfl
@[simp] theorem State.setCurByte_results (i : BitVec 16) : (s.setCurByte i).results = s.results := rfl
@[simp] theorem State.setCurByte_mem (i : BitVec 16) : (s.setCurByte i).mem = s.mem := rfl
@[simp] theorem State.setCurByte_phy (i : BitVec 16) : (s.setCurByte i).phy = s.phy := rfl
@[simp] theorem State.setCurByte_actions (i : BitVec 16) : (s.setCurByte i).actions = s.actions := rfl
@[simp] theorem State.setCurByte_traffic (i : BitVec 16) : (s.setCurByte i).traffic = s.traffic := rfl
@[simp] theorem State.setCurByte_faults (i : BitVec 16) : (s.setCurByte i).faults = s.faults := rfl
@[simp] theorem State.setCurByte_readData (i : BitVec 16) : (s.setCurByte i).readData = s.readData := rfl
@[simp] theorem State.setCurByte_loadData (i : BitVec 16) : (s.setCurByte i).loadData = s.loadData := rfl
@[simp] theorem State.setCurByte_inputs (i : BitVec 16) : (s.setCurByte i).inputs = s.inputs := rfl
@[simp] theorem State.setCurByte_params (i : BitVec 16) : (s.setCurByte i).params = s.params := rfl
@[simp] theorem State.setCurByte_slot (i : BitVec 16) (q : BitVec 4) : (s.setCurByte i).slot q = s.slot q := rfl
@[simp] theorem State.setCurByte_result (i : BitVec 16) (q : BitVec 4) : (s.setCurByte i).result q = s.result q := rfl
@[simp] theorem State.setCurByte_cur (i : BitVec 16) : (s.setCurByte i).cur = s.cur := rfl
@[simp] theorem State.setCurByte_baddr (i : BitVec 16) (j : BitVec 16) : (s.setCurByte i).baddr j = s.baddr j := rfl
@[simp] theorem State.setCurByte_beginPos (i : BitVec 16) : (s.setCurByte i).beginPos = s.beginPos := rfl
@[simp] theorem State.setCurByte_endPos (i : BitVec 16) : (s.setCurByte i).endPos = s.endPos := rfl
@[simp] theorem State.setCurByte_count (i : BitVec 16) : (s.setCurByte i).count = s.count := rfl
@[simp] theorem State.setCurByte_owed (i : BitVec 16) : (s.setCurByte i).owed = s.owed := rfl

@[simp] theorem State.setRetries_descPtr (n : BitVec 4) : (s.setRetries n).descPtr = s.descPtr := rfl
@[simp] theorem State.setRetries_descLen (n : BitVec 4) : (s.setRetries n).descLen = s.descLen := rfl
@[simp] theorem State.setRetries_slots (n : BitVec 4) : (s.setRetries n).slots = s.slots := rfl
@[simp] theorem State.setRetries_beginSeq (n : BitVec 4) : (s.setRetries n).beginSeq = s.beginSeq := rfl
@[simp] theorem State.setRetries_endSeq (n : BitVec 4) : (s.setRetries n).endSeq = s.endSeq := rfl
@[simp] theorem State.setRetries_idle (n : BitVec 4) : (s.setRetries n).idle = s.idle := rfl
@[simp] theorem State.setRetries_phase (n : BitVec 4) : (s.setRetries n).phase = s.phase := rfl
@[simp] theorem State.setRetries_curByte (n : BitVec 4) : (s.setRetries n).curByte = s.curByte := rfl
@[simp] theorem State.setRetries_retries (n : BitVec 4) : (s.setRetries n).retries = n := rfl
@[simp] theorem State.setRetries_enqStatus (n : BitVec 4) : (s.setRetries n).enqStatus = s.enqStatus := rfl
@[simp] theorem State.setRetries_lastTicket (n : BitVec 4) : (s.setRetries n).lastTicket = s.lastTicket := rfl
@[simp] theorem State.setRetries_results (n : BitVec 4) : (s.setRetries n).results = s.results := rfl
@[simp] theorem State.setRetries_mem (n : BitVec 4) : (s.setRetries n).mem = s.mem := rfl
@[simp] theorem State.setRetries_phy (n : BitVec 4) : (s.setRetries n).phy = s.phy := rfl
@[simp] theorem State.setRetries_actions (n : BitVec 4) : (s.setRetries n).actions = s.actions := rfl
@[simp] theorem State.setRetries_traffic (n : BitVec 4) : (s.setRetries n).traffic = s.traffic := rfl
@[simp] theorem State.setRetries_faults (n : BitVec 4) : (s.setRetries n).faults = s.faults := rfl
@[simp] theorem State.setRetries_readData (n : BitVec 4) : (s.setRetries n).readData = s.readData := rfl
@[simp] theorem State.setRetries_loadData (n : BitVec 4) : (s.setRetries n).loadData = s.loadData := rfl
@[simp] theorem State.setRetries_inputs (n : BitVec 4) : (s.setRetries n).inputs = s.inputs := rfl
@[simp] theorem State.setRetries_params (n : BitVec 4) : (s.setRetries n).params = s.params := rfl
@[simp] theorem State.setRetries_slot (n : BitVec 4) (q : BitVec 4) : (s.setRetries n).slot q = s.slot q := rfl
@[simp] theorem State.setRetries_result (n : BitVec 4) (q : BitVec 4) : (s.setRetries n).result q = s.result q := rfl
@[simp] theorem State.setRetries_cur (n : BitVec 4) : (s.setRetries n).cur = s.cur := rfl
@[simp] theorem State.setRetries_baddr (n : BitVec 4) (j : BitVec 16) : (s.setRetries n).baddr j = s.baddr j := rfl
@[simp] theorem State.setRetries_beginPos (n : BitVec 4) : (s.setRetries n).beginPos = s.beginPos := rfl
@[simp] theorem State.setRetries_endPos (n : BitVec 4) : (s.setRetries n).endPos = s.endPos := rfl
@[simp] theorem State.setRetries_count (n : BitVec 4) : (s.setRetries n).count = s.count := rfl
@[simp] theorem State.setRetries_owed (n : BitVec 4) : (s.setRetries n).owed = s.owed := rfl

@[simp] theorem State.setEnqStatus_descPtr (e : EnqStatus) : (s.setEnqStatus e).descPtr = s.descPtr := rfl
@[simp] theorem State.setEnqStatus_descLen (e : EnqStatus) : (s.setEnqStatus e).descLen = s.descLen := rfl
@[simp] theorem State.setEnqStatus_slots (e : EnqStatus) : (s.setEnqStatus e).slots = s.slots := rfl
@[simp] theorem State.setEnqStatus_beginSeq (e : EnqStatus) : (s.setEnqStatus e).beginSeq = s.beginSeq := rfl
@[simp] theorem State.setEnqStatus_endSeq (e : EnqStatus) : (s.setEnqStatus e).endSeq = s.endSeq := rfl
@[simp] theorem State.setEnqStatus_idle (e : EnqStatus) : (s.setEnqStatus e).idle = s.idle := rfl
@[simp] theorem State.setEnqStatus_phase (e : EnqStatus) : (s.setEnqStatus e).phase = s.phase := rfl
@[simp] theorem State.setEnqStatus_curByte (e : EnqStatus) : (s.setEnqStatus e).curByte = s.curByte := rfl
@[simp] theorem State.setEnqStatus_retries (e : EnqStatus) : (s.setEnqStatus e).retries = s.retries := rfl
@[simp] theorem State.setEnqStatus_enqStatus (e : EnqStatus) : (s.setEnqStatus e).enqStatus = e := rfl
@[simp] theorem State.setEnqStatus_lastTicket (e : EnqStatus) : (s.setEnqStatus e).lastTicket = s.lastTicket := rfl
@[simp] theorem State.setEnqStatus_results (e : EnqStatus) : (s.setEnqStatus e).results = s.results := rfl
@[simp] theorem State.setEnqStatus_mem (e : EnqStatus) : (s.setEnqStatus e).mem = s.mem := rfl
@[simp] theorem State.setEnqStatus_phy (e : EnqStatus) : (s.setEnqStatus e).phy = s.phy := rfl
@[simp] theorem State.setEnqStatus_actions (e : EnqStatus) : (s.setEnqStatus e).actions = s.actions := rfl
@[simp] theorem State.setEnqStatus_traffic (e : EnqStatus) : (s.setEnqStatus e).traffic = s.traffic := rfl
@[simp] theorem State.setEnqStatus_faults (e : EnqStatus) : (s.setEnqStatus e).faults = s.faults := rfl
@[simp] theorem State.setEnqStatus_readData (e : EnqStatus) : (s.setEnqStatus e).readData = s.readData := rfl
@[simp] theorem State.setEnqStatus_loadData (e : EnqStatus) : (s.setEnqStatus e).loadData = s.loadData := rfl
@[simp] theorem State.setEnqStatus_inputs (e : EnqStatus) : (s.setEnqStatus e).inputs = s.inputs := rfl
@[simp] theorem State.setEnqStatus_params (e : EnqStatus) : (s.setEnqStatus e).params = s.params := rfl
@[simp] theorem State.setEnqStatus_slot (e : EnqStatus) (q : BitVec 4) : (s.setEnqStatus e).slot q = s.slot q := rfl
@[simp] theorem State.setEnqStatus_result (e : EnqStatus) (q : BitVec 4) : (s.setEnqStatus e).result q = s.result q := rfl
@[simp] theorem State.setEnqStatus_cur (e : EnqStatus) : (s.setEnqStatus e).cur = s.cur := rfl
@[simp] theorem State.setEnqStatus_baddr (e : EnqStatus) (j : BitVec 16) : (s.setEnqStatus e).baddr j = s.baddr j := rfl
@[simp] theorem State.setEnqStatus_beginPos (e : EnqStatus) : (s.setEnqStatus e).beginPos = s.beginPos := rfl
@[simp] theorem State.setEnqStatus_endPos (e : EnqStatus) : (s.setEnqStatus e).endPos = s.endPos := rfl
@[simp] theorem State.setEnqStatus_count (e : EnqStatus) : (s.setEnqStatus e).count = s.count := rfl
@[simp] theorem State.setEnqStatus_owed (e : EnqStatus) : (s.setEnqStatus e).owed = s.owed := rfl

@[simp] theorem State.setLastTicket_descPtr (v : Word) : (s.setLastTicket v).descPtr = s.descPtr := rfl
@[simp] theorem State.setLastTicket_descLen (v : Word) : (s.setLastTicket v).descLen = s.descLen := rfl
@[simp] theorem State.setLastTicket_slots (v : Word) : (s.setLastTicket v).slots = s.slots := rfl
@[simp] theorem State.setLastTicket_beginSeq (v : Word) : (s.setLastTicket v).beginSeq = s.beginSeq := rfl
@[simp] theorem State.setLastTicket_endSeq (v : Word) : (s.setLastTicket v).endSeq = s.endSeq := rfl
@[simp] theorem State.setLastTicket_idle (v : Word) : (s.setLastTicket v).idle = s.idle := rfl
@[simp] theorem State.setLastTicket_phase (v : Word) : (s.setLastTicket v).phase = s.phase := rfl
@[simp] theorem State.setLastTicket_curByte (v : Word) : (s.setLastTicket v).curByte = s.curByte := rfl
@[simp] theorem State.setLastTicket_retries (v : Word) : (s.setLastTicket v).retries = s.retries := rfl
@[simp] theorem State.setLastTicket_enqStatus (v : Word) : (s.setLastTicket v).enqStatus = s.enqStatus := rfl
@[simp] theorem State.setLastTicket_lastTicket (v : Word) : (s.setLastTicket v).lastTicket = v := rfl
@[simp] theorem State.setLastTicket_results (v : Word) : (s.setLastTicket v).results = s.results := rfl
@[simp] theorem State.setLastTicket_mem (v : Word) : (s.setLastTicket v).mem = s.mem := rfl
@[simp] theorem State.setLastTicket_phy (v : Word) : (s.setLastTicket v).phy = s.phy := rfl
@[simp] theorem State.setLastTicket_actions (v : Word) : (s.setLastTicket v).actions = s.actions := rfl
@[simp] theorem State.setLastTicket_traffic (v : Word) : (s.setLastTicket v).traffic = s.traffic := rfl
@[simp] theorem State.setLastTicket_faults (v : Word) : (s.setLastTicket v).faults = s.faults := rfl
@[simp] theorem State.setLastTicket_readData (v : Word) : (s.setLastTicket v).readData = s.readData := rfl
@[simp] theorem State.setLastTicket_loadData (v : Word) : (s.setLastTicket v).loadData = s.loadData := rfl
@[simp] theorem State.setLastTicket_inputs (v : Word) : (s.setLastTicket v).inputs = s.inputs := rfl
@[simp] theorem State.setLastTicket_params (v : Word) : (s.setLastTicket v).params = s.params := rfl
@[simp] theorem State.setLastTicket_slot (v : Word) (q : BitVec 4) : (s.setLastTicket v).slot q = s.slot q := rfl
@[simp] theorem State.setLastTicket_result (v : Word) (q : BitVec 4) : (s.setLastTicket v).result q = s.result q := rfl
@[simp] theorem State.setLastTicket_cur (v : Word) : (s.setLastTicket v).cur = s.cur := rfl
@[simp] theorem State.setLastTicket_baddr (v : Word) (j : BitVec 16) : (s.setLastTicket v).baddr j = s.baddr j := rfl
@[simp] theorem State.setLastTicket_beginPos (v : Word) : (s.setLastTicket v).beginPos = s.beginPos := rfl
@[simp] theorem State.setLastTicket_endPos (v : Word) : (s.setLastTicket v).endPos = s.endPos := rfl
@[simp] theorem State.setLastTicket_count (v : Word) : (s.setLastTicket v).count = s.count := rfl
@[simp] theorem State.setLastTicket_owed (v : Word) : (s.setLastTicket v).owed = s.owed := rfl

@[simp] theorem State.setMem_descPtr (m : Memory) : (s.setMem m).descPtr = s.descPtr := rfl
@[simp] theorem State.setMem_descLen (m : Memory) : (s.setMem m).descLen = s.descLen := rfl
@[simp] theorem State.setMem_slots (m : Memory) : (s.setMem m).slots = s.slots := rfl
@[simp] theorem State.setMem_beginSeq (m : Memory) : (s.setMem m).beginSeq = s.beginSeq := rfl
@[simp] theorem State.setMem_endSeq (m : Memory) : (s.setMem m).endSeq = s.endSeq := rfl
@[simp] theorem State.setMem_idle (m : Memory) : (s.setMem m).idle = s.idle := rfl
@[simp] theorem State.setMem_phase (m : Memory) : (s.setMem m).phase = s.phase := rfl
@[simp] theorem State.setMem_curByte (m : Memory) : (s.setMem m).curByte = s.curByte := rfl
@[simp] theorem State.setMem_retries (m : Memory) : (s.setMem m).retries = s.retries := rfl
@[simp] theorem State.setMem_enqStatus (m : Memory) : (s.setMem m).enqStatus = s.enqStatus := rfl
@[simp] theorem State.setMem_lastTicket (m : Memory) : (s.setMem m).lastTicket = s.lastTicket := rfl
@[simp] theorem State.setMem_results (m : Memory) : (s.setMem m).results = s.results := rfl
@[simp] theorem State.setMem_mem (m : Memory) : (s.setMem m).mem = m := rfl
@[simp] theorem State.setMem_phy (m : Memory) : (s.setMem m).phy = s.phy := rfl
@[simp] theorem State.setMem_actions (m : Memory) : (s.setMem m).actions = s.actions := rfl
@[simp] theorem State.setMem_traffic (m : Memory) : (s.setMem m).traffic = s.traffic := rfl
@[simp] theorem State.setMem_faults (m : Memory) : (s.setMem m).faults = s.faults := rfl
@[simp] theorem State.setMem_readData (m : Memory) : (s.setMem m).readData = s.readData := rfl
@[simp] theorem State.setMem_loadData (m : Memory) : (s.setMem m).loadData = s.loadData := rfl
@[simp] theorem State.setMem_inputs (m : Memory) : (s.setMem m).inputs = s.inputs := rfl
@[simp] theorem State.setMem_params (m : Memory) : (s.setMem m).params = s.params := rfl
@[simp] theorem State.setMem_slot (m : Memory) (q : BitVec 4) : (s.setMem m).slot q = s.slot q := rfl
@[simp] theorem State.setMem_result (m : Memory) (q : BitVec 4) : (s.setMem m).result q = s.result q := rfl
@[simp] theorem State.setMem_cur (m : Memory) : (s.setMem m).cur = s.cur := rfl
@[simp] theorem State.setMem_baddr (m : Memory) (j : BitVec 16) : (s.setMem m).baddr j = s.baddr j := rfl
@[simp] theorem State.setMem_beginPos (m : Memory) : (s.setMem m).beginPos = s.beginPos := rfl
@[simp] theorem State.setMem_endPos (m : Memory) : (s.setMem m).endPos = s.endPos := rfl
@[simp] theorem State.setMem_count (m : Memory) : (s.setMem m).count = s.count := rfl
@[simp] theorem State.setMem_owed (m : Memory) : (s.setMem m).owed = s.owed := rfl

@[simp] theorem State.setPhy_descPtr (p : Phy) : (s.setPhy p).descPtr = s.descPtr := rfl
@[simp] theorem State.setPhy_descLen (p : Phy) : (s.setPhy p).descLen = s.descLen := rfl
@[simp] theorem State.setPhy_slots (p : Phy) : (s.setPhy p).slots = s.slots := rfl
@[simp] theorem State.setPhy_beginSeq (p : Phy) : (s.setPhy p).beginSeq = s.beginSeq := rfl
@[simp] theorem State.setPhy_endSeq (p : Phy) : (s.setPhy p).endSeq = s.endSeq := rfl
@[simp] theorem State.setPhy_idle (p : Phy) : (s.setPhy p).idle = s.idle := rfl
@[simp] theorem State.setPhy_phase (p : Phy) : (s.setPhy p).phase = s.phase := rfl
@[simp] theorem State.setPhy_curByte (p : Phy) : (s.setPhy p).curByte = s.curByte := rfl
@[simp] theorem State.setPhy_retries (p : Phy) : (s.setPhy p).retries = s.retries := rfl
@[simp] theorem State.setPhy_enqStatus (p : Phy) : (s.setPhy p).enqStatus = s.enqStatus := rfl
@[simp] theorem State.setPhy_lastTicket (p : Phy) : (s.setPhy p).lastTicket = s.lastTicket := rfl
@[simp] theorem State.setPhy_results (p : Phy) : (s.setPhy p).results = s.results := rfl
@[simp] theorem State.setPhy_mem (p : Phy) : (s.setPhy p).mem = s.mem := rfl
@[simp] theorem State.setPhy_phy (p : Phy) : (s.setPhy p).phy = p := rfl
@[simp] theorem State.setPhy_actions (p : Phy) : (s.setPhy p).actions = s.actions := rfl
@[simp] theorem State.setPhy_traffic (p : Phy) : (s.setPhy p).traffic = s.traffic := rfl
@[simp] theorem State.setPhy_faults (p : Phy) : (s.setPhy p).faults = s.faults := rfl
@[simp] theorem State.setPhy_readData (p : Phy) : (s.setPhy p).readData = s.readData := rfl
@[simp] theorem State.setPhy_loadData (p : Phy) : (s.setPhy p).loadData = s.loadData := rfl
@[simp] theorem State.setPhy_inputs (p : Phy) : (s.setPhy p).inputs = s.inputs := rfl
@[simp] theorem State.setPhy_params (p : Phy) : (s.setPhy p).params = s.params := rfl
@[simp] theorem State.setPhy_slot (p : Phy) (q : BitVec 4) : (s.setPhy p).slot q = s.slot q := rfl
@[simp] theorem State.setPhy_result (p : Phy) (q : BitVec 4) : (s.setPhy p).result q = s.result q := rfl
@[simp] theorem State.setPhy_cur (p : Phy) : (s.setPhy p).cur = s.cur := rfl
@[simp] theorem State.setPhy_baddr (p : Phy) (j : BitVec 16) : (s.setPhy p).baddr j = s.baddr j := rfl
@[simp] theorem State.setPhy_beginPos (p : Phy) : (s.setPhy p).beginPos = s.beginPos := rfl
@[simp] theorem State.setPhy_endPos (p : Phy) : (s.setPhy p).endPos = s.endPos := rfl
@[simp] theorem State.setPhy_count (p : Phy) : (s.setPhy p).count = s.count := rfl

@[simp] theorem State.setActions_descPtr (l : List Action) : (s.setActions l).descPtr = s.descPtr := rfl
@[simp] theorem State.setActions_descLen (l : List Action) : (s.setActions l).descLen = s.descLen := rfl
@[simp] theorem State.setActions_slots (l : List Action) : (s.setActions l).slots = s.slots := rfl
@[simp] theorem State.setActions_beginSeq (l : List Action) : (s.setActions l).beginSeq = s.beginSeq := rfl
@[simp] theorem State.setActions_endSeq (l : List Action) : (s.setActions l).endSeq = s.endSeq := rfl
@[simp] theorem State.setActions_idle (l : List Action) : (s.setActions l).idle = s.idle := rfl
@[simp] theorem State.setActions_phase (l : List Action) : (s.setActions l).phase = s.phase := rfl
@[simp] theorem State.setActions_curByte (l : List Action) : (s.setActions l).curByte = s.curByte := rfl
@[simp] theorem State.setActions_retries (l : List Action) : (s.setActions l).retries = s.retries := rfl
@[simp] theorem State.setActions_enqStatus (l : List Action) : (s.setActions l).enqStatus = s.enqStatus := rfl
@[simp] theorem State.setActions_lastTicket (l : List Action) : (s.setActions l).lastTicket = s.lastTicket := rfl
@[simp] theorem State.setActions_results (l : List Action) : (s.setActions l).results = s.results := rfl
@[simp] theorem State.setActions_mem (l : List Action) : (s.setActions l).mem = s.mem := rfl
@[simp] theorem State.setActions_phy (l : List Action) : (s.setActions l).phy = s.phy := rfl
@[simp] theorem State.setActions_actions (l : List Action) : (s.setActions l).actions = l := rfl
@[simp] theorem State.setActions_traffic (l : List Action) : (s.setActions l).traffic = s.traffic := rfl
@[simp] theorem State.setActions_faults (l : List Action) : (s.setActions l).faults = s.faults := rfl
@[simp] theorem State.setActions_readData (l : List Action) : (s.setActions l).readData = s.readData := rfl
@[simp] theorem State.setActions_loadData (l : List Action) : (s.setActions l).loadData = s.loadData := rfl
@[simp] theorem State.setActions_inputs (l : List Action) : (s.setActions l).inputs = s.inputs := rfl
@[simp] theorem State.setActions_params (l : List Action) : (s.setActions l).params = s.params := rfl
@[simp] theorem State.setActions_slot (l : List Action) (q : BitVec 4) : (s.setActions l).slot q = s.slot q := rfl
@[simp] theorem State.setActions_result (l : List Action) (q : BitVec 4) : (s.setActions l).result q = s.result q := rfl
@[simp] theorem State.setActions_cur (l : List Action) : (s.setActions l).cur = s.cur := rfl
@[simp] theorem State.setActions_baddr (l : List Action) (j : BitVec 16) : (s.setActions l).baddr j = s.baddr j := rfl
@[simp] theorem State.setActions_beginPos (l : List Action) : (s.setActions l).beginPos = s.beginPos := rfl
@[simp] theorem State.setActions_endPos (l : List Action) : (s.setActions l).endPos = s.endPos := rfl
@[simp] theorem State.setActions_count (l : List Action) : (s.setActions l).count = s.count := rfl

@[simp] theorem State.setTraffic_descPtr (l : List Action) : (s.setTraffic l).descPtr = s.descPtr := rfl
@[simp] theorem State.setTraffic_descLen (l : List Action) : (s.setTraffic l).descLen = s.descLen := rfl
@[simp] theorem State.setTraffic_slots (l : List Action) : (s.setTraffic l).slots = s.slots := rfl
@[simp] theorem State.setTraffic_beginSeq (l : List Action) : (s.setTraffic l).beginSeq = s.beginSeq := rfl
@[simp] theorem State.setTraffic_endSeq (l : List Action) : (s.setTraffic l).endSeq = s.endSeq := rfl
@[simp] theorem State.setTraffic_idle (l : List Action) : (s.setTraffic l).idle = s.idle := rfl
@[simp] theorem State.setTraffic_phase (l : List Action) : (s.setTraffic l).phase = s.phase := rfl
@[simp] theorem State.setTraffic_curByte (l : List Action) : (s.setTraffic l).curByte = s.curByte := rfl
@[simp] theorem State.setTraffic_retries (l : List Action) : (s.setTraffic l).retries = s.retries := rfl
@[simp] theorem State.setTraffic_enqStatus (l : List Action) : (s.setTraffic l).enqStatus = s.enqStatus := rfl
@[simp] theorem State.setTraffic_lastTicket (l : List Action) : (s.setTraffic l).lastTicket = s.lastTicket := rfl
@[simp] theorem State.setTraffic_results (l : List Action) : (s.setTraffic l).results = s.results := rfl
@[simp] theorem State.setTraffic_mem (l : List Action) : (s.setTraffic l).mem = s.mem := rfl
@[simp] theorem State.setTraffic_phy (l : List Action) : (s.setTraffic l).phy = s.phy := rfl
@[simp] theorem State.setTraffic_actions (l : List Action) : (s.setTraffic l).actions = s.actions := rfl
@[simp] theorem State.setTraffic_traffic (l : List Action) : (s.setTraffic l).traffic = l := rfl
@[simp] theorem State.setTraffic_faults (l : List Action) : (s.setTraffic l).faults = s.faults := rfl
@[simp] theorem State.setTraffic_readData (l : List Action) : (s.setTraffic l).readData = s.readData := rfl
@[simp] theorem State.setTraffic_loadData (l : List Action) : (s.setTraffic l).loadData = s.loadData := rfl
@[simp] theorem State.setTraffic_inputs (l : List Action) : (s.setTraffic l).inputs = s.inputs := rfl
@[simp] theorem State.setTraffic_params (l : List Action) : (s.setTraffic l).params = s.params := rfl
@[simp] theorem State.setTraffic_slot (l : List Action) (q : BitVec 4) : (s.setTraffic l).slot q = s.slot q := rfl
@[simp] theorem State.setTraffic_result (l : List Action) (q : BitVec 4) : (s.setTraffic l).result q = s.result q := rfl
@[simp] theorem State.setTraffic_cur (l : List Action) : (s.setTraffic l).cur = s.cur := rfl
@[simp] theorem State.setTraffic_baddr (l : List Action) (j : BitVec 16) : (s.setTraffic l).baddr j = s.baddr j := rfl
@[simp] theorem State.setTraffic_beginPos (l : List Action) : (s.setTraffic l).beginPos = s.beginPos := rfl
@[simp] theorem State.setTraffic_endPos (l : List Action) : (s.setTraffic l).endPos = s.endPos := rfl
@[simp] theorem State.setTraffic_count (l : List Action) : (s.setTraffic l).count = s.count := rfl
@[simp] theorem State.setTraffic_owed (l : List Action) : (s.setTraffic l).owed = s.owed := rfl

@[simp] theorem State.setReadData_descPtr (v : Word) : (s.setReadData v).descPtr = s.descPtr := rfl
@[simp] theorem State.setReadData_descLen (v : Word) : (s.setReadData v).descLen = s.descLen := rfl
@[simp] theorem State.setReadData_slots (v : Word) : (s.setReadData v).slots = s.slots := rfl
@[simp] theorem State.setReadData_beginSeq (v : Word) : (s.setReadData v).beginSeq = s.beginSeq := rfl
@[simp] theorem State.setReadData_endSeq (v : Word) : (s.setReadData v).endSeq = s.endSeq := rfl
@[simp] theorem State.setReadData_idle (v : Word) : (s.setReadData v).idle = s.idle := rfl
@[simp] theorem State.setReadData_phase (v : Word) : (s.setReadData v).phase = s.phase := rfl
@[simp] theorem State.setReadData_curByte (v : Word) : (s.setReadData v).curByte = s.curByte := rfl
@[simp] theorem State.setReadData_retries (v : Word) : (s.setReadData v).retries = s.retries := rfl
@[simp] theorem State.setReadData_enqStatus (v : Word) : (s.setReadData v).enqStatus = s.enqStatus := rfl
@[simp] theorem State.setReadData_lastTicket (v : Word) : (s.setReadData v).lastTicket = s.lastTicket := rfl
@[simp] theorem State.setReadData_results (v : Word) : (s.setReadData v).results = s.results := rfl
@[simp] theorem State.setReadData_mem (v : Word) : (s.setReadData v).mem = s.mem := rfl
@[simp] theorem State.setReadData_phy (v : Word) : (s.setReadData v).phy = s.phy := rfl
@[simp] theorem State.setReadData_actions (v : Word) : (s.setReadData v).actions = s.actions := rfl
@[simp] theorem State.setReadData_traffic (v : Word) : (s.setReadData v).traffic = s.traffic := rfl
@[simp] theorem State.setReadData_faults (v : Word) : (s.setReadData v).faults = s.faults := rfl
@[simp] theorem State.setReadData_readData (v : Word) : (s.setReadData v).readData = v := rfl
@[simp] theorem State.setReadData_loadData (v : Word) : (s.setReadData v).loadData = s.loadData := rfl
@[simp] theorem State.setReadData_inputs (v : Word) : (s.setReadData v).inputs = s.inputs := rfl
@[simp] theorem State.setReadData_params (v : Word) : (s.setReadData v).params = s.params := rfl
@[simp] theorem State.setReadData_slot (v : Word) (q : BitVec 4) : (s.setReadData v).slot q = s.slot q := rfl
@[simp] theorem State.setReadData_result (v : Word) (q : BitVec 4) : (s.setReadData v).result q = s.result q := rfl
@[simp] theorem State.setReadData_cur (v : Word) : (s.setReadData v).cur = s.cur := rfl
@[simp] theorem State.setReadData_baddr (v : Word) (j : BitVec 16) : (s.setReadData v).baddr j = s.baddr j := rfl
@[simp] theorem State.setReadData_beginPos (v : Word) : (s.setReadData v).beginPos = s.beginPos := rfl
@[simp] theorem State.setReadData_endPos (v : Word) : (s.setReadData v).endPos = s.endPos := rfl
@[simp] theorem State.setReadData_count (v : Word) : (s.setReadData v).count = s.count := rfl
@[simp] theorem State.setReadData_owed (v : Word) : (s.setReadData v).owed = s.owed := rfl

@[simp] theorem State.setLoadData_descPtr (v : Byte) : (s.setLoadData v).descPtr = s.descPtr := rfl
@[simp] theorem State.setLoadData_descLen (v : Byte) : (s.setLoadData v).descLen = s.descLen := rfl
@[simp] theorem State.setLoadData_slots (v : Byte) : (s.setLoadData v).slots = s.slots := rfl
@[simp] theorem State.setLoadData_beginSeq (v : Byte) : (s.setLoadData v).beginSeq = s.beginSeq := rfl
@[simp] theorem State.setLoadData_endSeq (v : Byte) : (s.setLoadData v).endSeq = s.endSeq := rfl
@[simp] theorem State.setLoadData_idle (v : Byte) : (s.setLoadData v).idle = s.idle := rfl
@[simp] theorem State.setLoadData_phase (v : Byte) : (s.setLoadData v).phase = s.phase := rfl
@[simp] theorem State.setLoadData_curByte (v : Byte) : (s.setLoadData v).curByte = s.curByte := rfl
@[simp] theorem State.setLoadData_retries (v : Byte) : (s.setLoadData v).retries = s.retries := rfl
@[simp] theorem State.setLoadData_enqStatus (v : Byte) : (s.setLoadData v).enqStatus = s.enqStatus := rfl
@[simp] theorem State.setLoadData_lastTicket (v : Byte) : (s.setLoadData v).lastTicket = s.lastTicket := rfl
@[simp] theorem State.setLoadData_results (v : Byte) : (s.setLoadData v).results = s.results := rfl
@[simp] theorem State.setLoadData_mem (v : Byte) : (s.setLoadData v).mem = s.mem := rfl
@[simp] theorem State.setLoadData_phy (v : Byte) : (s.setLoadData v).phy = s.phy := rfl
@[simp] theorem State.setLoadData_actions (v : Byte) : (s.setLoadData v).actions = s.actions := rfl
@[simp] theorem State.setLoadData_traffic (v : Byte) : (s.setLoadData v).traffic = s.traffic := rfl
@[simp] theorem State.setLoadData_faults (v : Byte) : (s.setLoadData v).faults = s.faults := rfl
@[simp] theorem State.setLoadData_readData (v : Byte) : (s.setLoadData v).readData = s.readData := rfl
@[simp] theorem State.setLoadData_loadData (v : Byte) : (s.setLoadData v).loadData = v := rfl
@[simp] theorem State.setLoadData_inputs (v : Byte) : (s.setLoadData v).inputs = s.inputs := rfl
@[simp] theorem State.setLoadData_params (v : Byte) : (s.setLoadData v).params = s.params := rfl
@[simp] theorem State.setLoadData_slot (v : Byte) (q : BitVec 4) : (s.setLoadData v).slot q = s.slot q := rfl
@[simp] theorem State.setLoadData_result (v : Byte) (q : BitVec 4) : (s.setLoadData v).result q = s.result q := rfl
@[simp] theorem State.setLoadData_cur (v : Byte) : (s.setLoadData v).cur = s.cur := rfl
@[simp] theorem State.setLoadData_baddr (v : Byte) (j : BitVec 16) : (s.setLoadData v).baddr j = s.baddr j := rfl
@[simp] theorem State.setLoadData_beginPos (v : Byte) : (s.setLoadData v).beginPos = s.beginPos := rfl
@[simp] theorem State.setLoadData_endPos (v : Byte) : (s.setLoadData v).endPos = s.endPos := rfl
@[simp] theorem State.setLoadData_count (v : Byte) : (s.setLoadData v).count = s.count := rfl
@[simp] theorem State.setLoadData_owed (v : Byte) : (s.setLoadData v).owed = s.owed := rfl

@[simp] theorem State.setInputs_descPtr (l : List Input) : (s.setInputs l).descPtr = s.descPtr := rfl
@[simp] theorem State.setInputs_descLen (l : List Input) : (s.setInputs l).descLen = s.descLen := rfl
@[simp] theorem State.setInputs_slots (l : List Input) : (s.setInputs l).slots = s.slots := rfl
@[simp] theorem State.setInputs_beginSeq (l : List Input) : (s.setInputs l).beginSeq = s.beginSeq := rfl
@[simp] theorem State.setInputs_endSeq (l : List Input) : (s.setInputs l).endSeq = s.endSeq := rfl
@[simp] theorem State.setInputs_idle (l : List Input) : (s.setInputs l).idle = s.idle := rfl
@[simp] theorem State.setInputs_phase (l : List Input) : (s.setInputs l).phase = s.phase := rfl
@[simp] theorem State.setInputs_curByte (l : List Input) : (s.setInputs l).curByte = s.curByte := rfl
@[simp] theorem State.setInputs_retries (l : List Input) : (s.setInputs l).retries = s.retries := rfl
@[simp] theorem State.setInputs_enqStatus (l : List Input) : (s.setInputs l).enqStatus = s.enqStatus := rfl
@[simp] theorem State.setInputs_lastTicket (l : List Input) : (s.setInputs l).lastTicket = s.lastTicket := rfl
@[simp] theorem State.setInputs_results (l : List Input) : (s.setInputs l).results = s.results := rfl
@[simp] theorem State.setInputs_mem (l : List Input) : (s.setInputs l).mem = s.mem := rfl
@[simp] theorem State.setInputs_phy (l : List Input) : (s.setInputs l).phy = s.phy := rfl
@[simp] theorem State.setInputs_actions (l : List Input) : (s.setInputs l).actions = s.actions := rfl
@[simp] theorem State.setInputs_traffic (l : List Input) : (s.setInputs l).traffic = s.traffic := rfl
@[simp] theorem State.setInputs_faults (l : List Input) : (s.setInputs l).faults = s.faults := rfl
@[simp] theorem State.setInputs_readData (l : List Input) : (s.setInputs l).readData = s.readData := rfl
@[simp] theorem State.setInputs_loadData (l : List Input) : (s.setInputs l).loadData = s.loadData := rfl
@[simp] theorem State.setInputs_inputs (l : List Input) : (s.setInputs l).inputs = l := rfl
@[simp] theorem State.setInputs_params (l : List Input) : (s.setInputs l).params = s.params := rfl
@[simp] theorem State.setInputs_slot (l : List Input) (q : BitVec 4) : (s.setInputs l).slot q = s.slot q := rfl
@[simp] theorem State.setInputs_result (l : List Input) (q : BitVec 4) : (s.setInputs l).result q = s.result q := rfl
@[simp] theorem State.setInputs_cur (l : List Input) : (s.setInputs l).cur = s.cur := rfl
@[simp] theorem State.setInputs_baddr (l : List Input) (j : BitVec 16) : (s.setInputs l).baddr j = s.baddr j := rfl
@[simp] theorem State.setInputs_beginPos (l : List Input) : (s.setInputs l).beginPos = s.beginPos := rfl
@[simp] theorem State.setInputs_endPos (l : List Input) : (s.setInputs l).endPos = s.endPos := rfl
@[simp] theorem State.setInputs_count (l : List Input) : (s.setInputs l).count = s.count := rfl
@[simp] theorem State.setInputs_owed (l : List Input) : (s.setInputs l).owed = s.owed := rfl

@[simp] theorem State.setSlot_descPtr (k : BitVec 4) (d : Slot) : (s.setSlot k d).descPtr = s.descPtr := rfl
@[simp] theorem State.setSlot_descLen (k : BitVec 4) (d : Slot) : (s.setSlot k d).descLen = s.descLen := rfl
@[simp] theorem State.setSlot_slots (k : BitVec 4) (d : Slot) : (s.setSlot k d).slots = s.slots.set k.toNat d k.isLt := rfl
@[simp] theorem State.setSlot_beginSeq (k : BitVec 4) (d : Slot) : (s.setSlot k d).beginSeq = s.beginSeq := rfl
@[simp] theorem State.setSlot_endSeq (k : BitVec 4) (d : Slot) : (s.setSlot k d).endSeq = s.endSeq := rfl
@[simp] theorem State.setSlot_idle (k : BitVec 4) (d : Slot) : (s.setSlot k d).idle = s.idle := rfl
@[simp] theorem State.setSlot_phase (k : BitVec 4) (d : Slot) : (s.setSlot k d).phase = s.phase := rfl
@[simp] theorem State.setSlot_curByte (k : BitVec 4) (d : Slot) : (s.setSlot k d).curByte = s.curByte := rfl
@[simp] theorem State.setSlot_retries (k : BitVec 4) (d : Slot) : (s.setSlot k d).retries = s.retries := rfl
@[simp] theorem State.setSlot_enqStatus (k : BitVec 4) (d : Slot) : (s.setSlot k d).enqStatus = s.enqStatus := rfl
@[simp] theorem State.setSlot_lastTicket (k : BitVec 4) (d : Slot) : (s.setSlot k d).lastTicket = s.lastTicket := rfl
@[simp] theorem State.setSlot_results (k : BitVec 4) (d : Slot) : (s.setSlot k d).results = s.results := rfl
@[simp] theorem State.setSlot_mem (k : BitVec 4) (d : Slot) : (s.setSlot k d).mem = s.mem := rfl
@[simp] theorem State.setSlot_phy (k : BitVec 4) (d : Slot) : (s.setSlot k d).phy = s.phy := rfl
@[simp] theorem State.setSlot_actions (k : BitVec 4) (d : Slot) : (s.setSlot k d).actions = s.actions := rfl
@[simp] theorem State.setSlot_traffic (k : BitVec 4) (d : Slot) : (s.setSlot k d).traffic = s.traffic := rfl
@[simp] theorem State.setSlot_faults (k : BitVec 4) (d : Slot) : (s.setSlot k d).faults = s.faults := rfl
@[simp] theorem State.setSlot_readData (k : BitVec 4) (d : Slot) : (s.setSlot k d).readData = s.readData := rfl
@[simp] theorem State.setSlot_loadData (k : BitVec 4) (d : Slot) : (s.setSlot k d).loadData = s.loadData := rfl
@[simp] theorem State.setSlot_inputs (k : BitVec 4) (d : Slot) : (s.setSlot k d).inputs = s.inputs := rfl
@[simp] theorem State.setSlot_params (k : BitVec 4) (d : Slot) : (s.setSlot k d).params = s.params := rfl
@[simp] theorem State.setSlot_result (k : BitVec 4) (d : Slot) (q : BitVec 4) : (s.setSlot k d).result q = s.result q := rfl
@[simp] theorem State.setSlot_beginPos (k : BitVec 4) (d : Slot) : (s.setSlot k d).beginPos = s.beginPos := rfl
@[simp] theorem State.setSlot_endPos (k : BitVec 4) (d : Slot) : (s.setSlot k d).endPos = s.endPos := rfl
@[simp] theorem State.setSlot_count (k : BitVec 4) (d : Slot) : (s.setSlot k d).count = s.count := rfl
@[simp] theorem State.setSlot_owed (k : BitVec 4) (d : Slot) : (s.setSlot k d).owed = s.owed := rfl

@[simp] theorem State.setResult_descPtr (k : BitVec 4) (r : Result) : (s.setResult k r).descPtr = s.descPtr := rfl
@[simp] theorem State.setResult_descLen (k : BitVec 4) (r : Result) : (s.setResult k r).descLen = s.descLen := rfl
@[simp] theorem State.setResult_slots (k : BitVec 4) (r : Result) : (s.setResult k r).slots = s.slots := rfl
@[simp] theorem State.setResult_beginSeq (k : BitVec 4) (r : Result) : (s.setResult k r).beginSeq = s.beginSeq := rfl
@[simp] theorem State.setResult_endSeq (k : BitVec 4) (r : Result) : (s.setResult k r).endSeq = s.endSeq := rfl
@[simp] theorem State.setResult_idle (k : BitVec 4) (r : Result) : (s.setResult k r).idle = s.idle := rfl
@[simp] theorem State.setResult_phase (k : BitVec 4) (r : Result) : (s.setResult k r).phase = s.phase := rfl
@[simp] theorem State.setResult_curByte (k : BitVec 4) (r : Result) : (s.setResult k r).curByte = s.curByte := rfl
@[simp] theorem State.setResult_retries (k : BitVec 4) (r : Result) : (s.setResult k r).retries = s.retries := rfl
@[simp] theorem State.setResult_enqStatus (k : BitVec 4) (r : Result) : (s.setResult k r).enqStatus = s.enqStatus := rfl
@[simp] theorem State.setResult_lastTicket (k : BitVec 4) (r : Result) : (s.setResult k r).lastTicket = s.lastTicket := rfl
@[simp] theorem State.setResult_results (k : BitVec 4) (r : Result) : (s.setResult k r).results = s.results.set k.toNat r k.isLt := rfl
@[simp] theorem State.setResult_mem (k : BitVec 4) (r : Result) : (s.setResult k r).mem = s.mem := rfl
@[simp] theorem State.setResult_phy (k : BitVec 4) (r : Result) : (s.setResult k r).phy = s.phy := rfl
@[simp] theorem State.setResult_actions (k : BitVec 4) (r : Result) : (s.setResult k r).actions = s.actions := rfl
@[simp] theorem State.setResult_traffic (k : BitVec 4) (r : Result) : (s.setResult k r).traffic = s.traffic := rfl
@[simp] theorem State.setResult_faults (k : BitVec 4) (r : Result) : (s.setResult k r).faults = s.faults := rfl
@[simp] theorem State.setResult_readData (k : BitVec 4) (r : Result) : (s.setResult k r).readData = s.readData := rfl
@[simp] theorem State.setResult_loadData (k : BitVec 4) (r : Result) : (s.setResult k r).loadData = s.loadData := rfl
@[simp] theorem State.setResult_inputs (k : BitVec 4) (r : Result) : (s.setResult k r).inputs = s.inputs := rfl
@[simp] theorem State.setResult_params (k : BitVec 4) (r : Result) : (s.setResult k r).params = s.params := rfl
@[simp] theorem State.setResult_slot (k : BitVec 4) (r : Result) (q : BitVec 4) : (s.setResult k r).slot q = s.slot q := rfl
@[simp] theorem State.setResult_cur (k : BitVec 4) (r : Result) : (s.setResult k r).cur = s.cur := rfl
@[simp] theorem State.setResult_baddr (k : BitVec 4) (r : Result) (j : BitVec 16) : (s.setResult k r).baddr j = s.baddr j := rfl
@[simp] theorem State.setResult_beginPos (k : BitVec 4) (r : Result) : (s.setResult k r).beginPos = s.beginPos := rfl
@[simp] theorem State.setResult_endPos (k : BitVec 4) (r : Result) : (s.setResult k r).endPos = s.endPos := rfl
@[simp] theorem State.setResult_count (k : BitVec 4) (r : Result) : (s.setResult k r).count = s.count := rfl
@[simp] theorem State.setResult_owed (k : BitVec 4) (r : Result) : (s.setResult k r).owed = s.owed := rfl

@[simp] theorem State.emit_descPtr (a : Action) : (s.emit a).descPtr = s.descPtr := rfl
@[simp] theorem State.emit_descLen (a : Action) : (s.emit a).descLen = s.descLen := rfl
@[simp] theorem State.emit_slots (a : Action) : (s.emit a).slots = s.slots := rfl
@[simp] theorem State.emit_beginSeq (a : Action) : (s.emit a).beginSeq = s.beginSeq := rfl
@[simp] theorem State.emit_endSeq (a : Action) : (s.emit a).endSeq = s.endSeq := rfl
@[simp] theorem State.emit_idle (a : Action) : (s.emit a).idle = s.idle := rfl
@[simp] theorem State.emit_phase (a : Action) : (s.emit a).phase = s.phase := rfl
@[simp] theorem State.emit_curByte (a : Action) : (s.emit a).curByte = s.curByte := rfl
@[simp] theorem State.emit_retries (a : Action) : (s.emit a).retries = s.retries := rfl
@[simp] theorem State.emit_enqStatus (a : Action) : (s.emit a).enqStatus = s.enqStatus := rfl
@[simp] theorem State.emit_lastTicket (a : Action) : (s.emit a).lastTicket = s.lastTicket := rfl
@[simp] theorem State.emit_results (a : Action) : (s.emit a).results = s.results := rfl
@[simp] theorem State.emit_mem (a : Action) : (s.emit a).mem = s.mem := rfl
@[simp] theorem State.emit_phy (a : Action) : (s.emit a).phy = s.phy := rfl
@[simp] theorem State.emit_actions (a : Action) : (s.emit a).actions = s.actions ++ [a] := rfl
@[simp] theorem State.emit_traffic (a : Action) : (s.emit a).traffic = s.traffic := rfl
@[simp] theorem State.emit_faults (a : Action) : (s.emit a).faults = s.faults := rfl
@[simp] theorem State.emit_readData (a : Action) : (s.emit a).readData = s.readData := rfl
@[simp] theorem State.emit_loadData (a : Action) : (s.emit a).loadData = s.loadData := rfl
@[simp] theorem State.emit_inputs (a : Action) : (s.emit a).inputs = s.inputs := rfl
@[simp] theorem State.emit_params (a : Action) : (s.emit a).params = s.params := rfl
@[simp] theorem State.emit_slot (a : Action) (q : BitVec 4) : (s.emit a).slot q = s.slot q := rfl
@[simp] theorem State.emit_result (a : Action) (q : BitVec 4) : (s.emit a).result q = s.result q := rfl
@[simp] theorem State.emit_cur (a : Action) : (s.emit a).cur = s.cur := rfl
@[simp] theorem State.emit_baddr (a : Action) (j : BitVec 16) : (s.emit a).baddr j = s.baddr j := rfl
@[simp] theorem State.emit_beginPos (a : Action) : (s.emit a).beginPos = s.beginPos := rfl
@[simp] theorem State.emit_endPos (a : Action) : (s.emit a).endPos = s.endPos := rfl
@[simp] theorem State.emit_count (a : Action) : (s.emit a).count = s.count := rfl

@[simp] theorem State.recordFault_descPtr (f : ModelFault) : (s.recordFault f).descPtr = s.descPtr := rfl
@[simp] theorem State.recordFault_descLen (f : ModelFault) : (s.recordFault f).descLen = s.descLen := rfl
@[simp] theorem State.recordFault_slots (f : ModelFault) : (s.recordFault f).slots = s.slots := rfl
@[simp] theorem State.recordFault_beginSeq (f : ModelFault) : (s.recordFault f).beginSeq = s.beginSeq := rfl
@[simp] theorem State.recordFault_endSeq (f : ModelFault) : (s.recordFault f).endSeq = s.endSeq := rfl
@[simp] theorem State.recordFault_idle (f : ModelFault) : (s.recordFault f).idle = s.idle := rfl
@[simp] theorem State.recordFault_phase (f : ModelFault) : (s.recordFault f).phase = s.phase := rfl
@[simp] theorem State.recordFault_curByte (f : ModelFault) : (s.recordFault f).curByte = s.curByte := rfl
@[simp] theorem State.recordFault_retries (f : ModelFault) : (s.recordFault f).retries = s.retries := rfl
@[simp] theorem State.recordFault_enqStatus (f : ModelFault) : (s.recordFault f).enqStatus = s.enqStatus := rfl
@[simp] theorem State.recordFault_lastTicket (f : ModelFault) : (s.recordFault f).lastTicket = s.lastTicket := rfl
@[simp] theorem State.recordFault_results (f : ModelFault) : (s.recordFault f).results = s.results := rfl
@[simp] theorem State.recordFault_mem (f : ModelFault) : (s.recordFault f).mem = s.mem := rfl
@[simp] theorem State.recordFault_phy (f : ModelFault) : (s.recordFault f).phy = s.phy := rfl
@[simp] theorem State.recordFault_actions (f : ModelFault) : (s.recordFault f).actions = s.actions := rfl
@[simp] theorem State.recordFault_traffic (f : ModelFault) : (s.recordFault f).traffic = s.traffic := rfl
@[simp] theorem State.recordFault_faults (f : ModelFault) : (s.recordFault f).faults = s.faults ++ [f] := rfl
@[simp] theorem State.recordFault_readData (f : ModelFault) : (s.recordFault f).readData = s.readData := rfl
@[simp] theorem State.recordFault_loadData (f : ModelFault) : (s.recordFault f).loadData = s.loadData := rfl
@[simp] theorem State.recordFault_inputs (f : ModelFault) : (s.recordFault f).inputs = s.inputs := rfl
@[simp] theorem State.recordFault_params (f : ModelFault) : (s.recordFault f).params = s.params := rfl
@[simp] theorem State.recordFault_slot (f : ModelFault) (q : BitVec 4) : (s.recordFault f).slot q = s.slot q := rfl
@[simp] theorem State.recordFault_result (f : ModelFault) (q : BitVec 4) : (s.recordFault f).result q = s.result q := rfl
@[simp] theorem State.recordFault_cur (f : ModelFault) : (s.recordFault f).cur = s.cur := rfl
@[simp] theorem State.recordFault_baddr (f : ModelFault) (j : BitVec 16) : (s.recordFault f).baddr j = s.baddr j := rfl
@[simp] theorem State.recordFault_beginPos (f : ModelFault) : (s.recordFault f).beginPos = s.beginPos := rfl
@[simp] theorem State.recordFault_endPos (f : ModelFault) : (s.recordFault f).endPos = s.endPos := rfl
@[simp] theorem State.recordFault_count (f : ModelFault) : (s.recordFault f).count = s.count := rfl
@[simp] theorem State.recordFault_owed (f : ModelFault) : (s.recordFault f).owed = s.owed := rfl

@[simp] theorem State.answered_descPtr : (s.answered).descPtr = s.descPtr := rfl
@[simp] theorem State.answered_descLen : (s.answered).descLen = s.descLen := rfl
@[simp] theorem State.answered_slots : (s.answered).slots = s.slots := rfl
@[simp] theorem State.answered_beginSeq : (s.answered).beginSeq = s.beginSeq := rfl
@[simp] theorem State.answered_endSeq : (s.answered).endSeq = s.endSeq := rfl
@[simp] theorem State.answered_idle : (s.answered).idle = s.idle := rfl
@[simp] theorem State.answered_phase : (s.answered).phase = s.phase := rfl
@[simp] theorem State.answered_curByte : (s.answered).curByte = s.curByte := rfl
@[simp] theorem State.answered_retries : (s.answered).retries = s.retries := rfl
@[simp] theorem State.answered_enqStatus : (s.answered).enqStatus = s.enqStatus := rfl
@[simp] theorem State.answered_lastTicket : (s.answered).lastTicket = s.lastTicket := rfl
@[simp] theorem State.answered_results : (s.answered).results = s.results := rfl
@[simp] theorem State.answered_mem : (s.answered).mem = s.mem := rfl
@[simp] theorem State.answered_phy : (s.answered).phy = { s.phy with outstanding := none } := rfl
@[simp] theorem State.answered_actions : (s.answered).actions = s.actions := rfl
@[simp] theorem State.answered_traffic : (s.answered).traffic = s.traffic := rfl
@[simp] theorem State.answered_faults : (s.answered).faults = s.faults := rfl
@[simp] theorem State.answered_readData : (s.answered).readData = s.readData := rfl
@[simp] theorem State.answered_loadData : (s.answered).loadData = s.loadData := rfl
@[simp] theorem State.answered_inputs : (s.answered).inputs = s.inputs := rfl
@[simp] theorem State.answered_params : (s.answered).params = s.params := rfl
@[simp] theorem State.answered_slot  (q : BitVec 4) : (s.answered).slot q = s.slot q := rfl
@[simp] theorem State.answered_result  (q : BitVec 4) : (s.answered).result q = s.result q := rfl
@[simp] theorem State.answered_cur : (s.answered).cur = s.cur := rfl
@[simp] theorem State.answered_baddr (j : BitVec 16) : (s.answered).baddr j = s.baddr j := rfl
@[simp] theorem State.answered_beginPos : (s.answered).beginPos = s.beginPos := rfl
@[simp] theorem State.answered_endPos : (s.answered).endPos = s.endPos := rfl
@[simp] theorem State.answered_count : (s.answered).count = s.count := rfl

@[simp] theorem State.perform_descPtr (a : Action) : (s.perform a).descPtr = s.descPtr := rfl
@[simp] theorem State.perform_descLen (a : Action) : (s.perform a).descLen = s.descLen := rfl
@[simp] theorem State.perform_slots (a : Action) : (s.perform a).slots = s.slots := rfl
@[simp] theorem State.perform_beginSeq (a : Action) : (s.perform a).beginSeq = s.beginSeq := rfl
@[simp] theorem State.perform_endSeq (a : Action) : (s.perform a).endSeq = s.endSeq := rfl
@[simp] theorem State.perform_idle (a : Action) : (s.perform a).idle = s.idle := rfl
@[simp] theorem State.perform_phase (a : Action) : (s.perform a).phase = s.phase := rfl
@[simp] theorem State.perform_curByte (a : Action) : (s.perform a).curByte = s.curByte := rfl
@[simp] theorem State.perform_retries (a : Action) : (s.perform a).retries = s.retries := rfl
@[simp] theorem State.perform_enqStatus (a : Action) : (s.perform a).enqStatus = s.enqStatus := rfl
@[simp] theorem State.perform_lastTicket (a : Action) : (s.perform a).lastTicket = s.lastTicket := rfl
@[simp] theorem State.perform_results (a : Action) : (s.perform a).results = s.results := rfl
@[simp] theorem State.perform_mem (a : Action) : (s.perform a).mem = s.mem := rfl
@[simp] theorem State.perform_phy (a : Action) : (s.perform a).phy = { driving := a.drives s.phy.driving, outstanding := a.after s.phy.outstanding } := rfl
@[simp] theorem State.perform_actions (a : Action) : (s.perform a).actions = s.actions := rfl
@[simp] theorem State.perform_traffic (a : Action) : (s.perform a).traffic = s.traffic ++ [a] := rfl
@[simp] theorem State.perform_faults (a : Action) : (s.perform a).faults = s.faults := rfl
@[simp] theorem State.perform_readData (a : Action) : (s.perform a).readData = s.readData := rfl
@[simp] theorem State.perform_loadData (a : Action) : (s.perform a).loadData = s.loadData := rfl
@[simp] theorem State.perform_inputs (a : Action) : (s.perform a).inputs = s.inputs := rfl
@[simp] theorem State.perform_params (a : Action) : (s.perform a).params = s.params := rfl
@[simp] theorem State.perform_slot (a : Action) (q : BitVec 4) : (s.perform a).slot q = s.slot q := rfl
@[simp] theorem State.perform_result (a : Action) (q : BitVec 4) : (s.perform a).result q = s.result q := rfl
@[simp] theorem State.perform_cur (a : Action) : (s.perform a).cur = s.cur := rfl
@[simp] theorem State.perform_baddr (a : Action) (j : BitVec 16) : (s.perform a).baddr j = s.baddr j := rfl
@[simp] theorem State.perform_beginPos (a : Action) : (s.perform a).beginPos = s.beginPos := rfl
@[simp] theorem State.perform_endPos (a : Action) : (s.perform a).endPos = s.endPos := rfl
@[simp] theorem State.perform_count (a : Action) : (s.perform a).count = s.count := rfl

@[simp] theorem State.retired_descPtr (c : ResultCode) (x : BitVec 16) : (s.retired c x).descPtr = s.descPtr := rfl
@[simp] theorem State.retired_descLen (c : ResultCode) (x : BitVec 16) : (s.retired c x).descLen = s.descLen := rfl
@[simp] theorem State.retired_slots (c : ResultCode) (x : BitVec 16) : (s.retired c x).slots = s.slots := rfl
@[simp] theorem State.retired_beginSeq (c : ResultCode) (x : BitVec 16) : (s.retired c x).beginSeq = s.beginSeq + 1 := rfl
@[simp] theorem State.retired_endSeq (c : ResultCode) (x : BitVec 16) : (s.retired c x).endSeq = s.endSeq := rfl
@[simp] theorem State.retired_idle (c : ResultCode) (x : BitVec 16) : (s.retired c x).idle = s.idle := rfl
@[simp] theorem State.retired_phase (c : ResultCode) (x : BitVec 16) : (s.retired c x).phase = .stop := rfl
@[simp] theorem State.retired_curByte (c : ResultCode) (x : BitVec 16) : (s.retired c x).curByte = s.curByte := rfl
@[simp] theorem State.retired_retries (c : ResultCode) (x : BitVec 16) : (s.retired c x).retries = s.retries := rfl
@[simp] theorem State.retired_enqStatus (c : ResultCode) (x : BitVec 16) : (s.retired c x).enqStatus = s.enqStatus := rfl
@[simp] theorem State.retired_lastTicket (c : ResultCode) (x : BitVec 16) : (s.retired c x).lastTicket = s.lastTicket := rfl
@[simp] theorem State.retired_results (c : ResultCode) (x : BitVec 16) : (s.retired c x).results = s.results.set s.beginPos.toNat { code := c, failIndex := x } s.beginPos.isLt := rfl
@[simp] theorem State.retired_mem (c : ResultCode) (x : BitVec 16) : (s.retired c x).mem = s.mem := rfl
@[simp] theorem State.retired_phy (c : ResultCode) (x : BitVec 16) : (s.retired c x).phy = s.phy := rfl
@[simp] theorem State.retired_actions (c : ResultCode) (x : BitVec 16) : (s.retired c x).actions = s.actions := rfl
@[simp] theorem State.retired_traffic (c : ResultCode) (x : BitVec 16) : (s.retired c x).traffic = s.traffic := rfl
@[simp] theorem State.retired_faults (c : ResultCode) (x : BitVec 16) : (s.retired c x).faults = s.faults := rfl
@[simp] theorem State.retired_readData (c : ResultCode) (x : BitVec 16) : (s.retired c x).readData = s.readData := rfl
@[simp] theorem State.retired_loadData (c : ResultCode) (x : BitVec 16) : (s.retired c x).loadData = s.loadData := rfl
@[simp] theorem State.retired_inputs (c : ResultCode) (x : BitVec 16) : (s.retired c x).inputs = s.inputs := rfl
@[simp] theorem State.retired_params (c : ResultCode) (x : BitVec 16) : (s.retired c x).params = s.params := rfl
@[simp] theorem State.retired_slot (c : ResultCode) (x : BitVec 16) (q : BitVec 4) : (s.retired c x).slot q = s.slot q := rfl
@[simp] theorem State.retired_endPos (c : ResultCode) (x : BitVec 16) : (s.retired c x).endPos = s.endPos := rfl

@[simp] theorem State.accepted_descPtr (dir : Dir) : (s.accepted dir).descPtr = s.descPtr := rfl
@[simp] theorem State.accepted_descLen (dir : Dir) : (s.accepted dir).descLen = s.descLen := rfl
@[simp] theorem State.accepted_slots (dir : Dir) : (s.accepted dir).slots = s.slots.set s.endPos.toNat { ptr := s.descPtr, len := s.descLen.setWidth 16, dir := dir } s.endPos.isLt := rfl
@[simp] theorem State.accepted_beginSeq (dir : Dir) : (s.accepted dir).beginSeq = s.beginSeq := rfl
@[simp] theorem State.accepted_endSeq (dir : Dir) : (s.accepted dir).endSeq = s.endSeq + 1 := rfl
@[simp] theorem State.accepted_idle (dir : Dir) : (s.accepted dir).idle = s.idle := rfl
@[simp] theorem State.accepted_phase (dir : Dir) : (s.accepted dir).phase = s.phase := rfl
@[simp] theorem State.accepted_curByte (dir : Dir) : (s.accepted dir).curByte = s.curByte := rfl
@[simp] theorem State.accepted_retries (dir : Dir) : (s.accepted dir).retries = s.retries := rfl
@[simp] theorem State.accepted_enqStatus (dir : Dir) : (s.accepted dir).enqStatus = .ok := rfl
@[simp] theorem State.accepted_lastTicket (dir : Dir) : (s.accepted dir).lastTicket = s.endSeq := rfl
@[simp] theorem State.accepted_results (dir : Dir) : (s.accepted dir).results = s.results.set s.endPos.toNat { code := .none, failIndex := 0 } s.endPos.isLt := rfl
@[simp] theorem State.accepted_mem (dir : Dir) : (s.accepted dir).mem = s.mem := rfl
@[simp] theorem State.accepted_phy (dir : Dir) : (s.accepted dir).phy = s.phy := rfl
@[simp] theorem State.accepted_actions (dir : Dir) : (s.accepted dir).actions = s.actions := rfl
@[simp] theorem State.accepted_traffic (dir : Dir) : (s.accepted dir).traffic = s.traffic := rfl
@[simp] theorem State.accepted_faults (dir : Dir) : (s.accepted dir).faults = s.faults := rfl
@[simp] theorem State.accepted_readData (dir : Dir) : (s.accepted dir).readData = s.readData := rfl
@[simp] theorem State.accepted_loadData (dir : Dir) : (s.accepted dir).loadData = s.loadData := rfl
@[simp] theorem State.accepted_inputs (dir : Dir) : (s.accepted dir).inputs = s.inputs := rfl
@[simp] theorem State.accepted_params (dir : Dir) : (s.accepted dir).params = s.params := rfl
@[simp] theorem State.accepted_beginPos (dir : Dir) : (s.accepted dir).beginPos = s.beginPos := rfl
@[simp] theorem State.accepted_owed (dir : Dir) : (s.accepted dir).owed = s.owed := rfl

/-! ## Catching up -/

/-- Performing a list of actions in order (R180). -/
theorem State.foldl_perform (l : List Action) : l.foldl State.perform s = { s with
    phy := { driving := l.foldl (fun d a => a.drives d) s.phy.driving, outstanding := l.foldl (fun o a => a.after o) s.phy.outstanding }
    traffic := s.traffic ++ l } := by
  induction l generalizing s with
  | nil => simp
  | cons a l ih => rw [List.foldl_cons, ih]; simp [State.perform, State.setPhy, State.setTraffic]

/-- All that the PHY's catching up writes: its own record, the traffic and what is still to perform. -/
theorem State.catchUp_eq : s.catchUp = { s with
    phy := { driving := s.actions.foldl (fun d a => a.drives d) s.phy.driving, outstanding := s.owed }
    actions := []
    traffic := s.traffic ++ s.actions } := State.foldl_perform _ _

@[simp] theorem State.catchUp_phy : s.catchUp.phy =
    { driving := s.actions.foldl (fun d a => a.drives d) s.phy.driving, outstanding := s.owed } := by rw [State.catchUp_eq]
@[simp] theorem State.catchUp_actions : s.catchUp.actions = [] := by rw [State.catchUp_eq]
@[simp] theorem State.catchUp_traffic : s.catchUp.traffic = s.traffic ++ s.actions := by rw [State.catchUp_eq]
@[simp] theorem State.catchUp_descPtr : s.catchUp.descPtr = s.descPtr := by rw [State.catchUp_eq]
@[simp] theorem State.catchUp_descLen : s.catchUp.descLen = s.descLen := by rw [State.catchUp_eq]
@[simp] theorem State.catchUp_slots : s.catchUp.slots = s.slots := by rw [State.catchUp_eq]
@[simp] theorem State.catchUp_beginSeq : s.catchUp.beginSeq = s.beginSeq := by rw [State.catchUp_eq]
@[simp] theorem State.catchUp_endSeq : s.catchUp.endSeq = s.endSeq := by rw [State.catchUp_eq]
@[simp] theorem State.catchUp_idle : s.catchUp.idle = s.idle := by rw [State.catchUp_eq]
@[simp] theorem State.catchUp_phase : s.catchUp.phase = s.phase := by rw [State.catchUp_eq]
@[simp] theorem State.catchUp_curByte : s.catchUp.curByte = s.curByte := by rw [State.catchUp_eq]
@[simp] theorem State.catchUp_retries : s.catchUp.retries = s.retries := by rw [State.catchUp_eq]
@[simp] theorem State.catchUp_enqStatus : s.catchUp.enqStatus = s.enqStatus := by rw [State.catchUp_eq]
@[simp] theorem State.catchUp_lastTicket : s.catchUp.lastTicket = s.lastTicket := by rw [State.catchUp_eq]
@[simp] theorem State.catchUp_results : s.catchUp.results = s.results := by rw [State.catchUp_eq]
@[simp] theorem State.catchUp_mem : s.catchUp.mem = s.mem := by rw [State.catchUp_eq]
@[simp] theorem State.catchUp_faults : s.catchUp.faults = s.faults := by rw [State.catchUp_eq]
@[simp] theorem State.catchUp_readData : s.catchUp.readData = s.readData := by rw [State.catchUp_eq]
@[simp] theorem State.catchUp_loadData : s.catchUp.loadData = s.loadData := by rw [State.catchUp_eq]
@[simp] theorem State.catchUp_inputs : s.catchUp.inputs = s.inputs := by rw [State.catchUp_eq]
@[simp] theorem State.catchUp_params : s.catchUp.params = s.params := by rw [State.catchUp_eq]
@[simp] theorem State.catchUp_cur : s.catchUp.cur = s.cur := by rw [State.catchUp_eq]; rfl
@[simp] theorem State.catchUp_beginPos : s.catchUp.beginPos = s.beginPos := by rw [State.catchUp_eq]; rfl
@[simp] theorem State.catchUp_endPos : s.catchUp.endPos = s.endPos := by rw [State.catchUp_eq]; rfl
@[simp] theorem State.catchUp_count : s.catchUp.count = s.count := by rw [State.catchUp_eq]; rfl
@[simp] theorem State.catchUp_slot (q : BitVec 4) : s.catchUp.slot q = s.slot q := by rw [State.catchUp_eq]; rfl
@[simp] theorem State.catchUp_result (q : BitVec 4) : s.catchUp.result q = s.result q := by rw [State.catchUp_eq]; rfl
@[simp] theorem State.catchUp_baddr (j : BitVec 16) : s.catchUp.baddr j = s.baddr j := by rw [State.catchUp_eq]; rfl
@[simp] theorem State.catchUp_owed : s.catchUp.owed = s.owed := by rw [State.catchUp_eq]; rfl

/-- The PHY raises an event in the state it finds, or in that state caught up. -/
theorem State.raising_cases (i : Instr) : s.raising i = s ∨ (s.owes i = true ∧ s.raising i = s.catchUp) := by
  cases h : s.owes i <;> simp [State.raising, h]

/-! The two register files: read after write. -/

@[simp] theorem State.setSlot_slot_same (k : BitVec 4) (d : Slot) : (s.setSlot k d).slot k = d := by
  simp [State.slot]

theorem State.setSlot_slot_other (k i : BitVec 4) (d : Slot) (h : k ≠ i) : (s.setSlot k d).slot i = s.slot i := by
  have h' : k.toNat ≠ i.toNat := fun e => h (BitVec.eq_of_toNat_eq e)
  simp [State.slot, h']

@[simp] theorem State.setResult_result_same (k : BitVec 4) (r : Result) : (s.setResult k r).result k = r := by
  simp [State.result]

theorem State.setResult_result_other (k i : BitVec 4) (r : Result) (h : k ≠ i) : (s.setResult k r).result i = s.result i := by
  have h' : k.toNat ≠ i.toNat := fun e => h (BitVec.eq_of_toNat_eq e)
  simp [State.result, h']

@[simp] theorem State.retired_result_same (c : ResultCode) (x : BitVec 16) :
    (s.retired c x).result s.beginPos = { code := c, failIndex := x } := State.setResult_result_same _ _ _

theorem State.retired_result_other (c : ResultCode) (x : BitVec 16) (k : BitVec 4) (h : k ≠ s.beginPos) :
    (s.retired c x).result k = s.result k := State.setResult_result_other _ _ _ _ (Ne.symm h)

@[simp] theorem State.accepted_slot_same (dir : Dir) : (s.accepted dir).slot s.endPos =
    { ptr := s.descPtr, len := s.descLen.setWidth 16, dir := dir } := State.setSlot_slot_same _ _ _

theorem State.accepted_slot_other (dir : Dir) (k : BitVec 4) (h : k ≠ s.endPos) : (s.accepted dir).slot k = s.slot k :=
  State.setSlot_slot_other _ _ _ _ (Ne.symm h)

@[simp] theorem State.accepted_result_same (dir : Dir) : (s.accepted dir).result s.endPos = { code := .none, failIndex := 0 } :=
  State.setResult_result_same _ _ _

theorem State.accepted_result_other (dir : Dir) (k : BitVec 4) (h : k ≠ s.endPos) :
    (s.accepted dir).result k = s.result k := State.setResult_result_other _ _ _ _ (Ne.symm h)

end Sys2Proof.Machine
end

