-- ==== Sys2Proof/Laws/Ops.lean ====
section
/-! SUPPORT. What each shared operation of Machine/Ops.lean and Machine/Operands.lean can do, said once. -/

namespace Sys2Proof.Machine

/-! ## settle -/

@[simp] theorem settle_ok (s t : State) : settle s (.ok t) = .next t := rfl
@[simp] theorem settle_error (s : State) (f : ModelFault) : settle s (.error f) = .next (s.recordFault f) := rfl

theorem settle_next (s : State) (r : Except ModelFault State) : ∃ t, settle s r = .next t := by
  cases r <;> exact ⟨_, rfl⟩

/-- A settled step is the handler's state, or the record alone (R238). -/
theorem settle_cases {s t : State} {r : Except ModelFault State} (h : settle s r = .next t) :
    r = .ok t ∨ ∃ f, r = .error f ∧ t = s.recordFault f := by
  cases r with
  | ok u => left; simpa using h
  | error f => right; exact ⟨f, rfl, by simpa using h.symm⟩

/-! ## The memory port -/

theorem memRead_mapped {s : State} {addr : Word} (h : mapped s.params.memMap addr = true) :
    memRead s addr = .ok (Memory.read s.mem addr.toNat) := by simp [memRead, h]

theorem memRead_unmapped {s : State} {addr : Word} (h : mapped s.params.memMap addr = false) :
    memRead s addr = .error (.memFault addr) := by simp [memRead, h]

theorem memRead_ok {s : State} {addr : Word} {b : Byte} (h : memRead s addr = .ok b) :
    mapped s.params.memMap addr = true ∧ b = Memory.read s.mem addr.toNat := by
  unfold memRead at h
  split at h
  · next hm => exact ⟨hm, by simpa using h.symm⟩
  · cases h

theorem memWrite_mapped {s : State} {addr : Word} (v : Byte) (h : mapped s.params.memMap addr = true) :
    memWrite s addr v = .ok (s.setMem (Memory.write s.mem addr.toNat v)) := by simp [memWrite, h]

theorem memWrite_unmapped {s : State} {addr : Word} (v : Byte) (h : mapped s.params.memMap addr = false) :
    memWrite s addr v = .error (.memFault addr) := by simp [memWrite, h]

theorem memWrite_ok {s t : State} {addr : Word} {v : Byte} (h : memWrite s addr v = .ok t) :
    mapped s.params.memMap addr = true ∧ t = s.setMem (Memory.write s.mem addr.toNat v) := by
  unfold memWrite at h
  split at h
  · next hm => exact ⟨hm, by simpa using h.symm⟩
  · cases h

/-! ## The PHY -/

@[simp] theorem State.emit_owed (s : State) (a : Action) : (s.emit a).owed = a.after s.owed := by
  simp [State.owed, List.foldl_append]

/-- Performing the oldest action leaves what is owed as it was (R186). -/
theorem State.perform_owed {s : State} {a : Action} {rest : List Action} (h : s.actions = a :: rest) :
    ((s.setActions rest).perform a).owed = s.owed := by
  simp [State.owed, State.perform, h]

/-- Nothing but the PHY's outstanding operation changes when it answers. -/
theorem State.answered_eq (s : State) : s.answered = { s with phy := { s.phy with outstanding := none } } := rfl

theorem State.perform_eq (s : State) (a : Action) :
    s.perform a = { s with
      phy := { driving := a.drives s.phy.driving, outstanding := a.after s.phy.outstanding }
      traffic := s.traffic ++ [a] } := rfl

/-- After an action that sets or clears the outstanding operation, what was owed before does not matter. -/
theorem Action.after_fresh {a : Action} (h : a ≠ .start) (o o' : Option PhyOp) : a.after o = a.after o' := by
  cases a <;> first | rfl | exact absurd rfl h

/-! ## The queue's positions -/

@[simp] theorem State.baddr_zero (s : State) : s.baddr 0 = s.cur.ptr := by simp [State.baddr]

/-- The slot of the next sequence number is the next slot, mod 16. -/
theorem slotOf_succ (b : Word) : slotOf (b + 1) = slotOf b + 1 := by
  apply BitVec.eq_of_toNat_eq
  simp [slotOf, BitVec.toNat_setWidth, BitVec.toNat_add]

/-- The positions differ by COUNT mod 16 (R28). -/
theorem slotOf_sub (e b : Word) : slotOf e - slotOf b = slotOf (e - b) := by
  apply BitVec.eq_of_toNat_eq
  simp [slotOf, BitVec.toNat_setWidth, BitVec.toNat_sub]
  omega

theorem State.occupied_iff (s : State) (i : BitVec 4) :
    s.occupied i = true ↔ (i - s.beginPos).toNat < s.count.toNat := by simp [State.occupied]

/-- The transaction in flight is in an occupied slot. -/
theorem State.occupied_beginPos {s : State} (h : s.count ≠ 0) : s.occupied s.beginPos = true := by
  rw [State.occupied_iff]
  have : s.count.toNat ≠ 0 := fun e => h (BitVec.eq_of_toNat_eq (by simpa using e))
  simp
  omega

/-- endPos is free unless the queue is full (R25, R115). -/
theorem State.occupied_endPos {s : State} (h : s.count.toNat < 16) : s.occupied s.endPos = false := by
  rw [Bool.eq_false_iff, Ne, State.occupied_iff]
  have e : s.endPos - s.beginPos = slotOf s.count := slotOf_sub s.endSeq s.beginSeq
  rw [e]
  simp [slotOf, BitVec.toNat_setWidth]
  omega

end Sys2Proof.Machine
end

