-- ==== Sys2Proof/Laws/Sequencer.lean ====
section
/-! SUPPORT. What each internal procedure and handler of Machine/Sequencer.lean can do, said once: its equation where the memory
port answers, and its inversion (if it is not discarded, then one of these). -/

namespace Sys2Proof.Machine

/-! ## Starting and ending a transaction -/

theorem startOp_mapped {s : State} (h : mapped s.params.memMap s.cur.ptr = true) :
    startOp s =
      .ok ((((s.emit .start).emit (.tx (Memory.read s.mem s.cur.ptr.toNat))).setCurByte 1).setPhase .addr) := by
  unfold startOp
  rw [State.baddr_zero, memRead_mapped h]

theorem startOp_unmapped {s : State} (h : mapped s.params.memMap s.cur.ptr = false) :
    startOp s = .error (.memFault s.cur.ptr) := by
  unfold startOp
  rw [State.baddr_zero, memRead_unmapped h]

/-- `startOp` (R132) is discarded, or emits START and the first byte and sets the cursor and the phase. -/
theorem startOp_ok {s t : State} (h : startOp s = .ok t) :
    mapped s.params.memMap s.cur.ptr = true ∧
      t = (((s.emit .start).emit (.tx (Memory.read s.mem s.cur.ptr.toNat))).setCurByte 1).setPhase .addr := by
  cases hm : mapped s.params.memMap s.cur.ptr with
  | false => rw [startOp_unmapped hm] at h; cases h
  | true => rw [startOp_mapped hm] at h; exact ⟨rfl, (Except.ok.inj h).symm⟩

/-- `nextOp` (R131) is `startOp` with the cursor and the retry count cleared. -/
theorem nextOp_ok {s t : State} (h : nextOp s = .ok t) :
    mapped s.params.memMap s.cur.ptr = true ∧
      t = ((((s.setRetries 0).emit .start).emit (.tx (Memory.read s.mem s.cur.ptr.toNat))).setCurByte 1).setPhase .addr := by
  obtain ⟨hm, rfl⟩ := startOp_ok h
  exact ⟨hm, rfl⟩

theorem nextOp_mapped {s : State} (h : mapped s.params.memMap s.cur.ptr = true) :
    nextOp s =
      .ok (((((s.setRetries 0).emit .start).emit (.tx (Memory.read s.mem s.cur.ptr.toNat))).setCurByte 1).setPhase .addr) := by
  unfold nextOp
  rw [startOp_mapped (by simpa using h)]
  rfl

theorem nextOp_unmapped {s : State} (h : mapped s.params.memMap s.cur.ptr = false) :
    nextOp s = .error (.memFault s.cur.ptr) := by
  unfold nextOp
  rw [startOp_unmapped (by simpa using h)]
  rfl

/-- After `retired` the transaction in flight is the next one of the queue. -/
theorem State.retired_cur (s : State) (code : ResultCode) (idx : BitVec 16) :
    (s.retired code idx).cur = s.slot (slotOf (s.beginSeq + 1)) := rfl

theorem retire_last {s : State} (code : ResultCode) (idx : BitVec 16) (h : s.endSeq = s.beginSeq + 1) :
    retire code idx s = .ok (((s.retired code idx).setIdle true).setPhase .idle) := if_pos h

theorem retire_more {s : State} (code : ResultCode) (idx : BitVec 16) (h : s.endSeq ≠ s.beginSeq + 1) :
    retire code idx s = nextOp (s.retired code idx) := if_neg h

/-- `retire` (R133) leaves the block idle when nothing is queued, and else starts the next transaction. -/
theorem retire_ok {code : ResultCode} {idx : BitVec 16} {s t : State} (h : retire code idx s = .ok t) :
    (s.endSeq = s.beginSeq + 1 ∧ t = ((s.retired code idx).setIdle true).setPhase .idle) ∨
      (s.endSeq ≠ s.beginSeq + 1 ∧ mapped s.params.memMap (s.slot (slotOf (s.beginSeq + 1))).ptr = true ∧
        t = (((((s.retired code idx).setRetries 0).emit .start).emit
          (.tx (Memory.read s.mem (s.slot (slotOf (s.beginSeq + 1))).ptr.toNat))).setCurByte 1).setPhase .addr) := by
  by_cases he : s.endSeq = s.beginSeq + 1
  · rw [retire_last code idx he] at h
    exact .inl ⟨he, (Except.ok.inj h).symm⟩
  · rw [retire_more code idx he] at h
    obtain ⟨hm, rfl⟩ := nextOp_ok h
    exact .inr ⟨he, hm, rfl⟩

/-! ## Sending and storing a byte -/

theorem sendByte_mapped {i : BitVec 16} {p : Phase} {s : State} (h : mapped s.params.memMap (s.baddr i) = true) :
    sendByte i p s =
      .ok (((s.emit (.tx (Memory.read s.mem (s.baddr i).toNat))).setCurByte (i + 1)).setPhase p) := by
  simp [sendByte, memRead_mapped h]

theorem sendByte_unmapped {i : BitVec 16} {p : Phase} {s : State} (h : mapped s.params.memMap (s.baddr i) = false) :
    sendByte i p s = .error (.memFault (s.baddr i)) := by
  simp [sendByte, memRead_unmapped h]

theorem sendByte_ok {i : BitVec 16} {p : Phase} {s t : State} (h : sendByte i p s = .ok t) :
    mapped s.params.memMap (s.baddr i) = true ∧
      t = ((s.emit (.tx (Memory.read s.mem (s.baddr i).toNat))).setCurByte (i + 1)).setPhase p := by
  cases hm : mapped s.params.memMap (s.baddr i) with
  | false => rw [sendByte_unmapped hm] at h; cases h
  | true => rw [sendByte_mapped hm] at h; exact ⟨rfl, (Except.ok.inj h).symm⟩

theorem storeByte_mapped {d : Byte} {s : State} (h : mapped s.params.memMap (s.baddr s.curByte) = true) :
    storeByte d s =
      .ok ((s.setMem (Memory.write s.mem (s.baddr s.curByte).toNat d)).setCurByte (s.curByte + 1)) := by
  simp [storeByte, memWrite_mapped d h]

theorem storeByte_unmapped {d : Byte} {s : State} (h : mapped s.params.memMap (s.baddr s.curByte) = false) :
    storeByte d s = .error (.memFault (s.baddr s.curByte)) := by
  simp [storeByte, memWrite_unmapped d h]

theorem storeByte_ok {d : Byte} {s t : State} (h : storeByte d s = .ok t) :
    mapped s.params.memMap (s.baddr s.curByte) = true ∧
      t = (s.setMem (Memory.write s.mem (s.baddr s.curByte).toNat d)).setCurByte (s.curByte + 1) := by
  cases hm : mapped s.params.memMap (s.baddr s.curByte) with
  | false => rw [storeByte_unmapped hm] at h; cases h
  | true => rw [storeByte_mapped hm] at h; exact ⟨rfl, (Except.ok.inj h).symm⟩

/-! ## What each event's handler can do -/

/-- TXC (R130): a byte sent, a repeated start, a first receive, or the end of the transaction. -/
theorem onTxc_ok {a : Ack} {s t : State} (h : onTxc a s = .ok t) :
    (s.phase = .addr ∨ s.phase = .writeData) ∧
    ((a = .nack ∧ retire .noack (s.curByte - 1) (s.answered.emit .stop) = .ok t) ∨
     (a = .ack ∧ s.cur.dir = .write ∧ s.curByte < s.cur.len ∧ sendByte s.curByte (phaseAfterTx s.curByte) s.answered = .ok t) ∨
     (a = .ack ∧ s.cur.dir = .write ∧ ¬ s.curByte < s.cur.len ∧ retire .ok 0 (s.answered.emit .stop) = .ok t) ∨
     (a = .ack ∧ s.cur.dir = .read ∧ s.curByte = 1 ∧ sendByte 1 s.phase s.answered = .ok t) ∨
     (a = .ack ∧ s.cur.dir = .read ∧ s.curByte = 2 ∧ t = (s.answered.emit .rstart).setPhase .restart) ∨
     (a = .ack ∧ s.cur.dir = .read ∧ s.curByte ≠ 1 ∧ s.curByte ≠ 2 ∧
       t = (s.answered.setPhase .readData).emit (.rx (ackFor s.cur.len 3)))) := by
  have key : (s.phase = .addr ∨ s.phase = .writeData) ∧ txComplete a s.answered = .ok t := by
    unfold onTxc at h
    cases hp : s.phase <;> simp [hp, spurious] at h ⊢ <;> exact h
  refine ⟨key.1, ?_⟩
  have h := key.2
  cases a with
  | nack => exact .inl ⟨rfl, h⟩
  | ack =>
    simp only [txComplete, txAck] at h
    cases hd : s.cur.dir with
    | write =>
      have hd' : s.answered.cur.dir = .write := hd
      simp only [hd', txAckWrite] at h
      split at h
      · next hl => exact .inr (.inl ⟨rfl, rfl, hl, h⟩)
      · next hl => exact .inr (.inr (.inl ⟨rfl, rfl, hl, h⟩))
    | read =>
      have hd' : s.answered.cur.dir = .read := hd
      simp only [hd'] at h
      split at h
      · next h1 => exact .inr (.inr (.inr (.inl ⟨rfl, rfl, h1, h⟩)))
      · next h1 =>
        split at h
        · next h2 =>
          simp only [txAckReadReg] at h
          exact .inr (.inr (.inr (.inr (.inl ⟨rfl, rfl, h2, (Except.ok.inj h).symm⟩))))
        · next h2 =>
          simp only [txAckReadReaddr] at h
          exact .inr (.inr (.inr (.inr (.inr ⟨rfl, rfl, h1, h2, (Except.ok.inj h).symm⟩))))

/-- REQ (R145): the re-address byte. -/
theorem onReq_ok {s t : State} (h : onReq s = .ok t) : s.phase = .restart ∧ sendByte 2 .addr s.answered = .ok t := by
  unfold onReq at h
  cases hp : s.phase <;> simp [hp, spurious, request] at h ⊢
  exact h

/-- RXC (R147, R148): the byte is stored, and then another one is asked for or the transaction ends. -/
theorem onRxc_ok {d : Byte} {s t : State} (h : onRxc d s = .ok t) :
    s.phase = .readData ∧ mapped s.params.memMap (s.baddr s.curByte) = true ∧
    ((s.curByte + 1 < s.cur.len ∧
        t = ((s.answered.setMem (Memory.write s.mem (s.baddr s.curByte).toNat d)).setCurByte (s.curByte + 1)).emit
          (.rx (ackFor s.cur.len (s.curByte + 1)))) ∨
     (¬ s.curByte + 1 < s.cur.len ∧
        retire .ok 0 (((s.answered.setMem (Memory.write s.mem (s.baddr s.curByte).toNat d)).setCurByte (s.curByte + 1)).emit
          .stop) = .ok t)) := by
  have key : s.phase = .readData ∧ rxComplete d s.answered = .ok t := by
    unfold onRxc at h
    cases hp : s.phase <;> simp [hp, spurious] at h ⊢
    exact h
  obtain ⟨hp, h⟩ := key
  unfold rxComplete at h
  split at h
  · next hl =>
    unfold rxMore at h
    split at h
    · cases h
    · next u hu =>
      obtain ⟨hm, rfl⟩ := storeByte_ok hu
      exact ⟨hp, hm, .inl ⟨hl, (Except.ok.inj h).symm⟩⟩
  · next hl =>
    unfold rxLast at h
    split at h
    · cases h
    · next u hu =>
      obtain ⟨hm, rfl⟩ := storeByte_ok hu
      exact ⟨hp, hm, .inr ⟨hl, h⟩⟩

/-- ARBL (R151, R152): a retry from byte 0, or the end of the transaction. -/
theorem onArbl_ok {s t : State} (h : onArbl s = .ok t) :
    s.phase ≠ .idle ∧
    ((s.retries < s.params.arbRetryMax ∧ startOp ((s.answered.emit .release).setRetries (s.retries + 1)) = .ok t) ∨
     (¬ s.retries < s.params.arbRetryMax ∧ retire .arbLost s.inProgress (s.answered.emit .release) = .ok t)) := by
  unfold onArbl at h
  split at h
  · cases h
  · next hp =>
    refine ⟨hp, ?_⟩
    split at h
    · next hr => exact .inl ⟨hr, h⟩
    · next hr => exact .inr ⟨hr, h⟩

/-- TMO (R154, R155): nothing in IDLE, and else the end of the transaction. -/
theorem onTmo_ok {s t : State} (h : onTmo s = .ok t) :
    (s.phase = .idle ∧ t = s) ∨ (s.phase ≠ .idle ∧ retire .timeout s.inProgress (s.emit .stop) = .ok t) := by
  unfold onTmo at h
  split at h
  · next hp => exact .inl ⟨hp, (Except.ok.inj h).symm⟩
  · next hp => exact .inr ⟨hp, h⟩

/-! ## An enqueue command -/

/-- The enqueue command (R104): a rejection, an acceptance while busy, or an acceptance that starts the transaction. -/
theorem enqueue_ok {dir : Dir} {s t : State} (h : enqueue dir s = .ok t) :
    (legalLen dir s.descLen = false ∧ t = s.setEnqStatus .badLength) ∨
    (legalLen dir s.descLen = true ∧ s.count = 16 ∧ t = s.setEnqStatus .queueFull) ∨
    (legalLen dir s.descLen = true ∧ s.count ≠ 16 ∧ s.idle = false ∧ t = s.accepted dir) ∨
    (legalLen dir s.descLen = true ∧ s.count ≠ 16 ∧ s.idle = true ∧ nextOp ((s.accepted dir).setIdle false) = .ok t) := by
  unfold enqueue at h
  split at h
  · next hl => exact .inl ⟨hl, (Except.ok.inj h).symm⟩
  · next hl =>
    have hl' : legalLen dir s.descLen = true := by simpa using hl
    split at h
    · next hc => exact .inr (.inl ⟨hl', hc, (Except.ok.inj h).symm⟩)
    · next hc =>
      split at h
      · next hi => exact .inr (.inr (.inr ⟨hl', hc, hi, h⟩))
      · next hi => exact .inr (.inr (.inl ⟨hl', hc, by simpa using hi, (Except.ok.inj h).symm⟩))

end Sys2Proof.Machine
end

