-- ==== Sys2Proof/Laws/Exec.lean ====
section
/-! SUPPORT. What exec and step can do, said once: exec settles one effect per operation, and a step is one of six shapes. -/

namespace Sys2Proof.Machine

/-- What an operation does if it is not discarded (R238). -/
def effect : Instr → State → Except ModelFault State
  | .wrDescPtr v, s => .ok (s.setDescPtr v)
  | .rdDescPtr, s => .ok (s.setReadData s.descPtr)
  | .wrDescLen v, s => .ok (s.setDescLen v)
  | .rdDescLen, s => .ok (s.setReadData s.descLen)
  | .enqWrite, s => enqueue .write s
  | .enqRead, s => enqueue .read s
  | .wrCmdReserved _, s => .ok (s.setEnqStatus .badCommand)
  | .rdStatus, s => .ok (s.setReadData s.statusWord)
  | .rdBeginSeq, s => .ok (s.setReadData s.beginSeq)
  | .rdEndSeq, s => .ok (s.setReadData s.endSeq)
  | .rdCurByte, s => .ok (s.setReadData (curByteWord s.curByte))
  | .rdEnqStatus, s => .ok (s.setReadData (enqStatusWord s.enqStatus))
  | .rdLastTicket, s => .ok (s.setReadData s.lastTicket)
  | .rdResult slot, s => .ok (s.setReadData (resultWord (s.result slot)))
  | .evTxc a, s => onTxc a s
  | .evRxc d, s => onRxc d s
  | .evReq, s => onReq s
  | .evArbl, s => onArbl s
  | .evTmo, s => onTmo s
  | .actStart, s => .ok (s.perform .start)
  | .actRstart, s => .ok (s.perform .rstart)
  | .actStop, s => .ok (s.perform .stop)
  | .actTx b, s => .ok (s.perform (.tx b))
  | .actRx a, s => .ok (s.perform (.rx a))
  | .actRelease, s => .ok (s.perform .release)

theorem exec_settle (i : Instr) (s : State) : exec i s = settle s (effect i s) := by cases i <;> rfl

/-- The PHY's operation for an action performs it (R180). -/
@[simp] theorem exec_toInstr (a : Action) (s : State) : exec a.toInstr s = .next (s.perform a) := by cases a <;> rfl

/-- An operation answers its effect, or the record alone (R238). -/
theorem exec_cases {i : Instr} {s t : State} (h : exec i s = .next t) :
    effect i s = .ok t ∨ ∃ f, effect i s = .error f ∧ t = s.recordFault f := settle_cases (exec_settle i s ▸ h)

/-- The shapes of an effect: a field of the host's, a command, the end or the middle of a transaction, an action performed. -/
theorem effect_cases {i : Instr} {s t : State} (h : effect i s = .ok t) :
    (∃ v, t = s.setDescPtr v ∨ t = s.setDescLen v ∨ t = s.setReadData v) ∨ t = s.setEnqStatus .badCommand ∨
    (∃ dir, (i = .enqWrite ∨ i = .enqRead) ∧ enqueue dir s = .ok t) ∨
    (∃ a, i = .evTxc a ∧ onTxc a s = .ok t) ∨ (∃ d, i = .evRxc d ∧ onRxc d s = .ok t) ∨ (i = .evReq ∧ onReq s = .ok t) ∨
    (i = .evArbl ∧ onArbl s = .ok t) ∨ (i = .evTmo ∧ onTmo s = .ok t) ∨
    (∃ a, t = s.perform a ∧ i = Action.toInstr a) := by
  cases i with
  | wrDescPtr v => exact .inl ⟨v, .inl (Except.ok.inj h).symm⟩
  | wrDescLen v => exact .inl ⟨v, .inr (.inl (Except.ok.inj h).symm)⟩
  | rdDescPtr | rdDescLen | rdStatus | rdBeginSeq | rdEndSeq | rdCurByte | rdEnqStatus | rdLastTicket =>
    exact .inl ⟨_, .inr (.inr (Except.ok.inj h).symm)⟩
  | rdResult slot => exact .inl ⟨_, .inr (.inr (Except.ok.inj h).symm)⟩
  | wrCmdReserved v => exact .inr (.inl (Except.ok.inj h).symm)
  | enqWrite => exact .inr (.inr (.inl ⟨.write, .inl rfl, h⟩))
  | enqRead => exact .inr (.inr (.inl ⟨.read, .inr rfl, h⟩))
  | evTxc a => exact .inr (.inr (.inr (.inl ⟨a, rfl, h⟩)))
  | evRxc d => exact .inr (.inr (.inr (.inr (.inl ⟨d, rfl, h⟩))))
  | evReq => exact .inr (.inr (.inr (.inr (.inr (.inl ⟨rfl, h⟩)))))
  | evArbl => exact .inr (.inr (.inr (.inr (.inr (.inr (.inl ⟨rfl, h⟩))))))
  | evTmo => exact .inr (.inr (.inr (.inr (.inr (.inr (.inr (.inl ⟨rfl, h⟩)))))))
  | actStart => exact .inr (.inr (.inr (.inr (.inr (.inr (.inr (.inr ⟨.start, (Except.ok.inj h).symm, rfl⟩)))))))
  | actRstart => exact .inr (.inr (.inr (.inr (.inr (.inr (.inr (.inr ⟨.rstart, (Except.ok.inj h).symm, rfl⟩)))))))
  | actStop => exact .inr (.inr (.inr (.inr (.inr (.inr (.inr (.inr ⟨.stop, (Except.ok.inj h).symm, rfl⟩)))))))
  | actTx b => exact .inr (.inr (.inr (.inr (.inr (.inr (.inr (.inr ⟨.tx b, (Except.ok.inj h).symm, rfl⟩)))))))
  | actRx a => exact .inr (.inr (.inr (.inr (.inr (.inr (.inr (.inr ⟨.rx a, (Except.ok.inj h).symm, rfl⟩)))))))
  | actRelease => exact .inr (.inr (.inr (.inr (.inr (.inr (.inr (.inr ⟨.release, (Except.ok.inj h).symm, rfl⟩)))))))

/-! ## Steps -/

/-- A host word that decodes is its operation, run as such or turned away. -/
theorem deliverHost_cases {w : BitVec 41} {s t : State} (h : deliverHost w s = .next t) :
    (∃ f, t = s.recordFault f) ∨ ∃ i, exec i s = .next t := by
  unfold deliverHost at h
  split at h
  · exact .inr ⟨_, h⟩
  · exact .inl ⟨_, by cases h; rfl⟩

/-- A step is the delivery of the head of the schedule (R6). -/
theorem step_head {s : State} {i : Input} {rest : List Input} (h : s.inputs = i :: rest) :
    step s = deliver i (s.setInputs rest) := by
  unfold step takeStep
  rw [h]

/-- With no step to come the machine waits. -/
theorem step_waits {s : State} (h : s.inputs = []) : step s = .next s := by
  unfold step takeStep
  rw [h]

/-- What a step can do (R6), once it is taken off the schedule; an operation runs there, or where the PHY has caught up. -/
theorem step_cases {s t : State} (h : step s = .next t) :
    (s.inputs = [] ∧ t = s) ∨
    ∃ i rest, s.inputs = i :: rest ∧
      ((t = s.setInputs rest ∨ (∃ f, t = (s.setInputs rest).recordFault f)) ∨
        (∃ op u, (u = s.setInputs rest ∨ u = (s.setInputs rest).catchUp) ∧ exec op u = .next t) ∨
        (∃ a more, s.actions = a :: more ∧ t = ((s.setInputs rest).setActions more).perform a) ∨
        (∃ (addr : Word) (v : Byte), t = (s.setInputs rest).setMem (Memory.write s.mem addr.toNat v)) ∨
        ∃ v, t = (s.setInputs rest).setLoadData v) := by
  unfold step takeStep at h
  split at h
  · next hi => exact .inl ⟨hi, by cases h; rfl⟩
  · next i rest hi =>
    refine .inr ⟨i, rest, hi, ?_⟩
    cases i with
    | host w =>
      rcases deliverHost_cases h with ⟨f, h⟩ | ⟨op, h⟩
      · exact .inl (.inr ⟨f, h⟩)
      · exact .inr (.inl ⟨op, _, .inl rfl, h⟩)
    | bus a =>
      replace h : deliverBus a (s.setInputs rest) = .next t := h
      unfold deliverBus at h
      split at h
      · split at h
        · rcases deliverHost_cases h with ⟨f, h⟩ | ⟨op, h⟩
          · exact .inl (.inr ⟨f, h⟩)
          · exact .inr (.inl ⟨op, _, .inl rfl, h⟩)
        · exact .inl (.inr ⟨_, by cases h; rfl⟩)
        · exact .inl (.inr ⟨_, by cases h; rfl⟩)
      · exact .inl (.inl (by cases h; rfl))
    | event w =>
      replace h : deliverEvent w (s.setInputs rest) = .next t := h
      unfold deliverEvent at h
      split at h
      · split at h
        · cases h
        · next op _ _ => exact .inr (.inl ⟨op, _, (State.raising_cases _ op).imp_right And.right, h⟩)
      · exact .inl (.inr ⟨_, by cases h; rfl⟩)
    | perform =>
      replace h : deliverPerform (s.setInputs rest) = .next t := h
      unfold deliverPerform at h
      split at h
      · exact .inl (.inl (by cases h; rfl))
      · next a more ha =>
        rw [exec_toInstr] at h
        exact .inr (.inr (.inl ⟨a, more, ha, by cases h; rfl⟩))
    | store addr v => exact .inr (.inr (.inr (.inl ⟨addr, v, by cases h; rfl⟩)))
    | load addr => exact .inr (.inr (.inr (.inr ⟨_, by cases h; rfl⟩)))

end Sys2Proof.Machine
end

