-- ==== Sys2Proof/Laws/Words.lean ====
section
/-! SUPPORT. The fields of every word the model builds: port words (R71, R75, R77) and the words a host read returns (R73). -/

namespace Sys2Proof

/-! ## Fields of a concatenation -/

theorem extract_low {n m : Nat} (a : BitVec n) (b : BitVec m) {start len : Nat} (h : start + len ≤ m) :
    (a ++ b).extractLsb' start len = b.extractLsb' start len := BitVec.extractLsb'_append_eq_of_add_le h

theorem extract_high {n m : Nat} (a : BitVec n) (b : BitVec m) {start len : Nat} (h : m ≤ start) :
    (a ++ b).extractLsb' start len = a.extractLsb' (start - m) len := BitVec.extractLsb'_append_eq_of_le h

theorem extract_all {n : Nat} (a : BitVec n) : a.extractLsb' 0 n = a := BitVec.extractLsb'_eq_self

/-- A word cut in two at bit `m` and joined again is the word. -/
theorem append_extract (n m : Nat) (w : BitVec (n + m)) : w.extractLsb' m n ++ w.extractLsb' 0 m = w := by
  apply BitVec.eq_of_getLsbD_eq
  intro i hi
  rw [BitVec.getLsbD_append]
  split
  · next h => simp [h]
  · next h =>
    have h1 : m + (i - m) = i := by omega
    have h2 : i - m < n := by omega
    simp [h1, h2]

/-- A field of a field. -/
theorem extract_extract {w : Nat} (x : BitVec w) {a b n m : Nat} (h : b + m ≤ n) :
    (x.extractLsb' a n).extractLsb' b m = x.extractLsb' (a + b) m := by
  apply BitVec.eq_of_getLsbD_eq
  intro i hi
  have h1 : b + i < n := by omega
  simp [hi, h1, Nat.add_assoc]

theorem ofBool_getLsbD_zero (b : Bool) : (BitVec.ofBool b).getLsbD 0 = b := by cases b <;> rfl

/-! ## Port words -/

@[simp] theorem hostWData_hostWord (we : Bool) (off : BitVec 8) (v : Word) : hostWData (hostWord we off v) = v :=
  (extract_low (BitVec.ofBool we ++ off) v (by decide)).trans (extract_all v)

@[simp] theorem hostOffset_hostWord (we : Bool) (off : BitVec 8) (v : Word) : hostOffset (hostWord we off v) = off :=
  (extract_high (BitVec.ofBool we ++ off) v (by decide)).trans
    ((extract_low (BitVec.ofBool we) off (by decide)).trans (extract_all off))

@[simp] theorem hostWE_hostWord (we : Bool) (off : BitVec 8) (v : Word) : hostWE (hostWord we off v) = we := by
  have h : (hostWord we off v).getLsbD 40 = (BitVec.ofBool we).getLsbD 0 := by
    rw [hostWord, BitVec.getLsbD_append, if_neg (by decide), BitVec.getLsbD_append, if_neg (by decide)]
  exact h.trans (ofBool_getLsbD_zero we)

/-- A HOST word is its three fields (R71). -/
theorem hostWord_fields (w : BitVec 41) : hostWord (hostWE w) (hostOffset w) (hostWData w) = w := by
  have h1 : BitVec.ofBool (hostWE w) = w.extractLsb' 40 1 := by
    apply BitVec.eq_of_getLsbD_eq
    intro i hi
    have : i = 0 := by omega
    subst this
    rw [ofBool_getLsbD_zero]
    simp [hostWE]
  have h2 : BitVec.ofBool (hostWE w) ++ hostOffset w = w.extractLsb' 32 9 := by
    rw [h1, hostOffset]
    have e := append_extract 1 8 (w.extractLsb' 32 9)
    rw [extract_extract w (by decide), extract_extract w (by decide)] at e
    exact e
  unfold hostWord
  rw [h2]
  exact append_extract 9 32 w

@[simp] theorem wordKind_portWord (k : BitVec 3) (a : BitVec 1) (d : Byte) : wordKind (portWord k a d) = k :=
  (extract_high (k ++ a) d (by decide)).trans ((extract_high k a (by decide)).trans (extract_all k))

@[simp] theorem wordAckB_portWord (k : BitVec 3) (a : BitVec 1) (d : Byte) : wordAckB (portWord k a d) = a :=
  (extract_high (k ++ a) d (by decide)).trans ((extract_low k a (by decide)).trans (extract_all a))

@[simp] theorem wordData_portWord (k : BitVec 3) (a : BitVec 1) (d : Byte) : wordData (portWord k a d) = d :=
  (extract_low (k ++ a) d (by decide)).trans (extract_all d)

/-- An EVENT or ACTION word is its three fields (R75, R77). -/
theorem portWord_fields (w : BitVec 12) : portWord (wordKind w) (wordAckB w) (wordData w) = w := by
  have h2 : wordKind w ++ wordAckB w = w.extractLsb' 8 4 := by
    have e := append_extract 3 1 (w.extractLsb' 8 4)
    rw [extract_extract w (by decide), extract_extract w (by decide)] at e
    exact e
  unfold portWord
  rw [h2]
  exact append_extract 4 8 w

@[simp] theorem Ack.ofBit_bit (a : Ack) : Ack.ofBit a.bit = a := by cases a <;> rfl

@[simp] theorem Ack.bit_ofBit (b : BitVec 1) : (Ack.ofBit b).bit = b := by
  unfold Ack.ofBit
  split
  · next h => rw [h]; rfl
  · next h => revert h; revert b; decide

/-- Where every register is (R72). -/
@[simp] theorem regAt_offset (r : HostReg) : regAt r.offset = some r := by
  cases r with
  | result slot => revert slot; decide
  | descPtr | descLen | cmd | status | beginSeq | endSeq | curByte | enqStatus | lastTicket => decide

theorem offset_aligned (r : HostReg) : r.offset.extractLsb' 0 2 = 0b00#2 := by
  cases r with
  | result slot => revert slot; decide
  | descPtr | descLen | cmd | status | beginSeq | endSeq | curByte | enqStatus | lastTicket => decide

/-- The offset that selects a register is the register's (R72). -/
theorem offset_of_regAt {off : BitVec 8} {r : HostReg} (ha : off.extractLsb' 0 2 = 0b00#2) (h : regAt off = some r) :
    r.offset = off := by
  have key : ∀ off : BitVec 8, off.extractLsb' 0 2 = 0b00#2 →
      (regAt off).map HostReg.offset = none ∨ (regAt off).map HostReg.offset = some off := by decide
  have k := key off ha
  rw [h] at k
  simpa using k

/-- A HOST word with a register's offset is an access to it (R83). -/
theorem decodeHost_hostWord (we : Bool) (r : HostReg) (v : Word) :
    decodeHost (hostWord we r.offset v) = accessOf r we v := by
  simp [decodeHost, offset_aligned]

end Sys2Proof

namespace Sys2Proof.Machine

/-! ## Words a host read returns -/

theorem resultWord_code (r : Result) : (resultWord r).extractLsb' 0 3 = r.code.code :=
  (extract_low (r.failIndex ++ 0#13) r.code.code (by decide)).trans (extract_all _)

theorem resultWord_reserved (r : Result) : (resultWord r).extractLsb' 3 13 = 0 :=
  (extract_high (r.failIndex ++ 0#13) r.code.code (by decide)).trans
    ((extract_low r.failIndex 0#13 (by decide)).trans (extract_all _))

theorem resultWord_failIndex (r : Result) : (resultWord r).extractLsb' 16 16 = r.failIndex :=
  (extract_high (r.failIndex ++ 0#13) r.code.code (by decide)).trans
    ((extract_high r.failIndex 0#13 (by decide)).trans (extract_all _))

/-- A narrow value in a 32-bit word: the value, and zeros above it. -/
theorem setWidth_low {n : Nat} (v : BitVec n) (h : n ≤ 32) : (v.setWidth 32).extractLsb' 0 n = v := by
  rw [BitVec.extractLsb'_setWidth_of_le (by omega)]
  exact extract_all v

theorem setWidth_high {n m : Nat} (v : BitVec n) : (v.setWidth 32).extractLsb' n m = 0 := by
  apply BitVec.eq_of_getLsbD_eq
  intro i _
  simp

/-! The STATUS word's fields (R37). -/

theorem statusWord_idle (s : State) : s.statusWord.extractLsb' 0 1 = BitVec.ofBool s.idle :=
  (extract_low (0#16 ++ s.retries ++ s.dirBit ++ s.phase.code ++ 0#1 ++ s.count.setWidth 5 ++ BitVec.ofBool s.full)
    (BitVec.ofBool s.idle) (by decide)).trans (extract_all _)

/-- The STATUS word without its bit 0. -/
theorem statusWord_above_idle (s : State) (start len : Nat) (h : 1 ≤ start) :
    s.statusWord.extractLsb' start len =
      (0#16 ++ s.retries ++ s.dirBit ++ s.phase.code ++ 0#1 ++ s.count.setWidth 5 ++
        BitVec.ofBool s.full).extractLsb' (start - 1) len :=
  extract_high (0#16 ++ s.retries ++ s.dirBit ++ s.phase.code ++ 0#1 ++ s.count.setWidth 5 ++ BitVec.ofBool s.full)
    (BitVec.ofBool s.idle) h

theorem statusWord_full (s : State) : s.statusWord.extractLsb' 1 1 = BitVec.ofBool s.full :=
  (statusWord_above_idle s 1 1 (by decide)).trans ((extract_low _ _ (by decide)).trans (extract_all _))

theorem statusWord_count (s : State) : s.statusWord.extractLsb' 2 5 = s.count.setWidth 5 :=
  (statusWord_above_idle s 2 5 (by decide)).trans ((extract_high _ _ (by decide)).trans
    ((extract_low _ _ (by decide)).trans (extract_all _)))

/-- The STATUS word from bit 7 up. -/
theorem statusWord_above_count (s : State) (start len : Nat) (h : 7 ≤ start) :
    s.statusWord.extractLsb' start len =
      (0#16 ++ s.retries ++ s.dirBit ++ s.phase.code ++ 0#1).extractLsb' (start - 7) len :=
  (statusWord_above_idle s start len (by omega)).trans ((extract_high _ _ (by omega)).trans
    ((extract_high _ _ (by omega)).trans (by rw [show start - 1 - 1 - 5 = start - 7 by omega])))

theorem statusWord_reserved (s : State) : s.statusWord.extractLsb' 7 1 = 0 :=
  (statusWord_above_count s 7 1 (by decide)).trans ((extract_low _ _ (by decide)).trans (extract_all _))

theorem statusWord_phase (s : State) : s.statusWord.extractLsb' 8 3 = s.phase.code :=
  (statusWord_above_count s 8 3 (by decide)).trans ((extract_high _ _ (by decide)).trans
    ((extract_low _ _ (by decide)).trans (extract_all _)))

theorem statusWord_dir (s : State) : s.statusWord.extractLsb' 11 1 = s.dirBit :=
  (statusWord_above_count s 11 1 (by decide)).trans ((extract_high _ _ (by decide)).trans
    ((extract_high _ _ (by decide)).trans ((extract_low _ _ (by decide)).trans (extract_all _))))

theorem statusWord_retries (s : State) : s.statusWord.extractLsb' 12 4 = s.retries :=
  (statusWord_above_count s 12 4 (by decide)).trans ((extract_high _ _ (by decide)).trans
    ((extract_high _ _ (by decide)).trans ((extract_high _ _ (by decide)).trans
      ((extract_low _ _ (by decide)).trans (extract_all _)))))

theorem statusWord_top (s : State) : s.statusWord.extractLsb' 16 16 = 0 :=
  (statusWord_above_count s 16 16 (by decide)).trans ((extract_high _ _ (by decide)).trans
    ((extract_high _ _ (by decide)).trans ((extract_high _ _ (by decide)).trans
      ((extract_high _ _ (by decide)).trans (extract_all _)))))

end Sys2Proof.Machine
end

