-- ==== Sys2Proof/Laws/PerInstr.lean ====
section
/-! SUPPORT. The fixed fields of every operation's word are those of its row of spec/opcode_table.json. -/

namespace Sys2Proof.Laws

/-- The fields that select an operation (R83): WE and OFFSET of a HOST word, KIND of an EVENT or ACTION word. -/
inductive RowKey where
  | host (we : Bool) (off : BitVec 8)
  | event (kind : BitVec 3)
  | action (kind : BitVec 3)
  deriving DecidableEq, Repr

/-- The selecting fields of a word. -/
def wordKey : PortWord → RowKey
  | .host w => .host (hostWE w) (hostOffset w)
  | .event w => .event (wordKind w)
  | .action w => .action (wordKind w)

/-- The selecting fields of an operation's row: bits 40 to 32 of a HOST row's match value, bits 11 to 9 of another's. -/
def rowKey : Instr → RowKey
  | .wrDescPtr _ => .host true 0x00
  | .rdDescPtr => .host false 0x00
  | .wrDescLen _ => .host true 0x04
  | .rdDescLen => .host false 0x04
  | .enqWrite => .host true 0x08
  | .enqRead => .host true 0x08
  | .wrCmdReserved _ => .host true 0x08
  | .rdStatus => .host false 0x0C
  | .rdBeginSeq => .host false 0x10
  | .rdEndSeq => .host false 0x14
  | .rdCurByte => .host false 0x18
  | .rdEnqStatus => .host false 0x1C
  | .rdLastTicket => .host false 0x20
  | .rdResult slot => .host false (0x40 + 4 * slot.setWidth 8)
  | .evTxc _ => .event 1
  | .evRxc _ => .event 2
  | .evReq => .event 3
  | .evArbl => .event 4
  | .evTmo => .event 5
  | .actStart => .action 1
  | .actRstart => .action 2
  | .actStop => .action 3
  | .actTx _ => .action 4
  | .actRx _ => .action 5
  | .actRelease => .action 6

/-- The word of the operation has its row's selecting fields. -/
def RowFields.Statement (i : Instr) : Prop := wordKey (encode i) = rowKey i

theorem RowFields.wrDescPtr (v : Word) : RowFields.Statement (.wrDescPtr v) := by
  simp [RowFields.Statement, encode, writeWord, HostReg.offset, wordKey, rowKey]
theorem RowFields.rdDescPtr : RowFields.Statement .rdDescPtr := by
  simp [RowFields.Statement, encode, readWord, HostReg.offset, wordKey, rowKey]
theorem RowFields.wrDescLen (v : Word) : RowFields.Statement (.wrDescLen v) := by
  simp [RowFields.Statement, encode, writeWord, HostReg.offset, wordKey, rowKey]
theorem RowFields.rdDescLen : RowFields.Statement .rdDescLen := by
  simp [RowFields.Statement, encode, readWord, HostReg.offset, wordKey, rowKey]
theorem RowFields.enqWrite : RowFields.Statement .enqWrite := by
  simp [RowFields.Statement, encode, writeWord, HostReg.offset, wordKey, rowKey]
theorem RowFields.enqRead : RowFields.Statement .enqRead := by
  simp [RowFields.Statement, encode, writeWord, HostReg.offset, wordKey, rowKey]
theorem RowFields.wrCmdReserved (v : Word) : RowFields.Statement (.wrCmdReserved v) := by
  simp [RowFields.Statement, encode, writeWord, HostReg.offset, wordKey, rowKey]
theorem RowFields.rdStatus : RowFields.Statement .rdStatus := by
  simp [RowFields.Statement, encode, readWord, HostReg.offset, wordKey, rowKey]
theorem RowFields.rdBeginSeq : RowFields.Statement .rdBeginSeq := by
  simp [RowFields.Statement, encode, readWord, HostReg.offset, wordKey, rowKey]
theorem RowFields.rdEndSeq : RowFields.Statement .rdEndSeq := by
  simp [RowFields.Statement, encode, readWord, HostReg.offset, wordKey, rowKey]
theorem RowFields.rdCurByte : RowFields.Statement .rdCurByte := by
  simp [RowFields.Statement, encode, readWord, HostReg.offset, wordKey, rowKey]
theorem RowFields.rdEnqStatus : RowFields.Statement .rdEnqStatus := by
  simp [RowFields.Statement, encode, readWord, HostReg.offset, wordKey, rowKey]
theorem RowFields.rdLastTicket : RowFields.Statement .rdLastTicket := by
  simp [RowFields.Statement, encode, readWord, HostReg.offset, wordKey, rowKey]
theorem RowFields.rdResult (slot : BitVec 4) : RowFields.Statement (.rdResult slot) := by
  revert slot
  unfold RowFields.Statement
  decide
theorem RowFields.evTxc (a : Ack) : RowFields.Statement (.evTxc a) := by
  simp [RowFields.Statement, encode, wordKey, rowKey]
theorem RowFields.evRxc (d : Byte) : RowFields.Statement (.evRxc d) := by
  simp [RowFields.Statement, encode, wordKey, rowKey]
theorem RowFields.evReq : RowFields.Statement .evReq := by
  simp [RowFields.Statement, encode, wordKey, rowKey]
theorem RowFields.evArbl : RowFields.Statement .evArbl := by
  simp [RowFields.Statement, encode, wordKey, rowKey]
theorem RowFields.evTmo : RowFields.Statement .evTmo := by
  simp [RowFields.Statement, encode, wordKey, rowKey]
theorem RowFields.actStart : RowFields.Statement .actStart := by
  simp [RowFields.Statement, encode, wordKey, rowKey]
theorem RowFields.actRstart : RowFields.Statement .actRstart := by
  simp [RowFields.Statement, encode, wordKey, rowKey]
theorem RowFields.actStop : RowFields.Statement .actStop := by
  simp [RowFields.Statement, encode, wordKey, rowKey]
theorem RowFields.actTx (b : Byte) : RowFields.Statement (.actTx b) := by
  simp [RowFields.Statement, encode, wordKey, rowKey]
theorem RowFields.actRx (a : Ack) : RowFields.Statement (.actRx a) := by
  simp [RowFields.Statement, encode, wordKey, rowKey]
theorem RowFields.actRelease : RowFields.Statement .actRelease := by
  simp [RowFields.Statement, encode, wordKey, rowKey]

end Sys2Proof.Laws
end

