-- ==== Sys2Proof/Tests/Slice0.lean ====
section
/-! SUPPORT. The model's own tests: well-formedness, words written out from spec/30_encoding.md, one step of each operation with
the results spec/95_test_vectors.md gives, and for every statement with hypotheses a state that meets them. -/

namespace Sys2Proof.Tests

open Sys2Proof Sys2Proof.Machine Sys2Proof.Certificates

/-! ## Helpers -/

/-- The outcome is a next state with the property. -/
def got (o : Host.Outcome State Fault Refusal) (p : State → Bool) : Bool :=
  match o with
  | .next t => p t
  | .fault _ => false
  | .refused _ => false

/-- MEM_MAP = [0x20000000, 0x20010000), ARB_RETRY_MAX = 1, the block at 0x40000000. -/
def platform : Params :=
  { arbRetryMax := 1, watchdogPresent := true, memMap := [⟨0x20000000, 0x10000⟩], blockPage := 0x400000 }

/-- After reset on that platform, with a buffer at 0x20000100. -/
def base : State :=
  { State.reset with
    params := platform
    mem := [(0x20000100, 0xA0), (0x20000101, 0x10), (0x20000102, 0xA1), (0x20000103, 0x22)] }

/-- `n` transactions pending, all of them `{ptr, len, dir}`, the first one in `phase` at `cur`. -/
def flying (ptr : Word) (dir : Dir) (len : BitVec 16) (phase : Phase) (cur : BitVec 16) (n : Word) : State :=
  { base with
    slots := Vector.replicate 16 { ptr := ptr, len := len, dir := dir }
    endSeq := n
    idle := false
    phase := phase
    curByte := cur }

/-- Writes and reads of the buffer at 0x20000100. -/
def writing : BitVec 16 → Phase → BitVec 16 → Word → State := flying 0x20000100 .write
def reading : BitVec 16 → Phase → BitVec 16 → Word → State := flying 0x20000100 .read

/-- The first transaction's buffer is in MEM_MAP, and every one behind it starts at 0x20010000, the first address outside. -/
def beforeUnmapped (dir : Dir) (len : BitVec 16) (phase : Phase) (cur : BitVec 16) : State :=
  (flying 0x20010000 dir len phase cur 2).setSlot 0 { ptr := 0x20000100, len := len, dir := dir }

/-- What an operation emits and where it leaves PHASE and CUR_BYTE. -/
def leaves (i : Instr) (s : State) (emitted : List Action) (phase : Phase) (cur : BitVec 16) : Bool :=
  got (exec i s) fun t => t.actions == s.actions ++ emitted && t.phase == phase && t.curByte == cur && t.faults == s.faults

/-- An operation ends the only transaction pending: idle, with this record. -/
def ends (i : Instr) (s : State) (last : Action) (code : ResultCode) (idx : BitVec 16) : Bool :=
  got (exec i s) fun t => t.actions == s.actions ++ [last] && t.idle && t.phase == .idle && t.beginSeq == s.beginSeq + 1 &&
    t.result s.beginPos == { code := code, failIndex := idx }

/-! ## Well-formedness: the one check, and a term it refuses for each value -/

theorem test_wellFormed_reserved_1 : wellFormed (.wrCmdReserved 1) = false := by decide
theorem test_wellFormed_reserved_2 : wellFormed (.wrCmdReserved 2) = false := by decide
theorem test_wellFormed_reserved_0_3 : wellFormed (.wrCmdReserved 0) = true ∧ wellFormed (.wrCmdReserved 3) = true := by decide

/-! ## Words (R71 to R78, V30-1 to V30-17) -/

theorem test_word_wrDescPtr : decode (.host 0x10020000100) = .ok (.wrDescPtr 0x20000100) := by decide
theorem test_word_rdDescPtr : decode (.host 0x00000000000) = .ok .rdDescPtr := by decide
theorem test_word_wrDescLen : decode (.host 0x10400000003) = .ok (.wrDescLen 3) := by decide
theorem test_word_rdDescLen : decode (.host 0x00400000000) = .ok .rdDescLen := by decide
theorem test_word_enqWrite : decode (.host 0x10800000001) = .ok .enqWrite := by decide
theorem test_word_enqRead : decode (.host 0x10800000002) = .ok .enqRead := by decide
theorem test_word_wrCmdReserved : decode (.host 0x10800000007) = .ok (.wrCmdReserved 7) := by decide
theorem test_word_rdStatus : decode (.host 0x00C00000000) = .ok .rdStatus := by decide
theorem test_word_rdBeginSeq : decode (.host 0x01000000000) = .ok .rdBeginSeq := by decide
theorem test_word_rdEndSeq : decode (.host 0x01400000000) = .ok .rdEndSeq := by decide
theorem test_word_rdCurByte : decode (.host 0x01800000000) = .ok .rdCurByte := by decide
theorem test_word_rdEnqStatus : decode (.host 0x01C00000000) = .ok .rdEnqStatus := by decide
theorem test_word_rdLastTicket : decode (.host 0x02000000000) = .ok .rdLastTicket := by decide
theorem test_word_rdResult : decode (.host 0x04400000000) = .ok (.rdResult 1) ∧
    decode (.host 0x07C00000000) = .ok (.rdResult 15) := by decide
theorem test_word_evTxc : decode (.event 0x200) = .ok (.evTxc .ack) ∧ decode (.event 0x300) = .ok (.evTxc .nack) := by decide
theorem test_word_evRxc : decode (.event 0x45A) = .ok (.evRxc 0x5A) ∧ decode (.event 0x4FF) = .ok (.evRxc 0xFF) := by decide
theorem test_word_evReq : decode (.event 0x600) = .ok .evReq := by decide
theorem test_word_evArbl : decode (.event 0x800) = .ok .evArbl := by decide
theorem test_word_evTmo : decode (.event 0xA00) = .ok .evTmo := by decide
theorem test_word_actStart : decode (.action 0x200) = .ok .actStart := by decide
theorem test_word_actRstart : decode (.action 0x400) = .ok .actRstart := by decide
theorem test_word_actStop : decode (.action 0x600) = .ok .actStop := by decide
theorem test_word_actTx : decode (.action 0x8A1) = .ok (.actTx 0xA1) := by decide
theorem test_word_actRx : decode (.action 0xA00) = .ok (.actRx .ack) ∧ decode (.action 0xB00) = .ok (.actRx .nack) := by decide
theorem test_word_actRelease : decode (.action 0xC00) = .ok .actRelease := by decide

/-- A read's WDATA is ignored (R71). -/
theorem test_word_read_wdata : decode (.host 0x00CFFFFFFFF) = .ok .rdStatus := by decide

/-- V30-18 to V30-24. -/
theorem test_word_illegal_events : decode (.event 0x000) = .error .eventReservedKind ∧
    decode (.event 0xC00) = .error .eventReservedKind ∧ decode (.event 0xE00) = .error .eventReservedKind ∧
    decode (.event 0x201) = .error .eventNonzeroField ∧ decode (.event 0x500) = .error .eventNonzeroField ∧
    decode (.event 0x601) = .error .eventNonzeroField ∧ decode (.event 0x900) = .error .eventNonzeroField := by decide

/-- V20-1 to V20-8. -/
theorem test_word_illegal_host : decode (.host 0x00800000000) = .error .hostWriteOnly ∧
    decode (.host 0x10C00000005) = .error .hostReadOnly ∧ decode (.host 0x11000000005) = .error .hostReadOnly ∧
    decode (.host 0x14000000005) = .error .hostReadOnly ∧ decode (.host 0x02400000000) = .error .hostUnmapped ∧
    decode (.host 0x03C00000000) = .error .hostUnmapped ∧ decode (.host 0x08000000000) = .error .hostUnmapped ∧
    decode (.host 0x00200000000) = .error .hostMisaligned := by decide

/-- R77, R78: ACTION words outside the table. -/
theorem test_word_illegal_actions : decode (.action 0x000) = .error .actionReservedKind ∧
    decode (.action 0xE00) = .error .actionReservedKind ∧ decode (.action 0x900) = .error .actionNonzeroField ∧
    decode (.action 0xA01) = .error .actionNonzeroField ∧ decode (.action 0x201) = .error .actionNonzeroField := by decide

/-! ## Words of spec/opcode_table.json, as the host numbers them -/

theorem test_table_host : decodeTableWord 48 0x10800000001 = some .enqWrite ∧
    decodeTableWord 48 0x4000000000 = some (.rdResult 0) ∧ decodeTableWord 48 (2 ^ 41) = none := by decide
theorem test_table_ports : decodeTableWord 16 0x200 = some (.evTxc .ack) ∧ decodeTableWord 16 0xC00 = some .actRelease ∧
    decodeTableWord 16 0x8A1 = some (.actTx 0xA1) ∧ decodeTableWord 16 0x1000 = none := by decide
theorem test_fetch_host : got (step (base.withFetchWord 48 0x10020000100)) (fun t => t.descPtr == 0x20000100) = true := by
  decide
theorem test_fetch_event : got (step (State.withFetchWord { base with params := { platform with watchdogPresent := false } } 16
    0xA00)) (fun t => t.idle && t.faults == []) = true := by decide
theorem test_fetch_action : got (step (base.withFetchWord 16 0xC00)) (fun t => t.traffic == [.release]) = true := by decide

/-! ## One step of each operation -/

/-- V40-15, V40-16. -/
theorem test_wrDescPtr : got (exec (.wrDescPtr 0x20000101) base) (fun t => t.descPtr == 0x20000101) = true := by decide
theorem test_rdDescPtr : got (exec .rdDescPtr { base with descPtr := 0x20000101 }) (fun t => t.readData == 0x20000101) = true :=
  by decide
theorem test_wrDescLen : got (exec (.wrDescLen 0x00010003) base) (fun t => t.descLen == 0x00010003) = true := by decide
theorem test_rdDescLen : got (exec .rdDescLen { base with descLen := 0x00010003 }) (fun t => t.readData == 0x00010003) = true :=
  by decide

/-- V41-1, V40-2; V40-8: a length is not truncated before it is checked. -/
theorem test_enqWrite_starts : leaves .enqWrite { base with descPtr := 0x20000100, descLen := 3 } [.start, .tx 0xA0] .addr 1 =
    true := by decide
theorem test_enqWrite_bad_length : got (exec .enqWrite { base with descLen := 0x00010003 })
    (fun t => t.enqStatus == .badLength && t.endSeq == 0 && t.idle) = true := by decide

/-- V40-4 and V40-5: the shortest read; V40-19: the counter wraps and slot 15 is used. -/
theorem test_enqRead_shortest : got (exec .enqRead { base with descPtr := 0x20000100, descLen := 3 })
      (fun t => t.enqStatus == .badLength) = true ∧
    leaves .enqRead { base with descPtr := 0x20000100, descLen := 4 } [.start, .tx 0xA0] .addr 1 = true := by decide
theorem test_enqRead_wrap : got (exec .enqRead { base with
      descPtr := 0x20000100, descLen := 4, beginSeq := 0xFFFFFFFF, endSeq := 0xFFFFFFFF })
    (fun t => t.endSeq == 0 && t.lastTicket == 0xFFFFFFFF && t.statusWord == 0x00000904 && (t.slot 15).ptr == 0x20000100) =
      true := by decide

/-- V40-14. -/
theorem test_wrCmdReserved : got (exec (.wrCmdReserved 0x80000001) base)
    (fun t => t.enqStatus == .badCommand && t.endSeq == 0 && t.faults == []) = true := by decide

/-- V43-10, V43-8. -/
theorem test_rdStatus_retries : got (exec .rdStatus { writing 2 .addr 1 1 with retries := 1 })
    (fun t => t.readData == 0x00001104) = true := by decide
theorem test_rdStatus_full : got (exec .rdStatus (writing 2 .addr 1 16)) (fun t => t.readData == 0x00000142) = true := by decide

theorem test_rdBeginSeq : got (exec .rdBeginSeq { base with beginSeq := 2, endSeq := 3 }) (fun t => t.readData == 2) = true := by
  decide
theorem test_rdEndSeq : got (exec .rdEndSeq { base with beginSeq := 2, endSeq := 3 }) (fun t => t.readData == 3) = true := by
  decide
theorem test_rdCurByte : got (exec .rdCurByte (reading 6 .readData 0xFFFE 1)) (fun t => t.readData == 0x0000FFFE) = true := by
  decide
theorem test_rdEnqStatus : got (exec .rdEnqStatus { base with enqStatus := .badCommand }) (fun t => t.readData == 4) = true := by
  decide
theorem test_rdLastTicket : got (exec .rdLastTicket { base with lastTicket := 0xF, endSeq := 0x10 })
    (fun t => t.readData == 0xF) = true := by decide

/-- V43-17, V43-15. -/
theorem test_rdResult_top : got (exec (.rdResult 15) (base.setResult 15 { code := .noack, failIndex := 0xFFFE }))
    (fun t => t.readData == 0xFFFE0002) = true := by decide
theorem test_rdResult_arb : got (exec (.rdResult 0) (base.setResult 0 { code := .arbLost, failIndex := 1 }))
    (fun t => t.readData == 0x00010003) = true := by decide

/-- V41-3, V41-11. -/
theorem test_evTxc_write : leaves (.evTxc .ack) (writing 3 .addr 2 1) [.tx 0xA1] .writeData 3 = true := by decide
theorem test_evTxc_read : leaves (.evTxc .ack) (reading 5 .addr 3 1) [.rx .ack] .readData 3 = true ∧
    leaves (.evTxc .ack) (reading 4 .addr 3 1) [.rx .nack] .readData 3 = true := by decide

/-- V41-12, V41-13. -/
theorem test_evRxc_more : leaves (.evRxc 0x5A) (reading 5 .readData 3 1) [.rx .nack] .readData 4 = true ∧
    got (exec (.evRxc 0x5A) (reading 5 .readData 3 1)) (fun t => Memory.read t.mem 0x20000103 == 0x5A) = true := by decide
theorem test_evRxc_last : ends (.evRxc 0x42) (reading 4 .readData 3 1) .stop .ok 0 = true := by decide

/-- V41-9, V41-39. -/
theorem test_evReq : leaves .evReq (reading 5 .restart 2 1) [.tx 0xA1] .addr 3 = true := by decide
theorem test_evReq_spurious : got (exec .evReq (reading 5 .addr 1 1))
    (fun t => t.faults == [.spuriousEvent 0x600 .addr] && t.phase == .addr) = true := by decide

/-- V41-15, V41-26. -/
theorem test_evArbl_retry : leaves .evArbl (writing 2 .addr 2 1) [.release, .start, .tx 0xA0] .addr 1 = true := by decide
theorem test_evArbl_fail : ends .evArbl { writing 4 .writeData 3 1 with retries := 1 } .release .arbLost 2 = true := by decide

/-- V41-17, V41-18. -/
theorem test_evTmo : ends .evTmo (reading 5 .restart 2 1) .stop .timeout 2 = true := by decide
theorem test_evTmo_idle : got (exec .evTmo base) (fun t => t == base) = true := by decide

/-- R181 to R185, R189, V42-2: what the PHY owes after each action. -/
theorem test_actStart : got (exec .actStart base) (fun t => t.phy == { driving := true, outstanding := none }) = true := by decide
theorem test_actRstart : got (exec .actRstart base) (fun t => t.phy.outstanding == some .rstart) = true := by decide
theorem test_actStop : got (exec .actStop { base with phy := { driving := true, outstanding := some (.tx 0xA0) } })
    (fun t => t.phy == { driving := false, outstanding := none }) = true := by decide
theorem test_actTx : got (exec (.actTx 0xA0) base) (fun t => t.phy.outstanding == some (.tx 0xA0)) = true := by decide
theorem test_actRx : got (exec (.actRx .nack) base) (fun t => t.phy.outstanding == some (.rx .nack)) = true := by decide
theorem test_actRelease : got (exec .actRelease { base with phy := { driving := true, outstanding := some (.rx .ack) } })
    (fun t => t.phy == { driving := false, outstanding := none }) = true := by decide

/-! ## Steps around the operations -/

/-- V41-46: a model fault discards the retire. -/
theorem test_fault_discards : got (exec (.evTxc .ack) (beforeUnmapped .write 1 .addr 1))
    (fun t => t == { beforeUnmapped .write 1 .addr 1 with faults := [.memFault 0x20010000] }) = true := by decide

/-- V20-12: a buffer wraps around the address space. -/
theorem test_wrap : got (exec (.evTxc .ack) { flying 0xFFFFFFFE .write 3 .addr 2 1 with
      mem := [(0, 0x55)], params := { platform with memMap := [⟨0, 1⟩, ⟨0xFFFFFFFE, 2⟩] } })
    (fun t => t.actions == [.tx 0x55] && t.curByte == 3) = true := by decide

/-- I-6: with no agent to move, the machine waits. -/
theorem test_waits : got (step base) (fun t => t == base) = true := by decide

/-- Log entry 14: a 32-bit access that begins 1 byte below the block. -/
theorem test_bus_below_block : got (step { base with inputs := [.bus ⟨0x3FFFFFFF, .word, true, 0xFFFFFFFF⟩] })
    (fun t => t == base) = true := by decide

/-- R156: no watchdog, no TMO. -/
theorem test_no_watchdog : step { base with inputs := [.event 0xA00], params := { platform with watchdogPresent := false } } =
    .refused .watchdogAbsent := rfl

/-! ## The hypotheses of every statement are met: one state per clause, at a boundary where the clause has one -/

theorem witness_DecodeOfEncode : wellFormed (.wrCmdReserved 0) = true ∧ wellFormed (.wrCmdReserved 3) = true ∧
    wellFormed (.rdResult 15) = true := by decide

theorem witness_EncodeOfDecode : decode (.host 0x00CFFFFFFFF) = .ok .rdStatus ∧ decode (.event 0x4FF) = .ok (.evRxc 0xFF) ∧
    decode (.action 0xB00) = .ok (.actRx .nack) := by decide

theorem witness_HostMapExactly : (∃ i, decode (.host 0x07C00000000) = .ok i) ∧
    (∃ e, decode (.host 0x08000000000) = .error e) ∧ ∃ e, decode (.host 0x02400000000) = .error e :=
  ⟨⟨.rdResult 15, by decide⟩, ⟨.hostUnmapped, by decide⟩, .hostUnmapped, by decide⟩

theorem witness_StepRunsDecodedWord :
    decode (.host 0x07C00000000) = .ok (.rdResult 15) ∧ decode (.event 0xA00) = .ok .evTmo ∧
    (Instr.evTmo = .evTmo → base.params.watchdogPresent = true) ∧
    ({ base with inputs := [.perform], actions := [.tx 0xA0] } : State).actions = .tx 0xA0 :: [] ∧
    decode (.event 0x200) = .ok (.evTxc .ack) ∧ base.owes .evTmo = false ∧ base.owes (.evTxc .ack) = false ∧
    ({ base with actions := [.start, .tx 0xA0] } : State).owes (.evTxc .ack) = true := by decide

theorem witness_IllegalHostAccessRecorded :
    decode (.host 0x00800000000) = .error .hostWriteOnly ∧ (hostOffset 0x00300000000).toNat % 4 ≠ 0 ∧
    (0x400000FF : Nat) = 256 * base.params.blockPage + (0xFF : BitVec 8).toNat ∧ HostWidth.half ≠ .word := by decide

theorem witness_BusAccessSelectsBlock :
    (0x40000000 : Nat) = 256 * base.params.blockPage + (0x00 : BitVec 8).toNat ∧
    (0x400000FF : Nat) = 256 * base.params.blockPage + (0xFF : BitVec 8).toNat ∧
    (0x3FFFFFFF : Nat) < 256 * base.params.blockPage ∧ 256 * base.params.blockPage + 256 ≤ (0x40000100 : Nat) := by decide

theorem witness_IllegalEventRecorded : decode (.event 0xE00) = .error .eventReservedKind := by decide

theorem witness_HostMemoryAccess :
    ({ base with inputs := [.store 0xFFFFFFFF 0, .load 0xFFFFFFFF] } : State).memCanonical ∧
    ({ base with inputs := [.load 0] } : State).inputs = .load 0 :: [] := by decide

theorem witness_TransmitByteReadLate_write :
    let s := { writing 3 .writeData 2 1 with inputs := [.store 0x20000102 0x55, .event 0x200] }
    s.memCanonical ∧ s.phase = .writeData ∧ s.cur.dir = .write ∧ s.curByte < s.cur.len ∧
      mapped s.params.memMap (s.baddr s.curByte) = true ∧ s.baddr s.curByte = 0x20000102 := by decide

theorem witness_TransmitByteReadLate_read :
    (let s := { flying 0x2000FFFE .read 4 .addr 1 1 with inputs := [.store 0x2000FFFF 0x55, .event 0x200] }
     s.memCanonical ∧ s.phase = .addr ∧ s.cur.dir = .read ∧ s.curByte = 1 ∧
       mapped s.params.memMap (s.cur.ptr + 1) = true ∧ s.cur.ptr + 1 = 0x2000FFFF) ∧
    (let s := { flying 0x2000FFFD .read 4 .restart 2 1 with inputs := [.store 0x2000FFFF 0x55, .event 0x600] }
     s.memCanonical ∧ s.phase = .restart ∧ mapped s.params.memMap (s.cur.ptr + 2) = true ∧ s.cur.ptr + 2 = 0x2000FFFF) := by
  decide

theorem witness_TransmitByteReadLate_enqueue :
    let s := { base with descPtr := 0x2000FFFF, descLen := 4, inputs := [.store 0x2000FFFF 0x55, .host 0x10800000002] }
    s.memCanonical ∧ legalLen .read s.descLen = true ∧ legalLen .write s.descLen = true ∧ s.idle = true ∧
      s.endSeq = s.beginSeq ∧ mapped s.params.memMap s.descPtr = true ∧ hostWord true 0x08 2 = 0x10800000002 := by decide

/-- The next transaction's buffer is at 0x20000200, away from the one in flight's. -/
def beforeOther (dir : Dir) (len : BitVec 16) (phase : Phase) (cur : BitVec 16) : State :=
  (flying 0x20000200 dir len phase cur 2).setSlot 0 { ptr := 0x20000100, len := len, dir := dir }

theorem witness_TransmitByteReadLate_retire :
    (let s := beforeOther .write 3 .writeData 3
     s.memCanonical ∧ ¬ lastPending s ∧ mapped s.params.memMap (nextSlot s).ptr = true ∧ s.phase = .writeData ∧
       s.cur.dir = .write ∧ s.cur.len ≤ s.curByte) ∧
    (let s := beforeOther .read 4 .readData 3
     s.memCanonical ∧ ¬ lastPending s ∧ mapped s.params.memMap (nextSlot s).ptr = true ∧ s.phase = .readData ∧
       s.curByte + 1 = s.cur.len ∧ mapped s.params.memMap (s.baddr s.curByte) = true ∧
       (nextSlot s).ptr ≠ s.baddr s.curByte) ∧
    (let s := { beforeOther .read 4 .restart 2 with retries := 1 }
     s.memCanonical ∧ ¬ lastPending s ∧ mapped s.params.memMap (nextSlot s).ptr = true ∧ s.phase ≠ .idle ∧
       s.retries = s.params.arbRetryMax ∧ s.params.watchdogPresent = true) := by decide

theorem witness_TransmitByteReadLate_retry :
    let s := { writing 3 .addr 2 1 with inputs := [.store 0x20000100 0x55, .event 0x800] }
    s.memCanonical ∧ s.phase ≠ .idle ∧ s.retries < s.params.arbRetryMax ∧ mapped s.params.memMap s.cur.ptr = true ∧
      s.cur.ptr = 0x20000100 := by decide

/-- R63 at the retry: the byte the host stored after the first attempt goes out. -/
theorem test_late_store_retry :
    got (step { writing 3 .addr 2 1 with inputs := [.store 0x20000100 0x55, .event 0x800] })
      (fun t => got (step t) fun u => u.actions == [.release, .start, .tx 0x55]) = true := by decide

theorem witness_EnqueueAfterResetRejected :
    (∀ v, Instr.rdStatus ≠ .wrDescLen v) ∧ (writing 2 .addr 1 16).descLen = 0 ∧ base.descLen = 0 :=
  ⟨nofun, by decide, by decide⟩

theorem witness_exec_next (i : Instr) : ∃ t, exec i base = .next t := by cases i <;> exact ⟨_, rfl⟩

/-- States that meet every invariant together: after reset, in each phase, and with the queue full. -/
abbrev good (s : State) : Prop :=
  s.Inv ∧ s.memCanonical ∧ s.owedExpected = true ∧ s.pendingUnrecorded ∧ s.failIndexClean ∧ s.ticketAgrees

theorem witness_invariants_reset : good base := by decide
theorem witness_invariants_full :
    good { writing 2 .addr 1 16 with
      actions := [.start, .tx 0xA0], enqStatus := .ok, lastTicket := 15, inputs := [.event 0x200] } := by decide
theorem witness_invariants_write :
    good { writing 3 .writeData 3 1 with phy := { driving := true, outstanding := some (.tx 0xA1) }, inputs := [.event 0x200] } := by
  decide
theorem witness_invariants_restart :
    good { reading 5 .restart 2 1 with phy := { driving := true, outstanding := some .rstart }, inputs := [.event 0x600] } := by
  decide
theorem witness_invariants_read :
    good { reading 5 .readData 4 1 with phy := { driving := true, outstanding := some (.rx .nack) }, inputs := [.event 0x45A] } := by
  decide

/-- And a step of each of those goes on. -/
theorem witness_StepKeeps (s : State) (h : s = writing 2 .addr 1 16 ∨ s = reading 5 .readData 4 1) :
    ∃ t, step { s with inputs := [.event 0xA00] } = .next t := by
  rcases h with rfl | rfl <;> exact ⟨_, rfl⟩

theorem witness_StatusSnapshotConsistent : base.Inv ∧ ∃ t, exec .rdStatus base = .next t := ⟨by decide, _, rfl⟩

theorem witness_ReservedCommandRejected : (0 : Word) ≠ 1 ∧ (0 : Word) ≠ 2 ∧ (3 : Word) ≠ 1 ∧ (3 : Word) ≠ 2 := by decide

theorem witness_EnqueueCommands_rejected :
    legalLen .write ({ base with descLen := 0 } : State).descLen = false ∧
    legalLen .read ({ base with descLen := 3 } : State).descLen = false ∧
    legalLen .write ({ base with descLen := 0x10000 } : State).descLen = false ∧
    (let s := { writing 2 .addr 1 16 with descLen := 1 }
     legalLen .write s.descLen = true ∧ s.endSeq - s.beginSeq = 16) := by decide

theorem witness_EnqueueCommands_busy :
    let s := { reading 5 .readData 3 15 with descLen := 0xFFFF }
    legalLen .write s.descLen = true ∧ legalLen .read s.descLen = true ∧ s.endSeq - s.beginSeq ≠ 16 ∧ s.idle = false := by decide

theorem witness_EnqueueCommands_idle :
    (let s := { base with descLen := 4, descPtr := 0x2000FFFF }
     legalLen .read s.descLen = true ∧ s.idle = true ∧ s.endSeq = s.beginSeq ∧ mapped s.params.memMap s.descPtr = true) ∧
    (let s := { base with descLen := 1, descPtr := 0x20010000 }
     legalLen .write s.descLen = true ∧ s.idle = true ∧ s.endSeq = s.beginSeq ∧ mapped s.params.memMap s.descPtr = false) := by
  decide

theorem witness_EnqueueFrame : ∃ t, exec (enqueueOf .read) { base with descPtr := 0x20000100, descLen := 4 } = .next t := ⟨_, rfl⟩

theorem witness_PendingSlotsImmutable :
    (writing 2 .addr 1 15).Inv ∧ (writing 2 .addr 1 15).occupied 14 = true ∧ (writing 2 .addr 1 15).occupied 15 = false := by decide

theorem witness_DoneExactly :
    ((20 - ({ writing 2 .addr 1 21 with beginSeq := 5 } : State).beginSeq).toNat <
      ({ writing 2 .addr 1 21 with beginSeq := 5 } : State).count.toNat) ∧
    ({ writing 2 .addr 1 21 with beginSeq := 5 } : State).Inv ∧ doneAt 20 5 = false ∧ doneAt 4 5 = true ∧
    doneAt 1 0xFFFFFFFE = false ∧ doneAt 0xFFFFFFFF 0 = true ∧
    doneAt (0 - BitVec.ofNat 32 (2 ^ 32 - 16)) 0 = true ∧ doneAt (0 - BitVec.ofNat 32 (2 ^ 32 - 15)) 0 = false := by decide

/-! Transmit complete -/

theorem witness_WriteAckSendsOrRetires_sends :
    (let s := writing 3 .addr 2 1
     s.phase = .addr ∧ s.cur.dir = .write ∧ s.curByte < s.cur.len ∧ mapped s.params.memMap (s.baddr s.curByte) = true) ∧
    (let s := flying 0x2000FFFE .write 4 .addr 2 1
     s.phase = .addr ∧ s.cur.dir = .write ∧ s.curByte < s.cur.len ∧ mapped s.params.memMap (s.baddr s.curByte) = false) := by
  decide

theorem witness_WriteAckSendsOrRetires_retires :
    (let s := writing 1 .addr 1 1
     s.phase = .addr ∧ s.cur.dir = .write ∧ s.cur.len ≤ s.curByte ∧ nextReadable s) ∧
    (let s := writing 3 .writeData 3 2
     s.phase = .writeData ∧ s.cur.dir = .write ∧ s.cur.len ≤ s.curByte ∧ ¬ lastPending s ∧ nextReadable s) := by decide

theorem witness_NackFailsTransaction :
    (let s := reading 4 .addr 3 1
     s.phase = .addr ∧ nextReadable s) ∧
    (let s := writing 0xFFFF .writeData 0xFFFF 2
     s.phase = .writeData ∧ nextReadable s) := by decide

theorem witness_ReadAddressAckSendsRegister :
    (let s := reading 4 .addr 1 1
     s.phase = .addr ∧ s.cur.dir = .read ∧ s.curByte = 1 ∧ mapped s.params.memMap (s.cur.ptr + 1) = true) ∧
    (let s := flying 0x2000FFFF .read 4 .addr 1 1
     s.phase = .addr ∧ s.cur.dir = .read ∧ s.curByte = 1 ∧ mapped s.params.memMap (s.cur.ptr + 1) = false) := by decide

theorem witness_ReadRegisterAckRestarts :
    let s := reading 4 .addr 2 1
    s.phase = .addr ∧ s.cur.dir = .read ∧ s.curByte = 2 := by decide

theorem witness_ReadReaddressAckReceives :
    let s := reading 4 .addr 3 1
    s.phase = .addr ∧ s.cur.dir = .read ∧ s.curByte = 3 := by decide

/-! Request and receive -/

theorem witness_RequestSendsReaddress :
    (let s := flying 0x2000FFFD .read 4 .restart 2 1
     s.phase = .restart ∧ mapped s.params.memMap (s.cur.ptr + 2) = true) ∧
    (let s := flying 0x2000FFFE .read 4 .restart 2 1
     s.phase = .restart ∧ mapped s.params.memMap (s.cur.ptr + 2) = false) := by decide

theorem witness_ReceiveStoresAndAsksForMore :
    (let s := flying 0x2000FFFC .read 5 .readData 3 1
     s.phase = .readData ∧ s.curByte + 1 < s.cur.len ∧ mapped s.params.memMap (s.baddr s.curByte) = true) ∧
    (let s := flying 0x2000FFFD .read 5 .readData 3 1
     s.phase = .readData ∧ s.curByte + 1 < s.cur.len ∧ mapped s.params.memMap (s.baddr s.curByte) = false) := by decide

theorem witness_ReceiveOfLastByteRetires :
    (let s := reading 4 .readData 3 1
     s.phase = .readData ∧ s.curByte + 1 = s.cur.len ∧ mapped s.params.memMap (s.baddr s.curByte) = true ∧ nextReadable s) ∧
    (let s := reading 4 .readData 3 2
     s.phase = .readData ∧ s.curByte + 1 = s.cur.len ∧ mapped s.params.memMap (s.baddr s.curByte) = true ∧ ¬ lastPending s ∧
       nextReadable s) ∧
    (let s := flying 0x2000FFFD .read 4 .readData 3 1
     s.phase = .readData ∧ s.curByte + 1 = s.cur.len ∧ mapped s.params.memMap (s.baddr s.curByte) = false) := by decide

theorem witness_MemoryFrame :
    (∃ t, exec (.evTxc .ack) (writing 3 .addr 2 1) = .next t) ∧
    (reading 4 .readData 3 1).memCanonical ∧ (reading 4 .readData 3 1).phase = .readData ∧
    ∃ t, exec (.evRxc 0) (reading 4 .readData 3 1) = .next t ∧ t.faults = (reading 4 .readData 3 1).faults :=
  ⟨⟨_, rfl⟩, by decide, rfl, _, rfl, rfl⟩

theorem witness_StoresOnlyToOwnedBytes :
    (reading 4 .readData 3 1).Inv ∧ ∃ t, exec (.evRxc 0x42) (reading 4 .readData 3 1) = .next t ∧
      Memory.read t.mem (0x20000103 : Word).toNat ≠ Memory.read (reading 4 .readData 3 1).mem (0x20000103 : Word).toNat :=
  ⟨by decide, _, rfl, by decide⟩

/-! Arbitration loss and timeout -/

theorem witness_ArbitrationLossRetries :
    (let s := flying 0x2000FFFF .write 2 .addr 2 1
     s.phase ≠ .idle ∧ s.retries < s.params.arbRetryMax ∧ mapped s.params.memMap s.cur.ptr = true) ∧
    (let s := flying 0x20010000 .write 2 .addr 2 1
     s.phase ≠ .idle ∧ s.retries < s.params.arbRetryMax ∧ mapped s.params.memMap s.cur.ptr = false) := by decide

theorem witness_FailIndexByPhase : (writing 3 .addr 1 1).inProgress = 0 ∧ (writing 3 .writeData 3 1).inProgress = 2 ∧
    (reading 5 .restart 2 1).inProgress = 2 ∧ (reading 6 .readData 4 1).inProgress = 4 := by decide

theorem witness_ArbitrationLossFails :
    (let s := { reading 5 .readData 4 1 with retries := 1 }
     s.phase ≠ .idle ∧ s.retries = s.params.arbRetryMax ∧ nextReadable s) ∧
    (let s := { writing 1 .addr 1 2 with retries := 1 }
     s.phase ≠ .idle ∧ s.retries = s.params.arbRetryMax ∧ ¬ lastPending s ∧ nextReadable s) := by decide

theorem witness_TimeoutStopsTransaction :
    (let s := reading 5 .restart 2 16
     s.phase ≠ .idle ∧ nextReadable s) ∧ base.phase = .idle := by decide

/-- The clauses of the statements on a retire whose next transaction starts at 0x20010000, the first address outside MEM_MAP. -/
theorem witness_nextUnreadable :
    (let s := beforeUnmapped .write 3 .writeData 3
     ¬ nextReadable s ∧ s.phase = .writeData ∧ s.cur.dir = .write ∧ s.cur.len ≤ s.curByte) ∧
    (let s := beforeUnmapped .read 4 .readData 3
     ¬ nextReadable s ∧ s.phase = .readData ∧ s.curByte + 1 = s.cur.len ∧
       mapped s.params.memMap (s.baddr s.curByte) = true) ∧
    (let s := { beforeUnmapped .read 4 .restart 2 with retries := 1 }
     ¬ nextReadable s ∧ s.phase ≠ .idle ∧ s.retries = s.params.arbRetryMax) := by decide

/-! Every event -/

theorem witness_SpuriousEventRecorded :
    (reading 5 .readData 3 1).phase ≠ .addr ∧ (reading 5 .readData 3 1).phase ≠ .writeData ∧
    (reading 5 .addr 1 1).phase ≠ .restart ∧ (reading 5 .restart 2 1).phase ≠ .readData ∧ base.phase = .idle := by decide

theorem witness_OwedAnswerNeverSpurious :
    let s := { reading 5 .readData 4 1 with phy := { driving := true, outstanding := some (.rx .nack) } }
    s.Inv ∧ s.owedExpected = true ∧ s.owes (.evRxc 0x5A) = true ∧ s.owes .evArbl = true ∧ s.phyMayRaise (.evRxc 0x5A) ∧
      s.phyMayRaise .evArbl :=
  ⟨by decide, by decide, by decide, by decide, ⟨rfl, .rx .nack, rfl, rfl⟩, rfl, .rx .nack, rfl, rfl⟩

/-- An answer owed for an action that is not performed yet: not one the PHY may raise before it has caught up. -/
theorem witness_OwedAnswerNeverSpurious_behind :
    let s := { reading 4 .restart 2 1 with actions := [.rstart] }
    s.Inv ∧ s.owedExpected = true ∧ s.owes .evReq = true ∧ ¬ s.phyMayRaise .evReq :=
  ⟨by decide, by decide, by decide, fun h => by cases h.1⟩

theorem witness_EventFrame : isEvent (.evTxc .nack) = true ∧ ∃ t, exec (.evTxc .nack) (writing 2 .addr 1 16) = .next t :=
  ⟨rfl, _, rfl⟩

theorem witness_RetireRecovers :
    (∃ t, exec .evTmo (writing 2 .addr 1 16) = .next t ∧ t.beginSeq = (writing 2 .addr 1 16).beginSeq + 1) ∧
    ∃ t, exec .evTmo (writing 2 .addr 1 1) = .next t ∧ t.beginSeq = (writing 2 .addr 1 1).beginSeq + 1 :=
  ⟨⟨_, rfl, rfl⟩, _, rfl, rfl⟩

/-! The PHY and whole transactions -/

theorem witness_ActionsPerformedInOrder :
    let s := { base with actions := [.stop, .start, .tx 0xA0], inputs := [.perform, .perform, .perform, .event 0x200] }
    s.inputs = List.replicate s.actions.length .perform ++ [.event 0x200] ∧ decode (.event 0x200) = .ok (.evTxc .ack) ∧
      s.owes (.evTxc .ack) = true := by decide

/-- R184, R158: the address byte is on the bus before its acknowledge is handled, which sends the next byte. -/
theorem test_answer_after_action :
    got (step { writing 3 .addr 1 1 with actions := [.start, .tx 0xA0], inputs := [.event 0x200] })
      (fun t => t.traffic == [.start, .tx 0xA0] && t.actions == [.tx 0x10]) = true := by decide

/-- R186, R136: an event of another kind than the owed one answers no action, and is spurious. -/
theorem test_wrong_answer :
    got (step { writing 3 .addr 1 1 with actions := [.start, .tx 0xA0], inputs := [.event 0x600] })
      (fun t => t.traffic == [] && t.faults == [.spuriousEvent 0x600 .addr]) = true := by decide

/-- The buffer of a transaction that ends at the last mapped byte, 0x2000FFFF, is in MEM_MAP. -/
theorem witness_bufferMapped (dir : Dir) (phase : Phase) (cur : BitVec 16) (n : Word) :
    (flying 0x2000FFFC dir 4 phase cur n).bufferMapped (flying 0x2000FFFC dir 4 phase cur n).cur := by
  intro i h
  replace h : i < 4 := h
  have h4 : i = 0 ∨ i = 1 ∨ i = 2 ∨ i = 3 := by bv_omega
  show mapped platform.memMap (0x2000FFFC + i.setWidth 32) = true
  rcases h4 with rfl | rfl | rfl | rfl <;> decide

theorem witness_WriteTransactionTraffic :
    let s := flying 0x2000FFFC .write 4 .addr 1 1
    s.phase = .addr ∧ s.cur.dir = .write ∧ s.curByte = 1 ∧ 1 ≤ s.cur.len ∧ s.bufferMapped s.cur ∧ nextReadable s :=
  ⟨rfl, rfl, rfl, by decide, witness_bufferMapped _ _ _ _, by decide⟩

theorem witness_ReadTransactionTraffic :
    (let s := flying 0x2000FFFC .read 4 .addr 1 1
     s.memCanonical ∧ s.phase = .addr ∧ s.cur.dir = .read ∧ s.curByte = 1 ∧ 1 ≤ [(0x5A : Byte)].length ∧
       s.cur.len.toNat = [(0x5A : Byte)].length + 3 ∧ s.bufferMapped s.cur ∧ lastPending s ∧ nextReadable s) ∧
    (let s := flying 0x2000FFFC .read 4 .addr 1 2
     s.memCanonical ∧ s.cur.len.toNat = [(0x5A : Byte)].length + 3 ∧ s.bufferMapped s.cur ∧ ¬ lastPending s ∧
       nextReadable s) :=
  ⟨⟨by decide, rfl, rfl, rfl, by decide, by decide, witness_bufferMapped _ _ _ _, by decide, by decide⟩,
    by decide, by decide, witness_bufferMapped _ _ _ _, by decide, by decide⟩

/-- The states meet R38 and the operation is not discarded: one for each way a transaction ends, and one that ends none. -/
theorem witness_TransactionEndsExactly :
    (let s := writing 1 .addr 1 1
     s.Inv ∧ endsTransaction (.evTxc .ack) s ∧ ∃ t, exec (.evTxc .ack) s = .next t ∧ t.faults = s.faults) ∧
    (let s := writing 4 .writeData 4 1
     s.Inv ∧ endsTransaction (.evTxc .nack) s ∧ ∃ t, exec (.evTxc .nack) s = .next t ∧ t.faults = s.faults) ∧
    (let s := reading 4 .readData 3 1
     s.Inv ∧ endsTransaction (.evRxc 0xFF) s ∧ ∃ t, exec (.evRxc 0xFF) s = .next t ∧ t.faults = s.faults) ∧
    (let s := { reading 5 .restart 2 1 with retries := 1 }
     s.Inv ∧ endsTransaction .evArbl s ∧ ∃ t, exec .evArbl s = .next t ∧ t.faults = s.faults) ∧
    (let s := reading 4 .addr 3 16
     s.Inv ∧ endsTransaction .evTmo s ∧ ∃ t, exec .evTmo s = .next t ∧ t.faults = s.faults) ∧
    (let s := writing 2 .addr 1 1
     s.Inv ∧ ¬ endsTransaction (.evTxc .ack) s ∧ ∃ t, exec (.evTxc .ack) s = .next t ∧ t.faults = s.faults) :=
  ⟨⟨by decide, .inl (by decide), _, rfl, rfl⟩, ⟨by decide, .inr (.inl (by decide)), _, rfl, rfl⟩,
    ⟨by decide, .inr (.inr (.inl ⟨⟨_, rfl⟩, by decide, by decide⟩)), _, rfl, rfl⟩,
    ⟨by decide, .inr (.inr (.inr (.inl (by decide)))), _, rfl, rfl⟩,
    ⟨by decide, .inr (.inr (.inr (.inr (by decide)))), _, rfl, rfl⟩,
    ⟨by decide, by simp [endsTransaction]; decide, _, rfl, rfl⟩⟩

theorem witness_ScheduleReturns :
    (legalLen .read 4 = true ∧ base.endSeq - base.beginSeq ≠ 16 ∧
      (base.idle = true → base.endSeq = base.beginSeq ∧ mapped base.params.memMap 0x20000100 = true)) ∧
    (legalLen .write 0xFFFF = true ∧ (writing 2 .addr 1 16).endSeq - (writing 2 .addr 1 16).beginSeq = 16) ∧
    legalLen .read 3 = false := by decide

theorem witness_ReadSyncReturns :
    (base.memCanonical ∧ base.endSeq - base.beginSeq ≠ 16 ∧
      (base.idle = true → base.endSeq = base.beginSeq ∧ mapped base.params.memMap 0x20000500 = true)) ∧
    doneAt 0 0 = false ∧ doneAt 0 1 = true := by decide

/-- R211 and R36: a NACK of the register byte, `{NOACK, 1}`, is returned as code 2. -/
theorem test_read_sync_code :
    (Proc.loading 0x20000500 (.completed 0x00010002)).resume 0 0x5A = .returned (.readByte (.code 2) 0x5A) := by decide

end Sys2Proof.Tests
end

/-! Proofs of the family 20_memory.md: illegal host accesses (R57, R72). -/

namespace Sys2Proof

/-- R57's alignment, as the decoder reads it off the two low bits. -/
theorem lowBits_eq_zero_iff (off : BitVec 8) : off.extractLsb' 0 2 = 0b00#2 ↔ off.toNat % 4 = 0 := by
  simp [← BitVec.toNat_inj, BitVec.extractLsb'_toNat]

theorem decodeHost_misaligned {w : BitVec 41} (h : (hostOffset w).toNat % 4 ≠ 0) :
    decodeHost w = .error .hostMisaligned :=
  if_pos (mt (lowBits_eq_zero_iff _).mp h)

end Sys2Proof

namespace Sys2Proof.Machine

theorem deliverHost_of_decode_error {w : BitVec 41} {e : DecodeError} (h : decodeHost w = .error e) (s : State) :
    deliverHost w s = .next (s.recordFault (.hostAccess (hostOffset w) (hostWE w) .word)) := by
  rw [deliverHost, h]

/-- BLOCK_BASE is 256-byte aligned (R5), so an address in the block keeps its offset in the low eight bits. -/
theorem ofNat_blockAddr (page : Nat) (off : BitVec 8) : BitVec.ofNat 8 (256 * page + off.toNat) = off := by
  apply BitVec.eq_of_toNat_eq
  rw [BitVec.toNat_ofNat, Nat.mul_add_mod, Nat.mod_eq_of_lt off.isLt]

/-- R57: the block takes no 8- or 16-bit access. -/
theorem deliverBus_narrow {a : BusAccess} {s : State} {off : BitVec 8}
    (haddr : a.addr = 256 * s.params.blockPage + off.toNat) (hw : a.width ≠ .word) :
    deliverBus a s = .next (s.recordFault (.hostAccess off a.we a.width)) := by
  have hin : 256 * s.params.blockPage ≤ a.addr ∧ a.addr < 256 * s.params.blockPage + 256 := by
    have := off.isLt
    omega
  have hoff : BitVec.ofNat 8 a.addr = off := by rw [haddr, ofNat_blockAddr]
  rw [deliverBus, if_pos hin, hoff]
  cases hwidth : a.width with
  | word => exact absurd hwidth hw
  | half => rfl
  | byte => rfl

/-- Settles O6: each access is the delivery of the schedule's head, which the decoder (R72, R57) or the width (R57) turns into
one entry of the fault record. -/
theorem illegalHostAccessRecorded : Obligations.IllegalHostAccessRecorded := by
  refine ⟨?undecoded, ?misaligned, ?narrow⟩
  case undecoded =>
    intro s w rest e hin hdec
    exact (step_head hin).trans (deliverHost_of_decode_error hdec _)
  case misaligned =>
    intro w h
    exact ⟨_, decodeHost_misaligned h⟩
  case narrow =>
    intro s a rest off hin haddr hw
    exact (step_head hin).trans (deliverBus_narrow haddr hw)

end Sys2Proof.Machine

/-! Proofs of the family 40_queue.md: the legal lengths (R102), the reserved command (R108), the enqueue commands (R104 to R107). -/

namespace Sys2Proof

/-- A write to CMD, at offset 0x08 (R72), is the command of its value (R101). -/
theorem decodeHost_cmd (v : Word) : decodeHost (hostWord true 0x08 v) = .ok (commandOf v) :=
  decodeHost_hostWord true .cmd v

theorem commandOf_reserved {v : Word} (h1 : v ≠ 1) (h2 : v ≠ 2) : commandOf v = .wrCmdReserved v := by
  rw [commandOf, if_neg h1, if_neg h2]

end Sys2Proof

namespace Sys2Proof.Machine

open Sys2Proof.Certificates

theorem legalLen_iff (dir : Dir) (len : Word) :
    legalLen dir len = true ↔ len.toNat ≤ 0xFFFF ∧ (minLen dir).toNat ≤ len.toNat := by
  simp [legalLen, BitVec.le_def]

/-- Settles O27: the bounds are those of `legalLen_iff`, with the least length of each direction. -/
theorem legalLengths : Obligations.LegalLengths := by
  intro dir len
  rw [legalLen_iff]
  cases dir with
  | write => simp [minLen]
  | read => simp [minLen]

/-- Settles O28: a value that is neither 1 nor 2 is no command of R101, and the reserved one writes ENQ_STATUS alone. -/
theorem reservedCommandRejected : Obligations.ReservedCommandRejected := by
  refine ⟨?decodes, ?rejected⟩
  case decodes =>
    intro v h1 h2
    exact (decodeHost_cmd v).trans (congrArg Except.ok (commandOf_reserved h1 h2))
  case rejected =>
    intro s v
    rfl

/-! ## The cases of an enqueue command (R103 to R105) -/

theorem exec_enqueueOf (dir : Dir) (s : State) : exec (enqueueOf dir) s = settle s (enqueue dir s) := by
  cases dir with
  | write => rfl
  | read => rfl

/-- What the statements say an accepted enqueue writes is what the model's does. -/
theorem accepted_eq_afterAccept (s : State) (dir : Dir) : s.accepted dir = afterAccept s dir := rfl

/-- In an empty queue the slot at endPos is the one at beginPos, so the accepted descriptor is the one to start. -/
theorem State.accepted_cur_of_empty {s : State} (dir : Dir) (h : s.endSeq = s.beginSeq) :
    (s.accepted dir).cur = { ptr := s.descPtr, len := s.descLen.setWidth 16, dir := dir } := by
  have hpos : (s.accepted dir).beginPos = s.endPos := by simp [State.beginPos, State.endPos, h]
  rw [State.cur, hpos, State.accepted_slot_same]

section
variable {s : State} {dir : Dir}

theorem enqueue_badLength (hlen : legalLen dir s.descLen = false) :
    enqueue dir s = .ok (s.setEnqStatus .badLength) := if_pos hlen

theorem enqueue_queueFull (hlen : legalLen dir s.descLen = true) (hfull : s.count = 16) :
    enqueue dir s = .ok (s.setEnqStatus .queueFull) := by
  rw [enqueue, if_neg (by simp [hlen]), if_pos hfull]

theorem enqueue_busy (hlen : legalLen dir s.descLen = true) (hroom : s.count ≠ 16) (hidle : s.idle = false) :
    enqueue dir s = .ok (s.accepted dir) := by
  rw [enqueue, if_neg (by simp [hlen]), if_neg hroom, if_neg (by simp [hidle])]

theorem enqueue_idle (hlen : legalLen dir s.descLen = true) (hroom : s.count ≠ 16) (hidle : s.idle = true) :
    enqueue dir s = nextOp ((s.accepted dir).setIdle false) := by
  rw [enqueue, if_neg (by simp [hlen]), if_neg hroom, if_pos hidle, startFromIdle]

theorem State.count_ne_full_of_empty (h : s.endSeq = s.beginSeq) : s.count ≠ 16 := by simp [State.count, h]

/-- R105: from idle the accepted descriptor's transaction starts in the same step. -/
theorem enqueue_idle_mapped (hlen : legalLen dir s.descLen = true) (hidle : s.idle = true) (hempty : s.endSeq = s.beginSeq)
    (hmap : mapped s.params.memMap s.descPtr = true) :
    enqueue dir s = .ok { afterAccept s dir with
      idle := false
      phase := .addr
      curByte := 1
      retries := 0
      actions := s.actions ++ [.start, .tx (Memory.read s.mem s.descPtr.toNat)] } := by
  have hcur := State.accepted_cur_of_empty dir hempty
  rw [enqueue_idle hlen (State.count_ne_full_of_empty hempty) hidle, nextOp_mapped (by simpa [hcur] using hmap)]
  congr 1
  ext1 <;> simp [hcur, ← accepted_eq_afterAccept]

/-- R105, R53: a first byte outside MEM_MAP discards the step. -/
theorem enqueue_idle_unmapped (hlen : legalLen dir s.descLen = true) (hidle : s.idle = true)
    (hempty : s.endSeq = s.beginSeq) (hmap : mapped s.params.memMap s.descPtr = false) :
    enqueue dir s = .error (.memFault s.descPtr) := by
  have hcur := State.accepted_cur_of_empty dir hempty
  rw [enqueue_idle hlen (State.count_ne_full_of_empty hempty) hidle, nextOp_unmapped (by simpa [hcur] using hmap)]
  simp [hcur]

end

/-- Settles O29: each clause is one case of `enqueue`, in R103's order, settled as its command's step. -/
theorem enqueueCommands : Obligations.EnqueueCommands := by
  refine ⟨?decodes, ?badLength, ?queueFull, ?busy, ?starts, ?discarded⟩
  case decodes =>
    intro dir
    cases dir with
    | write => exact decodeHost_cmd 1
    | read => exact decodeHost_cmd 2
  case badLength =>
    intro s dir hlen
    rw [exec_enqueueOf, enqueue_badLength hlen]
    rfl
  case queueFull =>
    intro s dir hlen hfull
    rw [exec_enqueueOf, enqueue_queueFull hlen hfull]
    rfl
  case busy =>
    intro s dir hlen hroom hidle
    rw [exec_enqueueOf, enqueue_busy hlen hroom hidle]
    rfl
  case starts =>
    intro s dir hlen hidle hempty hmap
    rw [exec_enqueueOf, enqueue_idle_mapped hlen hidle hempty hmap, settle_ok]
  case discarded =>
    intro s dir hlen hidle hempty hmap
    rw [exec_enqueueOf, enqueue_idle_unmapped hlen hidle hempty hmap]
    rfl

end Sys2Proof.Machine

/-! Proofs of the family 41_state_machine.md: every event in every phase (R130, R138 to R155). -/

namespace Sys2Proof.Machine

open Sys2Proof.Certificates

section
variable {s : State}

/-! ## Steps that end a transaction or send a byte, settled as the statements write them -/

/-- R133: with nothing queued, or a first byte that the block may read, the retire leaves what `afterRetire` says. -/
theorem retire_emit_readable (bus : Action) (code : ResultCode) (idx : BitVec 16) (h : nextReadable s) :
    retire code idx (s.emit bus) = .ok (afterRetire s bus code idx) := by
  by_cases hlast : s.endSeq = s.beginSeq + 1
  case pos =>
    rw [retire_last (s := s.emit bus) code idx hlast, afterRetire, if_pos hlast]
    rfl
  case neg =>
    have hmap : mapped s.params.memMap (nextSlot s).ptr = true := h.resolve_left hlast
    rw [retire_more (s := s.emit bus) code idx hlast, nextOp_mapped (s := (s.emit bus).retired code idx) hmap, afterRetire,
      if_neg hlast]
    refine congrArg Except.ok ?_
    ext1 <;> simp [State.retired_cur, nextSlot]

/-- R53, R132: a first byte of the next transaction outside MEM_MAP faults. -/
theorem retire_emit_unreadable (bus : Action) (code : ResultCode) (idx : BitVec 16) (h : ¬ nextReadable s) :
    retire code idx (s.emit bus) = .error (.memFault (nextSlot s).ptr) := by
  obtain ⟨hmore, hmap⟩ := not_or.mp h
  rw [retire_more (s := s.emit bus) code idx hmore,
    nextOp_unmapped (s := (s.emit bus).retired code idx) (Bool.eq_false_iff.mpr hmap)]
  rfl

theorem settle_retire_readable {t : State} {bus : Action} {code : ResultCode} {idx : BitVec 16} (h : nextReadable t) :
    settle s (retire code idx (t.emit bus)) = .next (afterRetire t bus code idx) := by
  rw [retire_emit_readable bus code idx h, settle_ok]

theorem settle_retire_unreadable {t : State} {bus : Action} {code : ResultCode} {idx : BitVec 16} (h : ¬ nextReadable t) :
    settle s (retire code idx (t.emit bus)) = .next (s.recordFault (.memFault (nextSlot t).ptr)) := by
  rw [retire_emit_unreadable bus code idx h, settle_error]

theorem settle_sendByte_mapped {i : BitVec 16} {p : Phase} (h : mapped s.params.memMap (s.baddr i) = true) :
    settle s (sendByte i p s.answered) = .next { answeredBy s with
      curByte := i + 1
      phase := p
      actions := s.actions ++ [.tx (Memory.read s.mem (s.baddr i).toNat)] } := by
  rw [sendByte_mapped (s := s.answered) h]
  rfl

theorem settle_sendByte_unmapped {i : BitVec 16} {p : Phase} (h : mapped s.params.memMap (s.baddr i) = false) :
    settle s (sendByte i p s.answered) = .next (s.recordFault (.memFault (s.baddr i))) := by
  rw [sendByte_unmapped (s := s.answered) h]
  rfl

/-! ## TXC: the rows of R130 -/

theorem exec_evTxc_expected (a : Ack) (h : s.phase = .addr ∨ s.phase = .writeData) :
    exec (.evTxc a) s = settle s (txComplete a s.answered) := by
  rw [exec_settle, effect, onTxc]
  rcases h with h | h <;> rw [h]

/-- R144. -/
theorem exec_evTxc_spurious (a : Ack) (haddr : s.phase ≠ .addr) (hwrite : s.phase ≠ .writeData) :
    exec (.evTxc a) s = .next (s.recordFault (.spuriousEvent (txcWord a) s.phase)) := by
  have hrow : onTxc a s = spurious (txcWord a) s := by
    rw [onTxc]
    cases hp : s.phase with
    | addr => exact absurd hp haddr
    | writeData => exact absurd hp hwrite
    | idle | readData | stop | restart => rfl
  rw [exec_settle, effect, hrow]
  rfl

/-- R143. -/
theorem exec_txNack (h : s.phase = .addr ∨ s.phase = .writeData) :
    exec (.evTxc .nack) s = settle s (retire .noack (s.curByte - 1) (s.answered.emit .stop)) :=
  exec_evTxc_expected .nack h

/-- R138, with a byte left. -/
theorem exec_txAckWrite_more (h : s.phase = .addr ∨ s.phase = .writeData) (hdir : s.cur.dir = .write)
    (hleft : s.curByte < s.cur.len) :
    exec (.evTxc .ack) s = settle s (sendByte s.curByte (phaseAfterTx s.curByte) s.answered) := by
  rw [exec_evTxc_expected .ack h, txComplete, txAck, State.answered_cur, hdir]
  exact congrArg (settle s) (if_pos hleft)

/-- R138, with none left. -/
theorem exec_txAckWrite_done (h : s.phase = .addr ∨ s.phase = .writeData) (hdir : s.cur.dir = .write)
    (hdone : s.cur.len ≤ s.curByte) :
    exec (.evTxc .ack) s = settle s (retire .ok 0 (s.answered.emit .stop)) := by
  rw [exec_evTxc_expected .ack h, txComplete, txAck, State.answered_cur, hdir]
  exact congrArg (settle s) (if_neg (BitVec.not_lt.mpr hdone))

theorem exec_txAck_read (h : s.phase = .addr) (hdir : s.cur.dir = .read) :
    exec (.evTxc .ack) s = settle s (if s.curByte = 1 then txAckReadAddr s.answered
      else if s.curByte = 2 then txAckReadReg s.answered else txAckReadReaddr s.answered) := by
  rw [exec_evTxc_expected .ack (.inl h), txComplete, txAck, State.answered_cur, hdir]
  rfl

/-- R139. -/
theorem exec_txAckReadAddr (h : s.phase = .addr) (hdir : s.cur.dir = .read) (hcur : s.curByte = 1) :
    exec (.evTxc .ack) s = settle s (sendByte 1 s.phase s.answered) := by
  rw [exec_txAck_read h hdir, if_pos hcur, txAckReadAddr, State.answered_phase]

/-! ## REQ -/

/-- R145. -/
theorem exec_evReq_expected (h : s.phase = .restart) : exec .evReq s = settle s (sendByte 2 .addr s.answered) := by
  rw [exec_settle, effect, onReq, h]
  rfl

/-- R146. -/
theorem exec_evReq_spurious (hrestart : s.phase ≠ .restart) :
    exec .evReq s = .next (s.recordFault (.spuriousEvent reqWord s.phase)) := by
  have hrow : onReq s = spurious reqWord s := by
    rw [onReq]
    cases hp : s.phase with
    | restart => exact absurd hp hrestart
    | idle | addr | writeData | readData | stop => rfl
  rw [exec_settle, effect, hrow]
  rfl

/-! ## RXC -/

theorem exec_evRxc_expected (d : Byte) (h : s.phase = .readData) :
    exec (.evRxc d) s = settle s (rxComplete d s.answered) := by
  rw [exec_settle, effect, onRxc, h]

/-- R149. -/
theorem exec_evRxc_spurious (d : Byte) (hread : s.phase ≠ .readData) :
    exec (.evRxc d) s = .next (s.recordFault (.spuriousEvent (rxcWord d) s.phase)) := by
  have hrow : onRxc d s = spurious (rxcWord d) s := by
    rw [onRxc]
    cases hp : s.phase with
    | readData => exact absurd hp hread
    | idle | addr | writeData | stop | restart => rfl
  rw [exec_settle, effect, hrow]
  rfl

/-- What a received byte's step has written before it looks at what comes next (R147, R148). -/
def byteStored (s : State) (d : Byte) : State :=
  { answeredBy s with
    mem := Memory.write s.mem (s.baddr s.curByte).toNat d
    curByte := s.curByte + 1 }

theorem storeByte_answered (d : Byte) (hmap : mapped s.params.memMap (s.baddr s.curByte) = true) :
    storeByte d s.answered = .ok (byteStored s d) :=
  storeByte_mapped (s := s.answered) hmap

/-- R147. -/
theorem exec_rxMore (d : Byte) (hp : s.phase = .readData) (hmore : s.curByte + 1 < s.cur.len)
    (hmap : mapped s.params.memMap (s.baddr s.curByte) = true) :
    exec (.evRxc d) s = .next ((byteStored s d).emit (.rx (ackFor s.cur.len (s.curByte + 1)))) := by
  have hrow : rxComplete d s.answered = rxMore d s.answered := if_pos hmore
  rw [exec_evRxc_expected d hp, hrow, rxMore, storeByte_answered d hmap]
  rfl

/-- R148. -/
theorem exec_rxLast (d : Byte) (hp : s.phase = .readData) (hlast : s.curByte + 1 = s.cur.len)
    (hmap : mapped s.params.memMap (s.baddr s.curByte) = true) :
    exec (.evRxc d) s = settle s (retire .ok 0 ((byteStored s d).emit .stop)) := by
  have hrow : rxComplete d s.answered = rxLast d s.answered := if_neg (BitVec.not_lt.mpr (BitVec.le_of_eq hlast.symm))
  rw [exec_evRxc_expected d hp, hrow, rxLast, storeByte_answered d hmap]

/-- R53: a store outside MEM_MAP discards the step, whichever row it was of. -/
theorem exec_evRxc_unmapped (d : Byte) (hp : s.phase = .readData)
    (hmap : mapped s.params.memMap (s.baddr s.curByte) = false) :
    exec (.evRxc d) s = .next (s.recordFault (.memFault (s.baddr s.curByte))) := by
  have hstore : storeByte d s.answered = .error (.memFault (s.baddr s.curByte)) :=
    storeByte_unmapped (s := s.answered) hmap
  rw [exec_evRxc_expected d hp, rxComplete, rxMore, rxLast, hstore]
  exact congrArg (settle s) (ite_self _)

/-- R135: the byte after `i + 1` is `i + 2`. -/
theorem ackFor_succ (len i : BitVec 16) : ackFor len (i + 1) = if i + 2 < len then .ack else .nack := by
  rw [ackFor, BitVec.add_assoc]
  rfl

/-! ## ARBL and TMO -/

/-- R151. -/
theorem exec_arbRetry (hp : s.phase ≠ .idle) (hr : s.retries < s.params.arbRetryMax) :
    exec .evArbl s = settle s (startOp ((s.answered.emit .release).setRetries (s.retries + 1))) := by
  rw [exec_settle, effect, onArbl, if_neg hp, if_pos hr]
  rfl

/-- R152. -/
theorem exec_arbFail (hp : s.phase ≠ .idle) (hr : ¬ s.retries < s.params.arbRetryMax) :
    exec .evArbl s = settle s (retire .arbLost s.inProgress (s.answered.emit .release)) := by
  rw [exec_settle, effect, onArbl, if_neg hp, if_neg hr]
  rfl

/-- R153. -/
theorem exec_evArbl_spurious (hp : s.phase = .idle) :
    exec .evArbl s = .next (s.recordFault (.spuriousEvent arblWord .idle)) := by
  rw [exec_settle, effect, onArbl, if_pos hp, spurious, hp]
  rfl

/-- R154. -/
theorem exec_timeout (hp : s.phase ≠ .idle) :
    exec .evTmo s = settle s (retire .timeout s.inProgress (s.emit .stop)) := by
  rw [exec_settle, effect, onTmo, if_neg hp]
  rfl

/-- R155. -/
theorem exec_evTmo_idle (hp : s.phase = .idle) : exec .evTmo s = .next s := by
  rw [exec_settle, effect, onTmo, if_pos hp, settle_ok]

end

/-! ## The statements -/

/-- Settles O34: a byte left is `sendByte` at CUR_BYTE, and none left is the retire behind STOP. -/
theorem writeAckSendsOrRetires : Obligations.WriteAckSendsOrRetires := by
  refine ⟨?sends, ?unmapped, ?retires, ?unreadable⟩
  case sends =>
    intro s hp hdir hleft hmap
    exact (exec_txAckWrite_more hp hdir hleft).trans (settle_sendByte_mapped hmap)
  case unmapped =>
    intro s hp hdir hleft hmap
    exact (exec_txAckWrite_more hp hdir hleft).trans (settle_sendByte_unmapped hmap)
  case retires =>
    intro s hp hdir hdone hnext
    exact (exec_txAckWrite_done hp hdir hdone).trans (settle_retire_readable hnext)
  case unreadable =>
    intro s hp hdir hdone hnext
    exact (exec_txAckWrite_done hp hdir hdone).trans (settle_retire_unreadable hnext)

/-- Settles O35: a NACK is the retire behind STOP, whatever the direction. -/
theorem nackFailsTransaction : Obligations.NackFailsTransaction := by
  refine ⟨?retires, ?unreadable⟩
  case retires =>
    intro s hp hnext
    exact (exec_txNack hp).trans (settle_retire_readable hnext)
  case unreadable =>
    intro s hp hnext
    exact (exec_txNack hp).trans (settle_retire_unreadable hnext)

/-- Settles O41: the retire finds the last byte stored, so the next transaction's first byte is read after the store. -/
theorem receiveOfLastByteRetires : Obligations.ReceiveOfLastByteRetires := by
  refine ⟨?retires, ?unmapped, ?unreadable⟩
  case retires =>
    intro s d hp hlast hmap hnext
    exact (exec_rxLast d hp hlast hmap).trans (settle_retire_readable hnext)
  case unmapped =>
    intro s d hp _ hmap
    exact exec_evRxc_unmapped d hp hmap
  case unreadable =>
    intro s d hp hlast hmap hnext
    exact (exec_rxLast d hp hlast hmap).trans (settle_retire_unreadable hnext)

/-- Settles O46: at its bound RETRIES is not below it, and the loss is the retire behind RELEASE. -/
theorem arbitrationLossFails : Obligations.ArbitrationLossFails := by
  refine ⟨?retires, ?unreadable⟩
  case retires =>
    intro s hp hr hnext
    exact (exec_arbFail hp (hr ▸ BitVec.lt_irrefl _)).trans (settle_retire_readable hnext)
  case unreadable =>
    intro s hp hr hnext
    exact (exec_arbFail hp (hr ▸ BitVec.lt_irrefl _)).trans (settle_retire_unreadable hnext)

/-- Settles O47: outside IDLE a timeout is the retire behind STOP. -/
theorem timeoutStopsTransaction : Obligations.TimeoutStopsTransaction := by
  refine ⟨?retires, ?unreadable, ?idle⟩
  case retires =>
    intro s hp hnext
    exact (exec_timeout hp).trans (settle_retire_readable hnext)
  case unreadable =>
    intro s hp hnext
    exact (exec_timeout hp).trans (settle_retire_unreadable hnext)
  case idle =>
    intro s hp
    exact exec_evTmo_idle hp

/-- Settles O36: the register byte is `sendByte` at index 1, in the phase it finds. -/
theorem readAddressAckSendsRegister : Obligations.ReadAddressAckSendsRegister := by
  refine ⟨?sends, ?unmapped⟩
  case sends =>
    intro s hp hdir hcur hmap
    exact (exec_txAckReadAddr hp hdir hcur).trans (settle_sendByte_mapped hmap)
  case unmapped =>
    intro s hp hdir hcur hmap
    exact (exec_txAckReadAddr hp hdir hcur).trans (settle_sendByte_unmapped hmap)

/-- Settles O37: the row of R130 for CUR_BYTE = 2 emits RSTART and reads nothing. -/
theorem readRegisterAckRestarts : Obligations.ReadRegisterAckRestarts := by
  intro s hp hdir hcur
  rw [exec_txAck_read hp hdir, if_neg (by simp [hcur]), if_pos hcur]
  rfl

/-- Settles O38: the last row of R130 for a read, where `ackFor` at 3 compares 4 with the length. -/
theorem readReaddressAckReceives : Obligations.ReadReaddressAckReceives := by
  intro s hp hdir hcur
  rw [exec_txAck_read hp hdir, if_neg (by simp [hcur]), if_neg (by simp [hcur])]
  rfl

/-- Settles O39: the request is `sendByte` at index 2. -/
theorem requestSendsReaddress : Obligations.RequestSendsReaddress := by
  refine ⟨?sends, ?unmapped⟩
  case sends =>
    intro s hp hmap
    exact (exec_evReq_expected hp).trans (settle_sendByte_mapped hmap)
  case unmapped =>
    intro s hp hmap
    exact (exec_evReq_expected hp).trans (settle_sendByte_unmapped hmap)

/-- Settles O40: the byte is stored, and the next one asked for with R135's acknowledge bit. -/
theorem receiveStoresAndAsksForMore : Obligations.ReceiveStoresAndAsksForMore := by
  refine ⟨?stores, ?unmapped⟩
  case stores =>
    intro s d hp hmore hmap
    rw [exec_rxMore d hp hmore hmap, ackFor_succ]
    rfl
  case unmapped =>
    intro s d hp _ hmap
    exact exec_evRxc_unmapped d hp hmap

/-- Settles O44: the retry is `startOp` behind RELEASE, with RETRIES advanced. -/
theorem arbitrationLossRetries : Obligations.ArbitrationLossRetries := by
  refine ⟨?restarts, ?unmapped⟩
  case restarts =>
    intro s hp hr hmap
    rw [exec_arbRetry hp hr,
      startOp_mapped (s := (s.answered.emit .release).setRetries (s.retries + 1)) hmap, settle_ok]
    refine congrArg Host.Outcome.next ?_
    ext1 <;> simp [answeredBy]
  case unmapped =>
    intro s hp hr hmap
    rw [exec_arbRetry hp hr, startOp_unmapped (s := (s.answered.emit .release).setRetries (s.retries + 1)) hmap]
    rfl

/-- Settles O45: the rows of R141's table. -/
theorem failIndexByPhase : Obligations.FailIndexByPhase := by
  intro s
  refine ⟨?transmitting, ?restart, ?receiving⟩
  case transmitting =>
    rintro (hp | hp) <;> rw [State.inProgress, hp]
  case restart =>
    intro hp
    rw [State.inProgress, hp]
  case receiving =>
    intro hp
    rw [State.inProgress, hp]

/-- Settles O48: each kind in the phases whose row of R130 is `spurious`. -/
theorem spuriousEventRecorded : Obligations.SpuriousEventRecorded := by
  intro s
  refine ⟨?txc, ?req, ?rxc, ?arbl⟩
  case txc =>
    intro a haddr hwrite
    exact exec_evTxc_spurious a haddr hwrite
  case req =>
    intro hrestart
    exact exec_evReq_spurious hrestart
  case rxc =>
    intro d hread
    exact exec_evRxc_spurious d hread
  case arbl =>
    intro hp
    exact exec_evArbl_spurious hp

end Sys2Proof.Machine

/-! Proofs of the family 43_idle_flush_sync.md: the completion test (R203). -/

namespace Sys2Proof.Machine

theorem doneAt_eq_true_iff {t b : Word} : doneAt t b = true ↔ 16 ≤ (t - b).toNat := decide_eq_true_iff

theorem doneAt_eq_false_iff {t b : Word} : doneAt t b = false ↔ (t - b).toNat < 16 :=
  decide_eq_false_iff_not.trans Nat.not_le

/-- A ticket `n` retirements behind BEGIN_SEQ reads as 2^32 - n ahead of it (R7). -/
theorem toNat_retired_sub {n : Nat} (b : Word) (hpos : 1 ≤ n) (hlt : n < 2 ^ 32) :
    (b - BitVec.ofNat 32 n - b).toNat = 2 ^ 32 - n := by
  have hneg : b - BitVec.ofNat 32 n - b = -BitVec.ofNat 32 n := by
    rw [BitVec.sub_eq_add_neg b, BitVec.add_comm, BitVec.add_sub_cancel]
  rw [hneg, BitVec.toNat_neg, BitVec.toNat_ofNat, Nat.mod_eq_of_lt hlt]
  omega

/-- Settles O33: a pending ticket is less than COUNT ≤ 16 ahead of BEGIN_SEQ (R38), a retired one at least 16. -/
theorem doneExactly : Obligations.DoneExactly := by
  refine ⟨?pending, ?retired⟩
  case pending =>
    rintro s t ⟨hcount, -⟩ hpending
    exact doneAt_eq_false_iff.mpr (hpending.trans_le hcount)
  case retired =>
    intro b n hpos hle
    rw [doneAt_eq_true_iff, toNat_retired_sub b hpos (by omega)]
    omega

end Sys2Proof.Machine

/-! Proofs of the family 60_exceptions.md: a model fault discards the whole step (R238). -/

namespace Sys2Proof.Machine

/-! ## A step that is not discarded appends nothing to the fault record -/

section

variable {s t : State}

theorem startOp_keeps_faults (h : startOp s = .ok t) : t.faults = s.faults := by
  obtain ⟨-, rfl⟩ := startOp_ok h
  simp

theorem nextOp_keeps_faults (h : nextOp s = .ok t) : t.faults = s.faults := by
  simpa using startOp_keeps_faults h

theorem retire_keeps_faults {code : ResultCode} {idx : BitVec 16} (h : retire code idx s = .ok t) :
    t.faults = s.faults := by
  obtain ⟨-, rfl⟩ | ⟨-, -, rfl⟩ := retire_ok h
  · simp
  · simp

theorem sendByte_keeps_faults {i : BitVec 16} {p : Phase} (h : sendByte i p s = .ok t) : t.faults = s.faults := by
  obtain ⟨-, rfl⟩ := sendByte_ok h
  simp

theorem enqueue_keeps_faults {dir : Dir} (h : enqueue dir s = .ok t) : t.faults = s.faults := by
  obtain ⟨-, rfl⟩ | ⟨-, -, rfl⟩ | ⟨-, -, -, rfl⟩ | ⟨-, -, -, hstart⟩ := enqueue_ok h
  · simp
  · simp
  · simp
  · simpa using nextOp_keeps_faults hstart

theorem onTxc_keeps_faults {a : Ack} (h : onTxc a s = .ok t) : t.faults = s.faults := by
  obtain ⟨-, ⟨-, hend⟩ | ⟨-, -, -, hsend⟩ | ⟨-, -, -, hend⟩ | ⟨-, -, -, hsend⟩ | ⟨-, -, -, rfl⟩ | ⟨-, -, -, -, rfl⟩⟩ :=
    onTxc_ok h
  · simpa using retire_keeps_faults hend
  · simpa using sendByte_keeps_faults hsend
  · simpa using retire_keeps_faults hend
  · simpa using sendByte_keeps_faults hsend
  · simp
  · simp

theorem onReq_keeps_faults (h : onReq s = .ok t) : t.faults = s.faults := by
  simpa using sendByte_keeps_faults (onReq_ok h).2

theorem onRxc_keeps_faults {d : Byte} (h : onRxc d s = .ok t) : t.faults = s.faults := by
  obtain ⟨-, -, ⟨-, rfl⟩ | ⟨-, hend⟩⟩ := onRxc_ok h
  · simp
  · simpa using retire_keeps_faults hend

theorem onArbl_keeps_faults (h : onArbl s = .ok t) : t.faults = s.faults := by
  obtain ⟨-, ⟨-, hstart⟩ | ⟨-, hend⟩⟩ := onArbl_ok h
  · simpa using startOp_keeps_faults hstart
  · simpa using retire_keeps_faults hend

theorem onTmo_keeps_faults (h : onTmo s = .ok t) : t.faults = s.faults := by
  obtain ⟨-, rfl⟩ | ⟨-, hend⟩ := onTmo_ok h
  · rfl
  · simpa using retire_keeps_faults hend

/-- `raise` (R238) is the only way into the fault record, and it discards the effect. -/
theorem effect_keeps_faults {i : Instr} (h : effect i s = .ok t) : t.faults = s.faults := by
  obtain ⟨v, rfl | rfl | rfl⟩ | rfl | ⟨dir, -, henq⟩ | ⟨a, -, htxc⟩ | ⟨d, -, hrxc⟩ | ⟨-, hreq⟩ | ⟨-, harbl⟩ | ⟨-, htmo⟩ |
    ⟨a, rfl, -⟩ := effect_cases h
  · simp
  · simp
  · simp
  · simp
  · exact enqueue_keeps_faults henq
  · exact onTxc_keeps_faults htxc
  · exact onRxc_keeps_faults hrxc
  · exact onReq_keeps_faults hreq
  · exact onArbl_keeps_faults harbl
  · exact onTmo_keeps_faults htmo
  · simp

end

/-- Settles O13: an operation answers its effect, which keeps the record, or the state before with one fault recorded. -/
theorem faultDiscardsStep : Obligations.FaultDiscardsStep := by
  intro i s t h
  obtain heffect | ⟨f, -, rfl⟩ := exec_cases h
  · exact .inl (effect_keeps_faults heffect)
  · exact .inr ⟨f, rfl⟩

end Sys2Proof.Machine

/-! Proofs of the family 70_reset_and_hazards.md: the values after reset (R260), and DESC_LEN before it is written (R264). -/

namespace Sys2Proof.Machine

/-! ## Reset -/

/-- R36: no slot has a result. -/
theorem State.reset_result (i : BitVec 4) : State.reset.result i = { code := .none, failIndex := 0 } :=
  Vector.getElem_replicate i.isLt

/-- R37: of the STATUS word only IDLE, its bit 0, is set. -/
theorem State.reset_statusWord : State.reset.statusWord = 0x00000001 := by decide

/-- Settles O14: every register and list is the literal that `State.reset` gives; the records and STATUS have lemmas above. -/
theorem resetValues : Obligations.ResetValues := by
  refine ⟨rfl, rfl, rfl, rfl, ?count, ?full, rfl, rfl, rfl, rfl, rfl, rfl, State.reset_result, State.reset_statusWord,
    rfl, rfl⟩
  case count => exact BitVec.sub_self _
  case full => decide

/-! ## DESC_LEN is the host's: nothing else writes it (R24) -/

section

variable {s t : State}

theorem startOp_keeps_descLen (h : startOp s = .ok t) : t.descLen = s.descLen := by
  obtain ⟨-, rfl⟩ := startOp_ok h
  simp

theorem retire_keeps_descLen {code : ResultCode} {idx : BitVec 16} (h : retire code idx s = .ok t) :
    t.descLen = s.descLen := by
  obtain ⟨-, rfl⟩ | ⟨-, -, rfl⟩ := retire_ok h
  · simp
  · simp

theorem sendByte_keeps_descLen {i : BitVec 16} {p : Phase} (h : sendByte i p s = .ok t) : t.descLen = s.descLen := by
  obtain ⟨-, rfl⟩ := sendByte_ok h
  simp

/-- An enqueue copies DESC_LEN to its slot and keeps it (R104). -/
theorem enqueue_keeps_descLen {dir : Dir} (h : enqueue dir s = .ok t) : t.descLen = s.descLen := by
  obtain ⟨-, rfl⟩ | ⟨-, -, rfl⟩ | ⟨-, -, -, rfl⟩ | ⟨-, -, -, hstart⟩ := enqueue_ok h
  · simp
  · simp
  · simp
  · obtain ⟨-, rfl⟩ := nextOp_ok hstart
    simp

theorem onTxc_keeps_descLen {a : Ack} (h : onTxc a s = .ok t) : t.descLen = s.descLen := by
  obtain ⟨-, ⟨-, hend⟩ | ⟨-, -, -, hsend⟩ | ⟨-, -, -, hend⟩ | ⟨-, -, -, hsend⟩ | ⟨-, -, -, rfl⟩ | ⟨-, -, -, -, rfl⟩⟩ :=
    onTxc_ok h
  · simpa using retire_keeps_descLen hend
  · simpa using sendByte_keeps_descLen hsend
  · simpa using retire_keeps_descLen hend
  · simpa using sendByte_keeps_descLen hsend
  · simp
  · simp

theorem onReq_keeps_descLen (h : onReq s = .ok t) : t.descLen = s.descLen := by
  simpa using sendByte_keeps_descLen (onReq_ok h).2

theorem onRxc_keeps_descLen {d : Byte} (h : onRxc d s = .ok t) : t.descLen = s.descLen := by
  obtain ⟨-, -, ⟨-, rfl⟩ | ⟨-, hend⟩⟩ := onRxc_ok h
  · simp
  · simpa using retire_keeps_descLen hend

theorem onArbl_keeps_descLen (h : onArbl s = .ok t) : t.descLen = s.descLen := by
  obtain ⟨-, ⟨-, hstart⟩ | ⟨-, hend⟩⟩ := onArbl_ok h
  · simpa using startOp_keeps_descLen hstart
  · simpa using retire_keeps_descLen hend

theorem onTmo_keeps_descLen (h : onTmo s = .ok t) : t.descLen = s.descLen := by
  obtain ⟨-, rfl⟩ | ⟨-, hend⟩ := onTmo_ok h
  · rfl
  · simpa using retire_keeps_descLen hend

/-- Every operation but WR_DESC_LEN is a write of another field, an enqueue, an event's handler, or an action performed. -/
theorem effect_keeps_descLen {i : Instr} (hi : ∀ v, i ≠ .wrDescLen v) (h : effect i s = .ok t) :
    t.descLen = s.descLen := by
  cases i with
  | wrDescLen v => exact absurd rfl (hi v)
  | enqWrite => exact enqueue_keeps_descLen h
  | enqRead => exact enqueue_keeps_descLen h
  | evTxc a => exact onTxc_keeps_descLen h
  | evRxc d => exact onRxc_keeps_descLen h
  | evReq => exact onReq_keeps_descLen h
  | evArbl => exact onArbl_keeps_descLen h
  | evTmo => exact onTmo_keeps_descLen h
  | wrDescPtr | wrCmdReserved | rdDescPtr | rdDescLen | rdStatus | rdBeginSeq | rdEndSeq | rdCurByte | rdEnqStatus
  | rdLastTicket | rdResult | actStart | actRstart | actStop | actTx | actRx | actRelease =>
    obtain rfl := Except.ok.inj h
    simp

/-- A discarded operation keeps DESC_LEN too: a fault leaves the record alone (R238). -/
theorem exec_keeps_descLen {i : Instr} (hi : ∀ v, i ≠ .wrDescLen v) (h : exec i s = .next t) :
    t.descLen = s.descLen := by
  obtain heffect | ⟨f, -, rfl⟩ := exec_cases h
  · exact effect_keeps_descLen hi heffect
  · simp

end

/-- R102: the least legal length of either direction is above 0. -/
theorem legalLen_zero (dir : Dir) : legalLen dir 0 = false := by
  cases dir with
  | write => decide
  | read => decide

/-- Settles O16: DESC_LEN is 0 until WR_DESC_LEN, and 0 is a length that R103's first check rejects. -/
theorem enqueueAfterResetRejected : Obligations.EnqueueAfterResetRejected := by
  refine ⟨rfl, ?kept, ?rejected⟩
  case kept =>
    intro i s t hi h
    exact exec_keeps_descLen hi h
  case rejected =>
    intro s dir hzero
    rw [exec_enqueueOf, enqueue_badLength (hzero ▸ legalLen_zero dir)]
    rfl

end Sys2Proof.Machine

/-! Proofs of the family on encodings: decoding undoes encoding on the three ports, and the other way round (R71 to R83). -/

namespace Sys2Proof

/-! ## HOST words -/

theorem decode_readWord (r : HostReg) : decode (readWord r) = accessOf r false 0 := decodeHost_hostWord false r 0

theorem decode_writeWord (r : HostReg) (v : Word) : decode (writeWord r v) = accessOf r true v :=
  decodeHost_hostWord true r v

/-- The offsets of RESULT[0..15] (R72). -/
theorem result_offset (slot : BitVec 4) : (HostReg.result slot).offset = 0x40 + 4 * slot.setWidth 8 := by
  revert slot
  decide

/-- A word whose offset is a register's is the access to it, by its direction (R72, R83). -/
theorem decodeHost_of_offset {w : BitVec 41} {r : HostReg} (h : hostOffset w = r.offset) :
    decodeHost w = accessOf r (hostWE w) (hostWData w) := by
  rw [← decodeHost_hostWord, ← h, hostWord_fields]

/-- A word that decodes has some register's offset, and is a legal access to it. -/
theorem decodeHost_ok {w : BitVec 41} {i : Instr} (h : decodeHost w = .ok i) :
    ∃ r : HostReg, hostOffset w = r.offset ∧ accessOf r (hostWE w) (hostWData w) = .ok i := by
  unfold decodeHost at h
  split at h
  · cases h
  · next haligned =>
    split at h
    · cases h
    · next r hreg => exact ⟨r, (offset_of_regAt (not_not.mp haligned) hreg).symm, h⟩

theorem wellFormed_commandOf (v : Word) : wellFormed (commandOf v) = true := by
  unfold commandOf
  split
  · rfl
  · split
    · rfl
    · next h1 h2 => simpa [wellFormed] using ⟨h1, h2⟩

theorem encode_commandOf (v : Word) : encode (commandOf v) = writeWord .cmd v := by
  unfold commandOf
  split
  · next h => rw [h]; rfl
  · split
    · next h => rw [h]; rfl
    · rfl

/-- The accesses that a register takes: its operation is well-formed, and its word is the access's, without a read's WDATA. -/
theorem accessOf_ok {r : HostReg} {we : Bool} {v : Word} {i : Instr} (h : accessOf r we v = .ok i) :
    wellFormed i = true ∧ encode i = .host (hostWord we r.offset (if we then v else 0)) := by
  cases we with
  | false =>
    cases r with
    | cmd => cases h
    | descPtr | descLen | status | beginSeq | endSeq | curByte | enqStatus | lastTicket | result =>
      cases h
      exact ⟨rfl, rfl⟩
  | true =>
    cases r with
    | cmd =>
      cases h
      exact ⟨wellFormed_commandOf v, encode_commandOf v⟩
    | descPtr | descLen =>
      cases h
      exact ⟨rfl, rfl⟩
    | status | beginSeq | endSeq | curByte | enqStatus | lastTicket | result => cases h

/-- The word of a host access: any word for a write, and the one with WDATA 0 for a read (R71). -/
theorem hostWord_masked (w : BitVec 41) :
    hostWord (hostWE w) (hostOffset w) (if hostWE w then hostWData w else 0) =
      if hostWE w then w else hostWord false (hostOffset w) 0 := by
  split
  · exact hostWord_fields w
  · next h => rw [Bool.eq_false_iff.mpr h]

theorem encode_of_decodeHost {w : BitVec 41} {i : Instr} (h : decodeHost w = .ok i) :
    wellFormed i = true ∧ encode i = .host (if hostWE w then w else hostWord false (hostOffset w) 0) := by
  obtain ⟨r, hoff, hacc⟩ := decodeHost_ok h
  rw [← hostWord_masked, hoff]
  exact accessOf_ok hacc

/-! ## EVENT and ACTION words -/

theorem unlessNonzero_ok_iff {e : DecodeError} {zero : Bool} {i j : Instr} :
    unlessNonzero e zero i = .ok j ↔ zero = true ∧ i = j := by
  cases zero <;> simp [unlessNonzero]

theorem unlessNonzero_error_iff {e : DecodeError} {zero : Bool} {i : Instr} :
    (∃ e', unlessNonzero e zero i = .error e') ↔ zero = false := by
  cases zero <;> simp [unlessNonzero]

theorem wordKind_cases (k : BitVec 3) : k = 0 ∨ k = 1 ∨ k = 2 ∨ k = 3 ∨ k = 4 ∨ k = 5 ∨ k = 6 ∨ k = 7 := by
  revert k
  decide

/-- A word is the one with its KIND and its two other fields. -/
theorem portWord_of_fields {w : BitVec 12} {k : BitVec 3} {a : BitVec 1} {d : Byte} (hk : wordKind w = k)
    (ha : wordAckB w = a) (hd : wordData w = d) : portWord k a d = w := by
  rw [← hk, ← ha, ← hd, portWord_fields]

/-- The rows of R76, with the fields that each one uses. -/
theorem decodeEvent_ok {w : BitVec 12} {i : Instr} (h : decodeEvent w = .ok i) :
    (∃ a, i = .evTxc a ∧ w = portWord 1 a.bit 0) ∨ (∃ d, i = .evRxc d ∧ w = portWord 2 0 d) ∨
    (i = .evReq ∧ w = portWord 3 0 0) ∨ (i = .evArbl ∧ w = portWord 4 0 0) ∨ (i = .evTmo ∧ w = portWord 5 0 0) := by
  unfold decodeEvent at h
  split_ifs at h with h1 h2 h3 h4 h5
  all_goals
    simp only [unlessNonzero_ok_iff, Bool.and_eq_true, beq_iff_eq] at h
    obtain ⟨hzero, rfl⟩ := h
  · exact .inl ⟨_, rfl, (portWord_of_fields h1 (Ack.bit_ofBit _).symm hzero).symm⟩
  · exact .inr (.inl ⟨_, rfl, (portWord_of_fields h2 hzero rfl).symm⟩)
  · exact .inr (.inr (.inl ⟨rfl, (portWord_of_fields h3 hzero.1 hzero.2).symm⟩))
  · exact .inr (.inr (.inr (.inl ⟨rfl, (portWord_of_fields h4 hzero.1 hzero.2).symm⟩)))
  · exact .inr (.inr (.inr (.inr ⟨rfl, (portWord_of_fields h5 hzero.1 hzero.2).symm⟩)))

theorem encode_of_decodeEvent {w : BitVec 12} {i : Instr} (h : decodeEvent w = .ok i) :
    wellFormed i = true ∧ encode i = .event w := by
  obtain ⟨a, rfl, rfl⟩ | ⟨d, rfl, rfl⟩ | ⟨rfl, rfl⟩ | ⟨rfl, rfl⟩ | ⟨rfl, rfl⟩ := decodeEvent_ok h
  all_goals exact ⟨rfl, rfl⟩

/-- The rows of R78. -/
theorem encode_of_decodeAction {w : BitVec 12} {i : Instr} (h : decodeAction w = .ok i) :
    wellFormed i = true ∧ encode i = .action w := by
  unfold decodeAction at h
  split_ifs at h with h1 h2 h3 h4 h5 h6
  all_goals
    simp only [unlessNonzero_ok_iff, Bool.and_eq_true, beq_iff_eq] at h
    obtain ⟨hzero, rfl⟩ := h
    refine ⟨rfl, congrArg PortWord.action ?_⟩
  · exact portWord_of_fields h1 hzero.1 hzero.2
  · exact portWord_of_fields h2 hzero.1 hzero.2
  · exact portWord_of_fields h3 hzero.1 hzero.2
  · exact portWord_of_fields h4 hzero rfl
  · exact portWord_of_fields h5 (Ack.bit_ofBit _).symm hzero
  · exact portWord_of_fields h6 hzero.1 hzero.2

/-- Every event decodes back from its word (R76). -/
theorem decodeEvent_txc (a : Ack) : decodeEvent (portWord 1 a.bit 0) = .ok (.evTxc a) := by
  simp [decodeEvent, unlessNonzero]

theorem decodeEvent_rxc (d : Byte) : decodeEvent (portWord 2 0 d) = .ok (.evRxc d) := by
  simp [decodeEvent, unlessNonzero]

theorem decodeAction_tx (b : Byte) : decodeAction (portWord 4 0 b) = .ok (.actTx b) := by
  simp [decodeAction, unlessNonzero]

theorem decodeAction_rx (a : Ack) : decodeAction (portWord 5 a.bit 0) = .ok (.actRx a) := by
  simp [decodeAction, unlessNonzero]

/-- R79: which EVENT words are illegal. -/
theorem decodeEvent_error_iff (w : BitVec 12) : (∃ e, decodeEvent w = .error e) ↔
    (wordKind w = 0 ∨ wordKind w = 6 ∨ wordKind w = 7 ∨ (wordKind w ≠ 2 ∧ wordData w ≠ 0) ∨
      (wordKind w ≠ 1 ∧ wordAckB w ≠ 0)) := by
  unfold decodeEvent
  rcases wordKind_cases (wordKind w) with hk | hk | hk | hk | hk | hk | hk | hk
  all_goals simp [hk, unlessNonzero_error_iff]
  all_goals tauto

end Sys2Proof

namespace Sys2Proof.Machine

/-- Settles O1: a host operation is an access to its register, and the fields of an event or action word are its operand and
zeros. -/
theorem decodeOfEncode : Obligations.DecodeOfEncode := by
  intro i hwf
  cases i with
  | wrDescPtr v | wrDescLen v => exact decode_writeWord _ v
  | enqWrite => exact decode_writeWord .cmd 1
  | enqRead => exact decode_writeWord .cmd 2
  | wrCmdReserved v =>
    obtain ⟨h1, h2⟩ : v ≠ 1 ∧ v ≠ 2 := by simpa [wellFormed] using hwf
    exact (decode_writeWord .cmd v).trans (congrArg Except.ok (commandOf_reserved h1 h2))
  | rdDescPtr | rdDescLen | rdStatus | rdBeginSeq | rdEndSeq | rdCurByte | rdEnqStatus | rdLastTicket | rdResult =>
    exact decode_readWord _
  | evTxc a => exact decodeEvent_txc a
  | evRxc d => exact decodeEvent_rxc d
  | actTx b => exact decodeAction_tx b
  | actRx a => exact decodeAction_rx a
  | evReq | evArbl | evTmo | actStart | actRstart | actStop | actRelease => rfl

/-- Settles O2: each port's word is put together again from the fields that its row fixes and the operand it carries. -/
theorem encodeOfDecode : Obligations.EncodeOfDecode :=
  ⟨fun _ _ h => encode_of_decodeHost h, fun _ _ h => encode_of_decodeEvent h, fun _ _ h => encode_of_decodeAction h⟩

/-- Settles O3: each word is the encoding of its operation. -/
theorem encodingTableWords : Obligations.EncodingTableWords :=
  ⟨decodeOfEncode (.wrDescPtr 0x20000100) rfl, decodeOfEncode .enqRead rfl, decodeOfEncode (.wrCmdReserved 7) rfl,
    decodeOfEncode (.rdResult 15) rfl, decodeOfEncode (.evTxc .nack) rfl, decodeOfEncode (.evRxc 0x5A) rfl,
    decodeOfEncode (.actTx 0xA1) rfl, decodeOfEncode (.actRx .nack) rfl⟩

/-- Settles O4: a word decodes where its offset is a register's and the register takes its direction. -/
theorem hostMapExactly : Obligations.HostMapExactly := by
  intro w
  constructor
  case mp =>
    rintro ⟨i, h⟩
    obtain ⟨r, hoff, hacc⟩ := decodeHost_ok h
    rw [hoff]
    cases hwe : hostWE w with
    | true =>
      rw [hwe] at hacc
      cases r with
      | descPtr | descLen | cmd => simp [HostReg.offset]
      | status | beginSeq | endSeq | curByte | enqStatus | lastTicket | result => cases hacc
    | false =>
      rw [hwe] at hacc
      cases r with
      | cmd => cases hacc
      | result slot =>
        refine .inr (.inr (.inr ⟨rfl, ?_⟩))
        iterate 6 right
        exact ⟨slot, result_offset slot⟩
      | descPtr | descLen | status | beginSeq | endSeq | curByte | enqStatus | lastTicket => simp [HostReg.offset]
  case mpr =>
    intro h
    have decodes (r : HostReg) (we : Bool) (i : Instr) (hoff : hostOffset w = r.offset) (hwe : hostWE w = we)
        (hacc : accessOf r we (hostWData w) = .ok i) : ∃ i, decode (.host w) = .ok i :=
      ⟨i, (decodeHost_of_offset hoff).trans (hwe ▸ hacc)⟩
    obtain h | h | ⟨h, hwe⟩ | ⟨hwe, h | h | h | h | h | h | ⟨slot, h⟩⟩ := h
    · cases hwe : hostWE w with
      | true => exact decodes .descPtr true _ h hwe rfl
      | false => exact decodes .descPtr false _ h hwe rfl
    · cases hwe : hostWE w with
      | true => exact decodes .descLen true _ h hwe rfl
      | false => exact decodes .descLen false _ h hwe rfl
    · exact decodes .cmd true _ h hwe rfl
    · exact decodes .status false _ h hwe rfl
    · exact decodes .beginSeq false _ h hwe rfl
    · exact decodes .endSeq false _ h hwe rfl
    · exact decodes .curByte false _ h hwe rfl
    · exact decodes .enqStatus false _ h hwe rfl
    · exact decodes .lastTicket false _ h hwe rfl
    · exact decodes (.result slot) false _ (h.trans (result_offset slot).symm) hwe rfl

end Sys2Proof.Machine

/-! Proofs about one step, one register read and reset: what each agent's step runs (R6, R57, R64, R79, R156), the words a read
returns (R37, R73), and the invariants at reset (R260). -/

namespace Sys2Proof.Machine

open Sys2Proof.Certificates

/-! ## Each agent's step (R6) -/

section

variable {s : State} {rest : List Input}

theorem step_host {w : BitVec 41} {i : Instr} (h : s.inputs = .host w :: rest) (hdec : decodeHost w = .ok i) :
    step s = exec i (s.setInputs rest) := by
  rw [step_head h, deliver, deliverHost, hdec]

/-- R156, R157: an event's handler runs where the PHY raises it. -/
theorem step_event {w : BitVec 12} {i : Instr} (h : s.inputs = .event w :: rest) (hdec : decodeEvent w = .ok i)
    (hwatchdog : i = .evTmo → s.params.watchdogPresent = true) :
    step s = exec i ((s.setInputs rest).raising i) := by
  have hpresent : ¬ (i = .evTmo ∧ (s.setInputs rest).params.watchdogPresent = false) := by
    rintro ⟨hi, habsent⟩
    exact absurd (hwatchdog hi) (Bool.eq_false_iff.mp habsent)
  rw [step_head h, deliver, deliverEvent, hdec]
  exact if_neg hpresent

theorem step_illegalEvent {w : BitVec 12} {e : DecodeError} (h : s.inputs = .event w :: rest)
    (hdec : decodeEvent w = .error e) : step s = .next ((s.setInputs rest).recordFault (.illegalEvent w)) := by
  rw [step_head h, deliver, deliverEvent, hdec]

theorem step_perform {a : Action} {more : List Action} (h : s.inputs = .perform :: rest) (ha : s.actions = a :: more) :
    step s = .next (((s.setInputs rest).setActions more).perform a) := by
  rw [step_head h, deliver, deliverPerform, State.setInputs_actions, ha]
  exact exec_toInstr a _

theorem step_store {addr : Word} {v : Byte} (h : s.inputs = .store addr v :: rest) :
    step s = .next ((s.setInputs rest).setMem (Memory.write s.mem addr.toNat v)) := step_head h

theorem step_load {addr : Word} (h : s.inputs = .load addr :: rest) :
    step s = .next ((s.setInputs rest).setLoadData (Memory.read s.mem addr.toNat)) := step_head h

theorem State.raising_of_owes {i : Instr} (h : s.owes i = true) : s.raising i = s.catchUp := if_pos h

theorem State.raising_of_not_owes {i : Instr} (h : s.owes i = false) : s.raising i = s := by
  rw [State.raising, h]
  rfl

/-- A timeout answers nothing that the PHY owes (R187). -/
theorem State.owes_evTmo (s : State) : s.owes .evTmo = false := by
  unfold State.owes
  cases s.owed with
  | none => rfl
  | some op => cases op <;> rfl

theorem step_owedEvent {w : BitVec 12} {i : Instr} (h : s.inputs = .event w :: rest) (hdec : decodeEvent w = .ok i)
    (howes : s.owes i = true) : step s = exec i (s.setInputs rest).catchUp := by
  have hnoTmo : i ≠ .evTmo := by
    rintro rfl
    exact absurd howes (Bool.eq_false_iff.mp s.owes_evTmo)
  rw [step_event h hdec (absurd · hnoTmo), State.raising_of_owes (s := s.setInputs rest) howes]

/-- A 32-bit bus access inside the block's page is the HOST access at its offset (R64). -/
theorem deliverBus_word {a : BusAccess} {off : BitVec 8} (haddr : a.addr = 256 * s.params.blockPage + off.toNat)
    (hw : a.width = .word) : deliverBus a s = deliverHost (hostWord a.we off a.wdata) s := by
  have hin : 256 * s.params.blockPage ≤ a.addr ∧ a.addr < 256 * s.params.blockPage + 256 := by
    have := off.isLt
    omega
  rw [deliverBus, if_pos hin, hw, haddr, ofNat_blockAddr]

end

/-- Settles O5: the four shapes of a step that runs an operation; catching up is `State.catchUp_eq`. -/
theorem stepRunsDecodedWord : Obligations.StepRunsDecodedWord := by
  refine ⟨?host, ?unowed, ?owed, ?perform⟩
  case host =>
    intro s w rest i hin hdec
    exact step_host hin hdec
  case unowed =>
    intro s w rest i hin hdec hwatchdog howes
    rw [step_event hin hdec hwatchdog, State.raising_of_not_owes (s := s.setInputs rest) howes]
    rfl
  case owed =>
    intro s w rest i hin hdec howes
    rw [step_owedEvent hin hdec howes, State.catchUp_eq]
    rfl
  case perform =>
    intro s rest a more hin ha
    rw [step_perform hin ha, exec_toInstr]
    rfl

/-- Settles O7: inside the page the bus access is delivered as its HOST word, and outside it nothing is. -/
theorem busAccessSelectsBlock : Obligations.BusAccessSelectsBlock := by
  refine ⟨?inside, ?outside⟩
  case inside =>
    intro s a rest off hin haddr hw
    exact (step_head hin).trans (deliverBus_word (s := s.setInputs rest) haddr hw)
  case outside =>
    intro s a rest hin hout
    refine (step_head hin).trans (if_neg ?_)
    simp only [State.setInputs_params]
    omega

/-- Settles O8: the decoder's error is the fault recorded. -/
theorem illegalEventRecorded : Obligations.IllegalEventRecorded :=
  ⟨decodeEvent_error_iff, fun _ _ _ _ hin hdec => step_illegalEvent hin hdec⟩

/-- Settles O9: the host's accesses are `Memory.write` and `Memory.read`. -/
theorem hostMemoryAccess : Obligations.HostMemoryAccess := by
  refine ⟨?readAfterWrite, ?frame, ?load⟩
  case readAfterWrite =>
    intro s addr v rest hmem hin
    exact ⟨_, _, step_store hin, step_load rfl, Memory.read_write_same v hmem⟩
  case frame =>
    intro s addr v rest hin
    refine ⟨_, step_store hin, rfl, fun a ha => Memory.read_write_other ?_ v s.mem⟩
    exact fun h => ha (BitVec.eq_of_toNat_eq h)
  case load =>
    intro s addr rest hin
    exact step_load hin

/-! ## No step stops, but for R156 -/

/-- Settles O11: `settle` answers a next state, whatever the effect. -/
theorem everyInstructionAnswers : Obligations.EveryInstructionAnswers := by
  intro i s
  rw [exec_settle]
  exact settle_next s _

theorem deliverHost_next (w : BitVec 41) (s : State) : ∃ t, deliverHost w s = .next t := by
  unfold deliverHost
  split
  · exact everyInstructionAnswers _ s
  · exact ⟨_, rfl⟩

theorem deliverBus_next (a : BusAccess) (s : State) : ∃ t, deliverBus a s = .next t := by
  unfold deliverBus
  split
  · split
    · exact deliverHost_next _ s
    · exact ⟨_, rfl⟩
    · exact ⟨_, rfl⟩
  · exact ⟨_, rfl⟩

theorem deliverPerform_next (s : State) : ∃ t, deliverPerform s = .next t := by
  unfold deliverPerform
  split
  · exact ⟨_, rfl⟩
  · exact everyInstructionAnswers _ _

/-- The one word of a TMO (R76). -/
theorem decodeEvent_tmo {w : BitVec 12} (h : decodeEvent w = .ok .evTmo) : w = 0xA00 := by
  obtain ⟨_, hi, -⟩ | ⟨_, hi, -⟩ | ⟨hi, -⟩ | ⟨hi, -⟩ | ⟨-, rfl⟩ := decodeEvent_ok h
  · cases hi
  · cases hi
  · cases hi
  · cases hi
  · rfl

theorem deliverEvent_next_or_refused (w : BitVec 12) (s : State) : (∃ t, deliverEvent w s = .next t) ∨
    (w = 0xA00 ∧ s.params.watchdogPresent = false ∧ deliverEvent w s = .refused .watchdogAbsent) := by
  unfold deliverEvent
  split
  · next i hdec =>
    split
    · next h =>
      obtain ⟨rfl, habsent⟩ := h
      exact .inr ⟨decodeEvent_tmo hdec, habsent, rfl⟩
    · exact .inl (everyInstructionAnswers _ _)
  · exact .inl ⟨_, rfl⟩

/-- Settles O12: of the agents' steps only the delivery of an event can refuse. -/
theorem stepStopsOnlyWithoutWatchdog : Obligations.StepStopsOnlyWithoutWatchdog := by
  intro s
  cases hin : s.inputs with
  | nil => exact .inl ⟨s, step_waits hin⟩
  | cons input rest =>
    rw [step_head hin]
    cases input with
    | host w => exact .inl (deliverHost_next w _)
    | bus a => exact .inl (deliverBus_next a _)
    | event w =>
      obtain hnext | ⟨rfl, habsent, hrefused⟩ := deliverEvent_next_or_refused w (s.setInputs rest)
      · exact .inl hnext
      · exact .inr ⟨rest, rfl, habsent, hrefused⟩
    | perform => exact .inl (deliverPerform_next _)
    | store addr v => exact .inl ⟨_, rfl⟩
    | load addr => exact .inl ⟨_, rfl⟩

/-! ## Reset -/

theorem State.reset_Inv : State.reset.Inv := by
  refine ⟨?_, ?_, ?_, ?_, ?_, ?_, ?_, ?_, ?_⟩
  all_goals decide

/-- Settles O15: COUNT is 0, so no slot is occupied, and nothing is emitted or outstanding. -/
theorem invariantsAtReset : Obligations.InvariantsAtReset := by
  refine ⟨State.reset_Inv, State.reset_memory_wf, rfl, ?pending, ?failIndex, ?ticket⟩
  case pending => exact fun i _ => State.reset_result i
  case failIndex => exact fun i _ => congrArg Result.failIndex (State.reset_result i)
  case ticket => exact fun h => nomatch h

/-! ## Register reads -/

/-- Settles O22: each access is its register's row of R72, and writes or returns the whole register. -/
theorem stagingRegisters : Obligations.StagingRegisters := by
  refine ⟨?words, fun _ _ => rfl, fun _ => rfl, fun _ _ => rfl, fun _ => rfl, ?ptr, ?len⟩
  case words =>
    intro v
    exact ⟨decodeHost_hostWord true .descPtr v, decodeHost_hostWord false .descPtr v,
      decodeHost_hostWord true .descLen v, decodeHost_hostWord false .descLen v⟩
  case ptr => exact fun s v => ⟨_, rfl, rfl⟩
  case len => exact fun s v => ⟨_, rfl, rfl⟩

/-- Settles O23: a counter read is `hostReturn` of the register. -/
theorem counterReads : Obligations.CounterReads := fun _ => ⟨rfl, rfl, rfl⟩

/-- Settles O24: the words are those of `curByteWord`, `enqStatusWord` and `resultWord`. -/
theorem narrowRegisterReads : Obligations.NarrowRegisterReads := by
  refine ⟨?curByte, ?enqStatus, ?result⟩
  case curByte => exact fun s => ⟨_, rfl, setWidth_low s.curByte (by decide), setWidth_high s.curByte⟩
  case enqStatus =>
    exact fun s => ⟨_, rfl, setWidth_low s.enqStatus.code (by decide), setWidth_high s.enqStatus.code⟩
  case result =>
    exact fun s slot => ⟨_, rfl, resultWord_code _, resultWord_reserved _, resultWord_failIndex _⟩

theorem ofBool_eq_ite (b : Bool) : BitVec.ofBool b = if b then 1 else 0 := by cases b <;> rfl

theorem State.full_eq_decide (s : State) : s.full = decide (s.endSeq - s.beginSeq = 16) := rfl

theorem State.dirBit_eq (s : State) :
    s.dirBit = if s.idle then 0 else if s.cur.dir = .read then 1 else 0 := by
  unfold State.dirBit
  cases s.cur.dir <;> rfl

theorem statusWord_count_bits (s : State) :
    s.statusWord.extractLsb' 2 5 = (s.endSeq - s.beginSeq).extractLsb' 0 5 := by
  rw [statusWord_count, BitVec.setWidth_eq_extractLsb' (by decide)]
  rfl

/-- Settles O25: the word is `statusWord`, field by field. -/
theorem statusRead : Obligations.StatusRead := by
  intro s
  refine ⟨s.statusWord, rfl, ?idle, ?full, statusWord_count_bits s, statusWord_reserved s, statusWord_phase s, ?dir,
    statusWord_retries s, statusWord_top s⟩
  case idle => rw [statusWord_idle, ofBool_eq_ite]
  case full =>
    rw [statusWord_full, ofBool_eq_ite, State.full_eq_decide]
    simp
  case dir => rw [statusWord_dir, State.dirBit_eq]

theorem ofBool_eq_one_iff (b : Bool) : BitVec.ofBool b = 1 ↔ b = true := by cases b <;> decide

theorem Phase.code_eq_zero_iff (p : Phase) : p.code = 0 ↔ p = .idle := by cases p <;> decide

theorem Phase.code_held {p : Phase} (h : p ≠ .stop) : p.code ≠ 4 ∧ p.code ≠ 6 ∧ p.code ≠ 7 := by
  cases p with
  | stop => exact absurd rfl h
  | idle | addr | writeData | readData | restart => decide

/-- COUNT fits its field of the STATUS word (R37, R38). -/
theorem setWidth_count_eq_iff {c : Word} {n : Nat} (hc : c.toNat ≤ 16) (hn : n ≤ 16) :
    c.setWidth 5 = BitVec.ofNat 5 n ↔ c = BitVec.ofNat 32 n := by
  simp only [← BitVec.toNat_inj, BitVec.toNat_setWidth, BitVec.toNat_ofNat]
  omega

/-- Settles O26: IDLE, COUNT and PHASE agree by R38, and COUNT fits its five bits. -/
theorem statusSnapshotConsistent : Obligations.StatusSnapshotConsistent := by
  rintro s t ⟨hcount, ⟨hidle, hphase⟩, hheld, -⟩ h
  obtain rfl : s.setReadData s.statusWord = t := Host.Outcome.next.inj h
  simp only [State.setReadData_readData, statusWord_idle, statusWord_full, statusWord_count, statusWord_phase,
    ofBool_eq_one_iff]
  refine ⟨?empty, ?idle, ?full, Phase.code_held hheld⟩
  case empty => exact hidle.trans (setWidth_count_eq_iff hcount (by decide : 0 ≤ 16)).symm
  case idle => exact hphase.trans (Phase.code_eq_zero_iff s.phase).symm
  case full => exact beq_iff_eq.trans (setWidth_count_eq_iff hcount (by decide : 16 ≤ 16)).symm

/-- Settles O54: `State.perform`, for each action's two tables. -/
theorem actionsPerformed : Obligations.ActionsPerformed :=
  fun _ => ⟨rfl, rfl, rfl, fun _ => rfl, fun _ => rfl, rfl⟩

end Sys2Proof.Machine

/-! What an operation that is not discarded leaves, said once for all of them: `exec_case`, one constructor of `EffectCase` per
shape. The frames, the invariants and the rules on when a transaction ends are case analyses of it. -/

namespace Sys2Proof.Machine

open Sys2Proof.Certificates

/-! ## Three state updates that several operations share -/

/-- What `startOp` (R132) leaves. -/
@[simp] def State.begun (s : State) : State :=
  (((s.emit .start).emit (.tx (Memory.read s.mem s.cur.ptr.toNat))).setCurByte 1).setPhase .addr

theorem startOp_begun {s t : State} (h : startOp s = .ok t) : t = s.begun := (startOp_ok h).2

@[simp] theorem byteStored_eq (s : State) (d : Byte) : byteStored s d =
    (s.answered.setMem (Memory.write s.mem (s.baddr s.curByte).toNat d)).setCurByte (s.curByte + 1) := rfl

section

variable {s : State} {bus : Action} {code : ResultCode} {idx : BitVec 16}

/-- R133 with nothing queued behind. -/
theorem afterRetire_last (h : lastPending s) : afterRetire s bus code idx =
    ((((s.setResult s.beginPos { code := code, failIndex := idx }).setBeginSeq (s.beginSeq + 1)).setIdle true).setPhase
      .idle).emit bus := by
  rw [afterRetire, if_pos h]
  rfl

/-- R133 with a transaction queued behind, which starts (R131, R132). -/
theorem afterRetire_more (h : ¬ lastPending s) : afterRetire s bus code idx =
    ((((s.setResult s.beginPos { code := code, failIndex := idx }).setBeginSeq (s.beginSeq + 1)).setRetries 0).emit
      bus).begun := by
  rw [afterRetire, if_neg h]
  ext1 <;> simp
  rfl

variable (s bus code idx)

@[simp] theorem afterRetire_descPtr : (afterRetire s bus code idx).descPtr = s.descPtr := by
  unfold afterRetire; split <;> rfl
@[simp] theorem afterRetire_descLen : (afterRetire s bus code idx).descLen = s.descLen := by
  unfold afterRetire; split <;> rfl
@[simp] theorem afterRetire_slots : (afterRetire s bus code idx).slots = s.slots := by
  unfold afterRetire; split <;> rfl
@[simp] theorem afterRetire_slot (k : BitVec 4) : (afterRetire s bus code idx).slot k = s.slot k := by
  unfold afterRetire; split <;> rfl
@[simp] theorem afterRetire_beginSeq : (afterRetire s bus code idx).beginSeq = s.beginSeq + 1 := by
  unfold afterRetire; split <;> rfl
@[simp] theorem afterRetire_endSeq : (afterRetire s bus code idx).endSeq = s.endSeq := by
  unfold afterRetire; split <;> rfl
@[simp] theorem afterRetire_enqStatus : (afterRetire s bus code idx).enqStatus = s.enqStatus := by
  unfold afterRetire; split <;> rfl
@[simp] theorem afterRetire_lastTicket : (afterRetire s bus code idx).lastTicket = s.lastTicket := by
  unfold afterRetire; split <;> rfl
@[simp] theorem afterRetire_mem : (afterRetire s bus code idx).mem = s.mem := by
  unfold afterRetire; split <;> rfl
@[simp] theorem afterRetire_phy : (afterRetire s bus code idx).phy = s.phy := by
  unfold afterRetire; split <;> rfl
@[simp] theorem afterRetire_traffic : (afterRetire s bus code idx).traffic = s.traffic := by
  unfold afterRetire; split <;> rfl
@[simp] theorem afterRetire_readData : (afterRetire s bus code idx).readData = s.readData := by
  unfold afterRetire; split <;> rfl
@[simp] theorem afterRetire_loadData : (afterRetire s bus code idx).loadData = s.loadData := by
  unfold afterRetire; split <;> rfl
@[simp] theorem afterRetire_inputs : (afterRetire s bus code idx).inputs = s.inputs := by
  unfold afterRetire; split <;> rfl
@[simp] theorem afterRetire_params : (afterRetire s bus code idx).params = s.params := by
  unfold afterRetire; split <;> rfl

theorem afterRetire_result (k : BitVec 4) : (afterRetire s bus code idx).result k =
    (s.setResult s.beginPos { code := code, failIndex := idx }).result k := by
  unfold afterRetire; split <;> rfl

@[simp] theorem afterRetire_result_same :
    (afterRetire s bus code idx).result s.beginPos = { code := code, failIndex := idx } := by
  rw [afterRetire_result, State.setResult_result_same]

theorem afterRetire_result_other {k : BitVec 4} (h : k ≠ s.beginPos) :
    (afterRetire s bus code idx).result k = s.result k := by
  rw [afterRetire_result, State.setResult_result_other _ _ _ _ (Ne.symm h)]

/-- R131 to R133: what a retire emits. -/
theorem afterRetire_actions : (afterRetire s bus code idx).actions = s.actions ++ bus ::
    (if lastPending s then [] else [.start, .tx (Memory.read s.mem (nextSlot s).ptr.toNat)]) := by
  unfold afterRetire; split <;> rfl

end

/-! ## The rows of R130 that send a byte, and those that end the transaction -/

/-- PHASE expects TXC (R130). -/
abbrev State.transmitting (s : State) : Prop := s.phase = .addr ∨ s.phase = .writeData

/-- `SendRow s i j p`: event `i` sends buffer byte `j` and leaves PHASE at `p` (R138, R139, R145). -/
inductive SendRow (s : State) : Instr → BitVec 16 → Phase → Prop
  | write : s.transmitting → s.cur.dir = .write → s.curByte < s.cur.len →
      SendRow s (.evTxc .ack) s.curByte (phaseAfterTx s.curByte)
  | register : s.transmitting → s.cur.dir = .read → s.curByte = 1 → SendRow s (.evTxc .ack) 1 s.phase
  | readdress : s.phase = .restart → SendRow s .evReq 2 .addr

/-- `EndRow s i u bus code idx`: event `i` ends the transaction in flight, from `u` on, by `bus` and with the record
`{code, idx}` (R138, R143, R148, R152, R154). -/
inductive EndRow (s : State) : Instr → State → Action → ResultCode → BitVec 16 → Prop
  | lastByteSent : s.transmitting → s.cur.dir = .write → ¬ s.curByte < s.cur.len →
      EndRow s (.evTxc .ack) s.answered .stop .ok 0
  | nacked : s.transmitting → EndRow s (.evTxc .nack) s.answered .stop .noack (s.curByte - 1)
  | lastByteReceived (d : Byte) : s.phase = .readData → ¬ s.curByte + 1 < s.cur.len →
      EndRow s (.evRxc d) (byteStored s d) .stop .ok 0
  | arbitrationLost : s.phase ≠ .idle → ¬ s.retries < s.params.arbRetryMax →
      EndRow s .evArbl s.answered .release .arbLost s.inProgress
  | timedOut : s.phase ≠ .idle → EndRow s .evTmo s .stop .timeout s.inProgress

/-- What an event that is not discarded leaves. -/
inductive EventCase (s : State) : Instr → State → Prop
  | ignored : s.phase = .idle → EventCase s .evTmo s
  | sent {i : Instr} {j : BitVec 16} {p : Phase} : SendRow s i j p →
      EventCase s i (((s.answered.emit (.tx (Memory.read s.mem (s.baddr j).toNat))).setCurByte (j + 1)).setPhase p)
  | restarted : s.transmitting → s.cur.dir = .read → s.curByte = 2 →
      EventCase s (.evTxc .ack) ((s.answered.emit .rstart).setPhase .restart)
  | receiving : s.transmitting → s.cur.dir = .read → s.curByte ≠ 1 → s.curByte ≠ 2 →
      EventCase s (.evTxc .ack) ((s.answered.setPhase .readData).emit (.rx (ackFor s.cur.len 3)))
  | stored (d : Byte) : s.phase = .readData → s.curByte + 1 < s.cur.len →
      EventCase s (.evRxc d) ((byteStored s d).emit (.rx (ackFor s.cur.len (s.curByte + 1))))
  | retried : s.phase ≠ .idle → s.retries < s.params.arbRetryMax →
      EventCase s .evArbl ((s.answered.emit .release).setRetries (s.retries + 1)).begun
  | ended {i : Instr} {u : State} {bus : Action} {code : ResultCode} {idx : BitVec 16} : EndRow s i u bus code idx →
      EventCase s i (afterRetire u bus code idx)

/-- What an operation that is not discarded leaves. -/
inductive EffectCase (s : State) (i : Instr) : State → Prop
  | wroteDescPtr (v : Word) : i = .wrDescPtr v → EffectCase s i (s.setDescPtr v)
  | wroteDescLen (v : Word) : i = .wrDescLen v → EffectCase s i (s.setDescLen v)
  | readRegister (v : Word) : isEvent i = false → EffectCase s i (s.setReadData v)
  | rejected (e : EnqStatus) : isEvent i = false → e ≠ .ok → EffectCase s i (s.setEnqStatus e)
  | queued (dir : Dir) : i = enqueueOf dir → legalLen dir s.descLen = true → s.count ≠ 16 → s.idle = false →
      EffectCase s i (s.accepted dir)
  | started (dir : Dir) : i = enqueueOf dir → legalLen dir s.descLen = true → s.count ≠ 16 → s.idle = true →
      EffectCase s i (((s.accepted dir).setIdle false).setRetries 0).begun
  | event {t : State} : EventCase s i t → EffectCase s i t
  | performed (a : Action) : i = a.toInstr → EffectCase s i (s.perform a)

section

variable {s t : State}

theorem retire_emit_ok {u : State} {bus : Action} {code : ResultCode} {idx : BitVec 16}
    (h : retire code idx (u.emit bus) = .ok t) : t = afterRetire u bus code idx := by
  by_cases hnext : nextReadable u
  · rw [retire_emit_readable bus code idx hnext] at h
    exact (Except.ok.inj h).symm
  · rw [retire_emit_unreadable bus code idx hnext] at h
    cases h

theorem EventCase.of_retire {i : Instr} {u : State} {bus : Action} {code : ResultCode} {idx : BitVec 16}
    (row : EndRow s i u bus code idx) (h : retire code idx (u.emit bus) = .ok t) : EventCase s i t := by
  rw [retire_emit_ok h]
  exact .ended row

theorem EventCase.of_sendByte {i : Instr} {j : BitVec 16} {p : Phase} (row : SendRow s i j p)
    (h : sendByte j p s.answered = .ok t) : EventCase s i t := by
  obtain ⟨-, rfl⟩ := sendByte_ok h
  exact .sent row

theorem enqueue_case {dir : Dir} (h : enqueue dir s = .ok t) : EffectCase s (enqueueOf dir) t := by
  have hcommand : isEvent (enqueueOf dir) = false := by cases dir <;> rfl
  obtain ⟨-, rfl⟩ | ⟨-, -, rfl⟩ | ⟨hlen, hroom, hbusy, rfl⟩ | ⟨hlen, hroom, hidle, hstart⟩ := enqueue_ok h
  · exact .rejected _ hcommand (by decide)
  · exact .rejected _ hcommand (by decide)
  · exact .queued dir rfl hlen hroom hbusy
  · rw [startOp_begun hstart]
    exact .started dir rfl hlen hroom hidle

theorem onTxc_case {a : Ack} (h : onTxc a s = .ok t) : EventCase s (.evTxc a) t := by
  obtain ⟨hp, ⟨rfl, hend⟩ | ⟨rfl, hdir, hleft, hsend⟩ | ⟨rfl, hdir, hdone, hend⟩ | ⟨rfl, hdir, hcur, hsend⟩ |
    ⟨rfl, hdir, hcur, rfl⟩ | ⟨rfl, hdir, h1, h2, rfl⟩⟩ := onTxc_ok h
  · exact .of_retire (.nacked hp) hend
  · exact .of_sendByte (.write hp hdir hleft) hsend
  · exact .of_retire (.lastByteSent hp hdir hdone) hend
  · exact .of_sendByte (.register hp hdir hcur) hsend
  · exact .restarted hp hdir hcur
  · exact .receiving hp hdir h1 h2

theorem onReq_case (h : onReq s = .ok t) : EventCase s .evReq t := by
  obtain ⟨hp, hsend⟩ := onReq_ok h
  exact .of_sendByte (.readdress hp) hsend

theorem onRxc_case {d : Byte} (h : onRxc d s = .ok t) : EventCase s (.evRxc d) t := by
  obtain ⟨hp, -, ⟨hmore, rfl⟩ | ⟨hlast, hend⟩⟩ := onRxc_ok h
  · exact .stored d hp hmore
  · exact .of_retire (.lastByteReceived d hp hlast) hend

theorem onArbl_case (h : onArbl s = .ok t) : EventCase s .evArbl t := by
  obtain ⟨hp, ⟨hr, hstart⟩ | ⟨hr, hend⟩⟩ := onArbl_ok h
  · rw [startOp_begun hstart]
    exact .retried hp hr
  · exact .of_retire (.arbitrationLost hp hr) hend

theorem onTmo_case (h : onTmo s = .ok t) : EventCase s .evTmo t := by
  obtain ⟨hp, rfl⟩ | ⟨hp, hend⟩ := onTmo_ok h
  · exact .ignored hp
  · exact .of_retire (.timedOut hp) hend

theorem effect_case {i : Instr} (h : effect i s = .ok t) : EffectCase s i t := by
  cases i with
  | wrDescPtr v =>
    obtain rfl := Except.ok.inj h
    exact .wroteDescPtr v rfl
  | wrDescLen v =>
    obtain rfl := Except.ok.inj h
    exact .wroteDescLen v rfl
  | rdDescPtr | rdDescLen | rdStatus | rdBeginSeq | rdEndSeq | rdCurByte | rdEnqStatus | rdLastTicket | rdResult =>
    obtain rfl := Except.ok.inj h
    exact .readRegister _ rfl
  | wrCmdReserved v =>
    obtain rfl := Except.ok.inj h
    exact .rejected _ rfl (by decide)
  | enqWrite => exact enqueue_case (dir := .write) h
  | enqRead => exact enqueue_case (dir := .read) h
  | evTxc a => exact .event (onTxc_case h)
  | evRxc d => exact .event (onRxc_case h)
  | evReq => exact .event (onReq_case h)
  | evArbl => exact .event (onArbl_case h)
  | evTmo => exact .event (onTmo_case h)
  | actStart =>
    obtain rfl := Except.ok.inj h
    exact .performed .start rfl
  | actRstart =>
    obtain rfl := Except.ok.inj h
    exact .performed .rstart rfl
  | actStop =>
    obtain rfl := Except.ok.inj h
    exact .performed .stop rfl
  | actTx b =>
    obtain rfl := Except.ok.inj h
    exact .performed (.tx b) rfl
  | actRx a =>
    obtain rfl := Except.ok.inj h
    exact .performed (.rx a) rfl
  | actRelease =>
    obtain rfl := Except.ok.inj h
    exact .performed .release rfl

/-- An operation leaves one of the cases, or the record of a model fault alone (R238). -/
theorem exec_case {i : Instr} (h : exec i s = .next t) : EffectCase s i t ∨ ∃ f, t = s.recordFault f := by
  obtain heffect | ⟨f, -, rfl⟩ := exec_cases h
  · exact .inl (effect_case heffect)
  · exact .inr ⟨f, rfl⟩

theorem EventCase.isEvent {i : Instr} (h : EventCase s i t) : isEvent i = true := by
  cases h with
  | ignored | restarted | receiving | stored | retried => rfl
  | sent row => cases row <;> rfl
  | ended row => cases row <;> rfl

/-- An event leaves one of its cases, or the record of a model fault alone. -/
theorem exec_event_case {i : Instr} (hi : isEvent i = true) (h : exec i s = .next t) :
    EventCase s i t ∨ ∃ f, t = s.recordFault f := by
  refine (exec_case h).imp_left fun hcase => ?_
  cases hcase with
  | event hevent => exact hevent
  | wroteDescPtr v he | wroteDescLen v he => rw [he] at hi; cases hi
  | readRegister v hne | rejected e hne => rw [hne] at hi; cases hi
  | queued dir he | started dir he => rw [he] at hi; cases dir <;> cases hi
  | performed a he => rw [he] at hi; cases a <;> cases hi

/-! ## What the rows leave unchanged, and the records they make -/

/-- A transaction is ended from a state where at most the PHY has answered, and a byte been received. -/
theorem EndRow.state {i : Instr} {u : State} {bus : Action} {code : ResultCode} {idx : BitVec 16}
    (row : EndRow s i u bus code idx) : ∃ o m c,
      u = ((s.setPhy { s.phy with outstanding := o }).setMem m).setCurByte c ∧
        (m = s.mem ∨ ∃ d, i = .evRxc d ∧ s.phase = .readData ∧ m = Memory.write s.mem (s.baddr s.curByte).toNat d) := by
  cases row with
  | lastByteSent | nacked | arbitrationLost => exact ⟨none, s.mem, s.curByte, rfl, .inl rfl⟩
  | lastByteReceived d hp => exact ⟨none, _, _, rfl, .inr ⟨d, rfl, hp, rfl⟩⟩
  | timedOut => exact ⟨s.phy.outstanding, s.mem, s.curByte, rfl, .inl rfl⟩

variable {i : Instr} {u : State} {bus : Action} {code : ResultCode} {idx : BitVec 16}

theorem EndRow.beginPos (row : EndRow s i u bus code idx) : u.beginPos = s.beginPos := by
  obtain ⟨o, m, c, rfl, -⟩ := row.state
  simp

theorem EndRow.idle (row : EndRow s i u bus code idx) : u.idle = s.idle := by
  obtain ⟨o, m, c, rfl, -⟩ := row.state
  simp

theorem EndRow.actions (row : EndRow s i u bus code idx) : u.actions = s.actions := by
  obtain ⟨o, m, c, rfl, -⟩ := row.state
  simp

theorem EndRow.beginSeq (row : EndRow s i u bus code idx) : u.beginSeq = s.beginSeq := by
  obtain ⟨o, m, c, rfl, -⟩ := row.state
  simp

theorem EndRow.endSeq (row : EndRow s i u bus code idx) : u.endSeq = s.endSeq := by
  obtain ⟨o, m, c, rfl, -⟩ := row.state
  simp

theorem EndRow.phase_ne_idle (row : EndRow s i u bus code idx) : s.phase ≠ .idle := by
  cases row with
  | lastByteSent hp | nacked hp => rcases hp with hp | hp <;> simp [hp]
  | lastByteReceived _ hp => simp [hp]
  | arbitrationLost hp | timedOut hp => exact hp

theorem EndRow.code_ne_none (row : EndRow s i u bus code idx) : code ≠ .none := by cases row <;> decide

theorem EndRow.index_of_ok (row : EndRow s i u bus code idx) (h : code = .ok) : idx = 0 := by
  cases row with
  | lastByteSent | lastByteReceived => rfl
  | nacked | arbitrationLost | timedOut => cases h

/-- STOP and RELEASE abandon what is outstanding (R183, R189). -/
theorem EndRow.bus_abandons (row : EndRow s i u bus code idx) (o : Option PhyOp) : bus.after o = none := by
  cases row <;> rfl

end

end Sys2Proof.Machine

/-! Proofs about what an operation changes and what it leaves unchanged: the queue's counters and slots, memory, the emitted
actions, and when a transaction ends. -/

namespace Sys2Proof.Machine

open Sys2Proof.Certificates

section

variable {s t : State} {i : Instr}

theorem isAction_of_isEvent (h : isEvent i = true) : isAction i = false := by
  cases i with
  | evTxc | evRxc | evReq | evArbl | evTmo => rfl
  | _ => cases h

/-! ## What the cases move -/

/-- BEGIN_SEQ moves where a transaction ends (R133). -/
theorem EventCase.beginSeq (h : EventCase s i t) : t.beginSeq = s.beginSeq ∨ t.beginSeq = s.beginSeq + 1 := by
  cases h with
  | ended row =>
    obtain ⟨o, m, c, rfl, -⟩ := row.state
    simp
  | ignored => exact .inl rfl
  | sent | restarted | receiving | stored | retried => simp

theorem EventCase.endSeq (h : EventCase s i t) : t.endSeq = s.endSeq := by
  cases h with
  | ended row =>
    obtain ⟨o, m, c, rfl, -⟩ := row.state
    simp
  | ignored => rfl
  | sent | restarted | receiving | stored | retried => simp

theorem EventCase.slots (h : EventCase s i t) : t.slots = s.slots := by
  cases h with
  | ended row =>
    obtain ⟨o, m, c, rfl, -⟩ := row.state
    simp
  | ignored => rfl
  | sent | restarted | receiving | stored | retried => simp

theorem EventCase.slot (h : EventCase s i t) (k : BitVec 4) : t.slot k = s.slot k := by
  rw [State.slot, State.slot]
  simp only [h.slots]

/-- Memory is written where a byte is received (R51). -/
theorem EventCase.mem (h : EventCase s i t) : t.mem = s.mem ∨
    ∃ d, i = .evRxc d ∧ s.phase = .readData ∧ t.mem = Memory.write s.mem (s.baddr s.curByte).toNat d := by
  cases h with
  | stored d hp => exact .inr ⟨d, rfl, hp, rfl⟩
  | ended row =>
    obtain ⟨o, m, c, rfl, hm⟩ := row.state
    simpa using hm
  | ignored => exact .inl rfl
  | sent | restarted | receiving | retried => simp

theorem EffectCase.beginSeq (h : EffectCase s i t) :
    t.beginSeq = s.beginSeq ∨ (isEvent i = true ∧ t.beginSeq = s.beginSeq + 1) := by
  cases h with
  | event hevent => exact hevent.beginSeq.imp_right fun hb => ⟨hevent.isEvent, hb⟩
  | wroteDescPtr | wroteDescLen | readRegister | rejected | queued | started | performed => simp

/-- END_SEQ and the two registers that go with it move with an accepted enqueue (R104). -/
theorem EffectCase.endSeq (h : EffectCase s i t) : t.endSeq = s.endSeq ∨
    (isEnqueue i = true ∧ t.endSeq = s.endSeq + 1 ∧ t.enqStatus = .ok ∧ t.lastTicket = s.endSeq) := by
  cases h with
  | queued dir hi | started dir hi =>
    have hcommand : isEnqueue i = true := by rw [hi]; cases dir <;> rfl
    exact .inr ⟨hcommand, by simp⟩
  | event hevent => exact .inl hevent.endSeq
  | wroteDescPtr | wroteDescLen | readRegister | rejected | performed => simp

theorem EffectCase.mem (h : EffectCase s i t) : t.mem = s.mem ∨
    ∃ d, i = .evRxc d ∧ s.phase = .readData ∧ t.mem = Memory.write s.mem (s.baddr s.curByte).toNat d := by
  cases h with
  | event hevent => exact hevent.mem
  | wroteDescPtr | wroteDescLen | readRegister | rejected | queued | started | performed => simp

end

/-- Settles O32: a fault moves neither counter, and the cases move them as `EffectCase.beginSeq` and `EffectCase.endSeq` say. -/
theorem sequenceCountersAdvance : Obligations.SequenceCountersAdvance := by
  intro i s t h
  obtain hcase | ⟨f, rfl⟩ := exec_case h
  · exact ⟨hcase.beginSeq, hcase.endSeq⟩
  · exact ⟨.inl rfl, .inl rfl⟩

/-- With room in the queue endPos is free (R25, R28), so a pending slot is another one. -/
theorem State.ne_endPos_of_occupied {s : State} {k : BitVec 4} (hbound : s.countBounded) (hroom : s.count ≠ 16)
    (hk : s.occupied k = true) : k ≠ s.endPos := by
  have hlt : s.count.toNat < 16 := by
    have : s.count.toNat ≠ 16 := fun h => hroom (BitVec.eq_of_toNat_eq h)
    omega
  rintro rfl
  rw [State.occupied_endPos hlt] at hk
  cases hk

/-- Settles O31: only an accepted enqueue writes a slot, and the one at endPos. -/
theorem pendingSlotsImmutable : Obligations.PendingSlotsImmutable := by
  intro i s t hinv h k hk
  obtain hcase | ⟨f, rfl⟩ := exec_case h
  · cases hcase with
    | queued dir _ _ hroom | started dir _ _ hroom =>
      simp [State.accepted_slot_other s dir k (State.ne_endPos_of_occupied hinv.1 hroom hk)]
    | event hevent => exact hevent.slot k
    | wroteDescPtr | wroteDescLen | readRegister | rejected | performed => rfl
  · rfl

/-- Settles O30: of the four ways an enqueue ends, the two acceptances write endPos, and the one from idle starts. -/
theorem enqueueFrame : Obligations.EnqueueFrame := by
  intro s t dir h
  rw [exec_enqueueOf] at h
  obtain henq | ⟨f, -, rfl⟩ := settle_cases h
  · obtain ⟨-, rfl⟩ | ⟨-, -, rfl⟩ | ⟨-, -, hbusy, rfl⟩ | ⟨-, -, hidle, hstart⟩ := enqueue_ok henq
    · simp
    · simp
    · have other (k : BitVec 4) (hk : k ≠ slotOf s.endSeq) :
          (s.accepted dir).slot k = s.slot k ∧ (s.accepted dir).result k = s.result k :=
        ⟨State.accepted_slot_other s dir k hk, State.accepted_result_other s dir k hk⟩
      simpa using other
    · have other (k : BitVec 4) (hk : k ≠ slotOf s.endSeq) :
          (s.accepted dir).slot k = s.slot k ∧ (s.accepted dir).result k = s.result k :=
        ⟨State.accepted_slot_other s dir k hk, State.accepted_result_other s dir k hk⟩
      rw [startOp_begun hstart]
      simpa [hidle] using other
  · simp

/-! ## Memory -/

theorem exec_mem {s t : State} {i : Instr} (h : exec i s = .next t) : t.mem = s.mem ∨
    ∃ d, i = .evRxc d ∧ s.phase = .readData ∧ t.mem = Memory.write s.mem (s.baddr s.curByte).toNat d := by
  obtain hcase | ⟨f, rfl⟩ := exec_case h
  · exact hcase.mem
  · exact .inl rfl

/-- A byte received in READ_DATA that is not discarded is stored at index CUR_BYTE (R147, R148). -/
theorem exec_evRxc_mem {s t : State} {d : Byte} (h : exec (.evRxc d) s = .next t) (hfaults : t.faults = s.faults) :
    t.mem = Memory.write s.mem (s.baddr s.curByte).toNat d := by
  obtain hcase | ⟨f, rfl⟩ := exec_event_case rfl h
  · cases hcase with
    | stored => rfl
    | ended row => cases row; simp
    | sent row => cases row
  · simp at hfaults

/-- Settles O42: memory is as it was, or written at baddr(CUR_BYTE). -/
theorem memoryFrame : Obligations.MemoryFrame := by
  refine ⟨?others, ?elsewhere, ?received⟩
  case others =>
    intro i s t hi h a
    obtain hmem | ⟨d, rfl, -⟩ := exec_mem h
    · rw [hmem]
    · exact absurd rfl (hi d)
  case elsewhere =>
    intro d s t h a ha
    obtain hmem | ⟨d', -, -, hmem⟩ := exec_mem h
    · rw [hmem]
    · rw [hmem, Memory.read_write_other ha]
  case received =>
    intro d s t hwf _ h hfaults
    rw [exec_evRxc_mem h hfaults, Memory.read_write_same d hwf]

/-- R38: outside IDLE a transaction is pending, the one in flight. -/
theorem State.Inv.cur_occupied {s : State} (h : s.Inv) (hp : s.phase ≠ .idle) : s.occupied s.beginPos = true := by
  obtain ⟨-, ⟨hcount, hphase⟩, -⟩ := h
  exact State.occupied_beginPos fun hzero => hp (hphase.mp (hcount.mpr hzero))

/-- R52: the offset of `baddr(i)` in its buffer is `i`. -/
theorem State.baddr_sub_ptr (s : State) (i : BitVec 16) : (s.baddr i - s.cur.ptr).toNat = i.toNat := by
  have hoff : s.baddr i - s.cur.ptr = i.setWidth 32 := by
    rw [State.baddr, BitVec.add_comm, BitVec.add_sub_cancel]
  rw [hoff, BitVec.toNat_setWidth]
  exact Nat.mod_eq_of_lt (by omega)

/-- Settles O43: the byte is at index CUR_BYTE, and in READ_DATA R38 has 3 ≤ CUR_BYTE < len. -/
theorem storesOnlyToOwnedBytes : Obligations.StoresOnlyToOwnedBytes := by
  intro i s t a hinv h hchanged
  obtain hmem | ⟨d, -, hp, hmem⟩ := exec_mem h
  · exact absurd (by rw [hmem]) hchanged
  · have ha : a = s.baddr s.curByte := by
      by_contra hne
      exact hchanged (by rw [hmem, Memory.read_write_other fun e => hne (BitVec.eq_of_toNat_eq e)])
    have hocc : s.occupied s.beginPos = true := hinv.cur_occupied (by simp [hp])
    obtain ⟨-, -, -, -, -, -, hread, -⟩ := hinv
    obtain ⟨-, hlow, hhigh⟩ := hread hp
    have hcovers : s.cur.covers a := by
      rw [ha, Slot.covers, State.baddr_sub_ptr]
      exact hhigh
    refine ⟨ha, hcovers, ?_, hocc, s.beginPos, hocc, hcovers⟩
    rw [ha, State.baddr_sub_ptr]
    exact hlow

/-! ## Events -/

/-- Settles O50: an event's cases write the sequencer's registers, the record at beginPos, memory, the emitted actions and what
is outstanding. -/
theorem eventFrame : Obligations.EventFrame := by
  intro i s t hi h
  obtain hcase | ⟨f, rfl⟩ := exec_event_case hi h
  · cases hcase with
    | @ended _ u bus code idx row =>
      obtain ⟨o, m, c, rfl, -⟩ := row.state
      have other (k : BitVec 4) (hk : k ≠ s.beginPos) := afterRetire_result_other
        (((s.setPhy { s.phy with outstanding := o }).setMem m).setCurByte c) bus code idx hk
      simpa using other
    | ignored | sent | restarted | receiving | stored | retried => simp
  · simp

/-- R133: once BEGIN_SEQ has advanced the block is idle, or the next transaction has begun. -/
theorem afterRetire_next {s t : State} {bus : Action} {code : ResultCode} {idx : BitVec 16}
    (ht : t = afterRetire s bus code idx) :
    (t.endSeq = t.beginSeq ∧ t.idle = true ∧ t.phase = .idle) ∨
      (t.endSeq ≠ t.beginSeq ∧ t.idle = s.idle ∧ t.phase = .addr ∧ t.curByte = 1 ∧ t.retries = 0) := by
  by_cases hlast : lastPending s
  · rw [ht, afterRetire_last hlast]
    exact .inl (by simp [hlast])
  · rw [ht, afterRetire_more hlast]
    exact .inr (by simpa using hlast)

/-- Settles O53: of an event's cases the end of a transaction is the one that advances BEGIN_SEQ; its record is no NONE. -/
theorem retireRecovers : Obligations.RetireRecovers := by
  intro i s t hi h hadvanced
  obtain hcase | ⟨f, rfl⟩ := exec_event_case hi h
  · cases hcase with
    | ended row =>
      rw [← row.beginPos, ← row.idle, afterRetire_result_same]
      exact ⟨row.code_ne_none, afterRetire_next rfl⟩
    | ignored | sent | restarted | receiving | stored | retried => simp at hadvanced
  · simp at hadvanced

/-! ## Emitted actions -/

/-- The actions an operation that is not discarded emits (R180). -/
theorem EventCase.actions {s t : State} {i : Instr} (h : EventCase s i t) :
    ∃ l : List Action, t.actions = s.actions ++ l ∧ l.length ≤ 3 := by
  cases h with
  | ended row =>
    rw [← row.actions]
    refine ⟨_, afterRetire_actions _ _ _ _, ?_⟩
    split <;> simp
  | ignored => exact ⟨[], by simp, by simp⟩
  | sent | restarted | receiving | stored => exact ⟨[_], rfl, by simp⟩
  | retried => exact ⟨[.release, .start, .tx (Memory.read s.mem s.cur.ptr.toNat)], by simp, by simp⟩

/-- Settles O52: a host or event operation emits what its case says, and the PHY's performing emits nothing. -/
theorem atMostThreeActions : Obligations.AtMostThreeActions := by
  intro i s t h
  have none (ht : t.actions = s.actions) :
      ∃ l : List Action, t.actions = s.actions ++ l ∧ l.length ≤ 3 ∧ (isAction i = true → l = []) :=
    ⟨[], by simp [ht], by simp, fun _ => rfl⟩
  obtain hcase | ⟨f, rfl⟩ := exec_case h
  · cases hcase with
    | event hevent =>
      obtain ⟨l, hl, hlen⟩ := hevent.actions
      refine ⟨l, hl, hlen, fun haction => ?_⟩
      rw [isAction_of_isEvent hevent.isEvent] at haction
      cases haction
    | started dir hi =>
      refine ⟨[.start, .tx (Memory.read s.mem (s.accepted dir).cur.ptr.toNat)], by simp, by simp, fun haction => ?_⟩
      rw [hi] at haction
      cases dir <;> cases haction
    | wroteDescPtr | wroteDescLen | readRegister | rejected | queued | performed => exact none rfl
  · exact none rfl

/-! ## When a transaction ends -/

section

variable {s t : State} {i : Instr}

theorem isEvent_of_endsTransaction (h : endsTransaction i s) : isEvent i = true := by
  obtain ⟨rfl, -⟩ | ⟨rfl, -⟩ | ⟨⟨d, rfl⟩, -⟩ | ⟨rfl, -⟩ | ⟨rfl, -⟩ := h
  all_goals rfl

/-- R38: while a byte is being transmitted the cursor is within the transaction. -/
theorem State.Inv.curByte_le_len (hinv : s.Inv) (hp : s.transmitting) : s.curByte ≤ s.cur.len := by
  obtain ⟨-, -, -, haddr, -, hwrite, -⟩ := hinv
  obtain hp | hp := hp
  · obtain ⟨-, -, hle⟩ := haddr hp
    exact hle
  · obtain ⟨-, -, hle⟩ := hwrite hp
    exact hle

/-- R38 makes the bounds at which a transaction ends equalities (R138, R148, R152). -/
theorem EndRow.endsTransaction {u : State} {bus : Action} {code : ResultCode} {idx : BitVec 16}
    (row : EndRow s i u bus code idx) (hinv : s.Inv) : endsTransaction i s := by
  cases row with
  | lastByteSent hp hdir hdone =>
    exact .inl ⟨rfl, hp, hdir, BitVec.le_antisymm (hinv.curByte_le_len hp) (BitVec.not_lt.mp hdone)⟩
  | nacked hp => exact .inr (.inl ⟨rfl, hp⟩)
  | lastByteReceived d hp hlast =>
    obtain ⟨-, -, -, -, -, -, hread, -⟩ := hinv
    obtain ⟨-, -, hlt⟩ := hread hp
    exact .inr (.inr (.inl ⟨⟨d, rfl⟩, hp, by bv_omega⟩))
  | arbitrationLost hp hr =>
    obtain ⟨-, -, -, -, -, -, -, -, hretries⟩ := hinv
    exact .inr (.inr (.inr (.inl ⟨rfl, hp, BitVec.le_antisymm hretries (BitVec.not_lt.mp hr)⟩)))
  | timedOut hp => exact .inr (.inr (.inr (.inr ⟨rfl, hp⟩)))

theorem SendRow.not_endsTransaction {j : BitVec 16} {p : Phase} (row : SendRow s i j p) : ¬ endsTransaction i s := by
  cases row with
  | write hp hdir hleft =>
    have hne : s.curByte ≠ s.cur.len := BitVec.ne_of_lt hleft
    simp [endsTransaction, hne]
  | register hp hdir => simp [endsTransaction, hdir]
  | readdress => simp [endsTransaction]

/-- R159: an event that is not discarded ends the transaction in flight and advances BEGIN_SEQ, or does neither. -/
theorem EventCase.ends_iff_advances (h : EventCase s i t) (hinv : s.Inv) :
    (endsTransaction i s ∧ t.beginSeq = s.beginSeq + 1) ∨ (¬ endsTransaction i s ∧ t.beginSeq = s.beginSeq) := by
  cases h with
  | ended row =>
    refine .inl ⟨row.endsTransaction hinv, ?_⟩
    rw [afterRetire_beginSeq, row.beginSeq]
  | sent row => exact .inr ⟨row.not_endsTransaction, by simp⟩
  | ignored hp => exact .inr ⟨by simp [endsTransaction, hp], rfl⟩
  | restarted _ hdir | receiving _ hdir => exact .inr ⟨by simp [endsTransaction, hdir], by simp⟩
  | stored d _ hmore =>
    have hne : s.curByte + 1 ≠ s.cur.len := BitVec.ne_of_lt hmore
    exact .inr ⟨by simpa [endsTransaction] using fun _ => hne, by simp⟩
  | retried _ hr =>
    have hne : s.retries ≠ s.params.arbRetryMax := BitVec.ne_of_lt hr
    exact .inr ⟨by simp [endsTransaction, hne], by simp⟩

theorem EffectCase.ends_iff_advances (h : EffectCase s i t) (hinv : s.Inv) :
    (endsTransaction i s ∧ t.beginSeq = s.beginSeq + 1) ∨ (¬ endsTransaction i s ∧ t.beginSeq = s.beginSeq) := by
  have keeps (hi : isEvent i = false) (hb : t.beginSeq = s.beginSeq) : ¬ endsTransaction i s ∧ t.beginSeq = s.beginSeq :=
    ⟨fun hends => absurd (isEvent_of_endsTransaction hends) (Bool.eq_false_iff.mp hi), hb⟩
  cases h with
  | event hevent => exact hevent.ends_iff_advances hinv
  | wroteDescPtr v hi | wroteDescLen v hi => exact .inr (keeps (by rw [hi]; rfl) rfl)
  | readRegister v hi | rejected e hi => exact .inr (keeps hi rfl)
  | queued dir hi | started dir hi => exact .inr (keeps (by rw [hi]; cases dir <;> rfl) (by simp))
  | performed a hi => exact .inr (keeps (by rw [hi]; cases a <;> rfl) rfl)

end

/-- Settles O59: an operation that is not discarded is one of the cases, and each ends the transaction or keeps BEGIN_SEQ. -/
theorem transactionEndsExactly : Obligations.TransactionEndsExactly := by
  intro i s t hinv h hfaults
  obtain hcase | ⟨f, rfl⟩ := exec_case h
  · obtain ⟨hends, hb⟩ | ⟨hends, hb⟩ := hcase.ends_iff_advances hinv
    · exact ⟨fun _ => hb, fun hnot => absurd hends hnot⟩
    · exact ⟨fun hdoes => absurd hdoes hends, fun _ => hb⟩
  · simp at hfaults

end Sys2Proof.Machine

/-! Proofs of the invariants that every step keeps (R38, R36, R187): one packaging of what a step can do, `KeptBySteps.step`, and
for each invariant what it takes. -/

namespace Sys2Proof.Machine

open Sys2Proof.Certificates

/-! ## What a step can do to an invariant -/

/-- What makes `P` an invariant of the steps: the agents' steps other than an operation keep it, and so does every operation that
is not the PHY's. -/
structure KeptBySteps (P : State → Prop) : Prop where
  inputs : ∀ s l, P s → P (s.setInputs l)
  fault : ∀ s f, P s → P (s.recordFault f)
  store : ∀ s (addr : Word) v, P s → P (s.setMem (Memory.write s.mem addr.toNat v))
  load : ∀ s v, P s → P (s.setLoadData v)
  perform : ∀ s a more, s.actions = a :: more → P s → P ((s.setActions more).perform a)
  effect : ∀ s t i, isAction i = false → EffectCase s i t → P s → P t

theorem isAction_of_decodeHost {w : BitVec 41} {i : Instr} (h : decodeHost w = .ok i) : isAction i = false := by
  obtain ⟨-, henc⟩ := encode_of_decodeHost h
  cases i with
  | actStart | actRstart | actStop | actTx | actRx | actRelease => cases henc
  | _ => rfl

theorem isEvent_of_decodeEvent {w : BitVec 12} {i : Instr} (h : decodeEvent w = .ok i) : isEvent i = true := by
  obtain ⟨a, rfl, -⟩ | ⟨d, rfl, -⟩ | ⟨rfl, -⟩ | ⟨rfl, -⟩ | ⟨rfl, -⟩ := decodeEvent_ok h
  all_goals rfl

/-- Catching up is performing the oldest action and catching up on the rest (R180). -/
theorem State.catchUp_cons {s : State} {a : Action} {more : List Action} (h : s.actions = a :: more) :
    s.catchUp = ((s.setActions more).perform a).catchUp := by
  rw [State.catchUp, State.catchUp, h]
  rfl

theorem State.catchUp_nil {s : State} (h : s.actions = []) : s.catchUp = s := by
  rw [State.catchUp, h]
  ext1 <;> simp [h]

namespace KeptBySteps

variable {P : State → Prop} (kept : KeptBySteps P) {s t : State}

include kept

theorem catchUp (hs : P s) : P s.catchUp := by
  generalize hl : s.actions = l
  induction l generalizing s with
  | nil =>
    rw [State.catchUp_nil hl]
    exact hs
  | cons a more ih =>
    rw [State.catchUp_cons hl]
    exact ih (kept.perform s a more hl hs) (by simp)

theorem exec {i : Instr} (hi : isAction i = false) (hs : P s) (h : exec i s = .next t) : P t := by
  obtain hcase | ⟨f, rfl⟩ := exec_case h
  · exact kept.effect s t i hi hcase hs
  · exact kept.fault s f hs

theorem deliverHost {w : BitVec 41} (hs : P s) (h : deliverHost w s = .next t) : P t := by
  unfold Machine.deliverHost at h
  split at h
  · next i hdec => exact kept.exec (isAction_of_decodeHost hdec) hs h
  · cases h
    exact kept.fault s _ hs

theorem deliverBus {a : BusAccess} (hs : P s) (h : deliverBus a s = .next t) : P t := by
  unfold Machine.deliverBus at h
  split at h
  · split at h
    · exact kept.deliverHost hs h
    · cases h
      exact kept.fault s _ hs
    · cases h
      exact kept.fault s _ hs
  · cases h
    exact hs

theorem deliverEvent {w : BitVec 12} (hs : P s) (h : deliverEvent w s = .next t) : P t := by
  unfold Machine.deliverEvent at h
  split at h
  · next i hdec =>
    split at h
    · cases h
    · have hraising : P (s.raising i) := by
        obtain heq | ⟨-, heq⟩ := s.raising_cases i
        · rw [heq]
          exact hs
        · rw [heq]
          exact kept.catchUp hs
      exact kept.exec (isAction_of_isEvent (isEvent_of_decodeEvent hdec)) hraising h
  · cases h
    exact kept.fault s _ hs

theorem deliverPerform (hs : P s) (h : deliverPerform s = .next t) : P t := by
  unfold Machine.deliverPerform at h
  split at h
  · cases h
    exact hs
  · next a more ha =>
    rw [exec_toInstr] at h
    cases h
    exact kept.perform s a more ha hs

theorem step (hs : P s) (h : step s = .next t) : P t := by
  cases hin : s.inputs with
  | nil =>
    rw [step_waits hin] at h
    cases h
    exact hs
  | cons input rest =>
    rw [step_head hin] at h
    have hs' := kept.inputs s rest hs
    cases input with
    | host w => exact kept.deliverHost hs' h
    | bus a => exact kept.deliverBus hs' h
    | event w => exact kept.deliverEvent hs' h
    | perform => exact kept.deliverPerform hs' h
    | store addr v =>
      cases h
      exact kept.store (s.setInputs rest) addr v hs'
    | load addr =>
      cases h
      exact kept.load _ _ hs'

end KeptBySteps

/-! ## Memory's canonical form -/

theorem memCanonical_kept : KeptBySteps State.memCanonical where
  inputs _ _ h := h
  fault _ _ h := h
  store _ addr v h := Memory.write_wf addr v h
  load _ _ h := h
  perform _ _ _ _ h := h
  effect s t i _ hcase h := by
    obtain hmem | ⟨d, -, -, hmem⟩ := hcase.mem
    · rw [State.memCanonical, hmem]
      exact h
    · rw [State.memCanonical, hmem]
      exact Memory.write_wf _ d h

/-- Settles O18: memory is written at 32-bit addresses by `Memory.write` alone. -/
theorem stepKeepsMemoryCanonical : Obligations.StepKeepsMemoryCanonical :=
  fun _ _ hs h => memCanonical_kept.step hs h

/-! ## LAST_TICKET -/

theorem EventCase.enqStatus {s t : State} {i : Instr} (h : EventCase s i t) :
    t.enqStatus = s.enqStatus ∧ t.lastTicket = s.lastTicket := by
  cases h with
  | ended row =>
    obtain ⟨o, m, c, rfl, -⟩ := row.state
    simp
  | ignored => exact ⟨rfl, rfl⟩
  | sent | restarted | receiving | stored | retried => simp

theorem ticketAgrees_kept : KeptBySteps State.ticketAgrees where
  inputs _ _ h := h
  fault _ _ h := h
  store _ _ _ h := h
  load _ _ h := h
  perform _ _ _ _ h := h
  effect s t i _ hcase h := by
    cases hcase with
    | event hevent =>
      obtain ⟨hstatus, hticket⟩ := hevent.enqStatus
      rw [State.ticketAgrees, hstatus, hticket, hevent.endSeq]
      exact h
    | queued | started => simp [State.ticketAgrees]
    | rejected e _ hne => exact fun he => absurd he hne
    | wroteDescPtr | wroteDescLen | readRegister | performed => exact h

/-- Settles O21: an accepted enqueue sets both registers, and a rejected one leaves ENQ_STATUS other than OK. -/
theorem stepKeepsTicketAgreement : Obligations.StepKeepsTicketAgreement :=
  fun _ _ hs h => ticketAgrees_kept.step hs h

/-! ## Which slots are pending after an enqueue and after a retire -/

section

variable {s t : State}

theorem State.toNat_count_lt (hbound : s.countBounded) (hroom : s.count ≠ 16) : s.count.toNat < 16 :=
  lt_of_le_of_ne hbound fun h => hroom (BitVec.eq_of_toNat_eq h)

theorem State.beginPos_congr (hb : t.beginSeq = s.beginSeq) : t.beginPos = s.beginPos := congrArg slotOf hb

theorem State.count_congr (hb : t.beginSeq = s.beginSeq) (he : t.endSeq = s.endSeq) : t.count = s.count := by
  rw [State.count, State.count, hb, he]

theorem State.occupied_congr (hb : t.beginSeq = s.beginSeq) (he : t.endSeq = s.endSeq) (k : BitVec 4) :
    t.occupied k = s.occupied k := by
  rw [State.occupied, State.occupied, State.beginPos_congr hb, State.count_congr hb he]

/-- One more sequence number is one more in COUNT (R28). -/
theorem State.count_enqueued (hb : t.beginSeq = s.beginSeq) (he : t.endSeq = s.endSeq + 1) : t.count = s.count + 1 := by
  rw [State.count, State.count, hb, he]
  bv_omega

theorem State.count_retired (hb : t.beginSeq = s.beginSeq + 1) (he : t.endSeq = s.endSeq) : t.count = s.count - 1 := by
  rw [State.count, State.count, hb, he]
  bv_omega

/-- R104: an accepted enqueue adds the slot at endPos. -/
theorem State.occupied_enqueued (hb : t.beginSeq = s.beginSeq) (he : t.endSeq = s.endSeq + 1) (hlt : s.count.toNat < 16)
    {k : BitVec 4} : t.occupied k = true ↔ s.occupied k = true ∨ k = s.endPos := by
  have hcount : t.count.toNat = s.count.toNat + 1 := by
    rw [State.count_enqueued hb he]
    bv_omega
  have hend : (s.endPos - s.beginPos).toNat = s.count.toNat := by
    rw [State.endPos, State.beginPos, slotOf_sub, slotOf, BitVec.toNat_setWidth]
    exact Nat.mod_eq_of_lt hlt
  rw [State.occupied_iff, State.occupied_iff, hcount, State.beginPos, hb, ← State.beginPos]
  constructor
  · intro h
    refine (Nat.lt_succ_iff_lt_or_eq.mp h).imp_right fun heq => ?_
    bv_omega
  · rintro (h | rfl)
    · omega
    · omega

/-- R133: a retire frees the slot at beginPos. -/
theorem State.occupied_retired (hb : t.beginSeq = s.beginSeq + 1) (he : t.endSeq = s.endSeq) (hbound : s.countBounded)
    (hpos : s.count ≠ 0) {k : BitVec 4} : t.occupied k = true ↔ s.occupied k = true ∧ k ≠ s.beginPos := by
  have hcount : t.count.toNat = s.count.toNat - 1 ∧ 1 ≤ s.count.toNat := by
    rw [State.count_retired hb he]
    bv_omega
  have hbegin : t.beginPos = s.beginPos + 1 := by rw [State.beginPos, hb, slotOf_succ, State.beginPos]
  rw [State.occupied_iff, State.occupied_iff, hbegin, hcount.1]
  have hbound' : s.count.toNat ≤ 16 := hbound
  bv_omega

end

end Sys2Proof.Machine

/-! Proofs of the invariant of R38, of the records of R36 and of what the PHY owes (R187). -/

namespace Sys2Proof.Machine

open Sys2Proof.Certificates

/-! ## R38, with its items on the cursor as one condition -/

/-- R38, items 3 and 4: where CUR_BYTE is in the transaction `d`, by PHASE. -/
def cursorHeld (d : Slot) (c : BitVec 16) : Phase → Prop
  | .idle => True
  | .addr => 1 ≤ c ∧ c ≤ headerLen d.dir ∧ c ≤ d.len
  | .restart => d.dir = .read ∧ c = 2
  | .writeData => d.dir = .write ∧ 3 ≤ c ∧ c ≤ d.len
  | .readData => d.dir = .read ∧ 3 ≤ c ∧ c < d.len
  | .stop => False

theorem State.Inv_iff (s : State) : s.Inv ↔
    s.countBounded ∧ s.idleAgrees ∧ cursorHeld s.cur s.curByte s.phase ∧ s.queueLegal ∧ s.retriesBounded := by
  unfold State.Inv
  simp only [State.phaseHeld, State.addrCursor, State.restartCursor, State.writeCursor, State.readCursor]
  cases s.phase <;> simp [cursorHeld]

section

variable {s t : State} {i : Instr}

theorem State.idleAgrees_of_idle (hidle : s.idle = true) (hcount : s.count = 0) (hp : s.phase = .idle) : s.idleAgrees :=
  ⟨iff_of_true hidle hcount, iff_of_true hidle hp⟩

theorem State.idleAgrees_of_busy (hidle : s.idle = false) (hcount : s.count ≠ 0) (hp : s.phase ≠ .idle) : s.idleAgrees :=
  ⟨iff_of_false (Bool.eq_false_iff.mp hidle) hcount, iff_of_false (Bool.eq_false_iff.mp hidle) hp⟩

/-! ## What R38 says of the transaction in flight -/

theorem State.Inv.cursor (h : s.Inv) : cursorHeld s.cur s.curByte s.phase := by
  obtain ⟨-, -, hcursor, -⟩ := s.Inv_iff.mp h
  exact hcursor

theorem State.Inv.idle_of_phase (h : s.Inv) (hp : s.phase ≠ .idle) : s.idle = false := by
  obtain ⟨-, ⟨-, hphase⟩, -⟩ := h
  exact Bool.eq_false_iff.mpr fun hidle => hp (hphase.mp hidle)

theorem State.Inv.count_ne_zero (h : s.Inv) (hidle : s.idle = false) : s.count ≠ 0 := by
  obtain ⟨-, ⟨hcount, -⟩, -⟩ := h
  exact fun hzero => Bool.eq_false_iff.mp hidle (hcount.mpr hzero)

theorem State.Inv.retriesBounded (h : s.Inv) : s.retriesBounded := by
  obtain ⟨-, -, -, -, hretries⟩ := s.Inv_iff.mp h
  exact hretries

/-- The least length of the transaction at the head of the queue (R102). -/
theorem State.minLen_le_of_legal (h : s.queueLegal) (hcount : s.count ≠ 0) :
    (minLen s.cur.dir).toNat ≤ s.cur.len.toNat := by
  have hlen := h s.beginPos (State.occupied_beginPos hcount)
  rw [BitVec.le_def, BitVec.toNat_setWidth, Nat.mod_eq_of_lt (by omega)] at hlen
  exact hlen

theorem State.Inv.minLen_le (h : s.Inv) (hp : s.phase ≠ .idle) : (minLen s.cur.dir).toNat ≤ s.cur.len.toNat := by
  have hcount := h.count_ne_zero (h.idle_of_phase hp)
  obtain ⟨-, -, -, -, -, -, -, hlegal, -⟩ := h
  exact State.minLen_le_of_legal hlegal hcount

/-- The least length of a read (R102). -/
theorem State.Inv.four_le_len (h : s.Inv) (hp : s.phase ≠ .idle) (hdir : s.cur.dir = .read) : 4 ≤ s.cur.len.toNat := by
  have hlen := h.minLen_le hp
  rw [hdir] at hlen
  exact hlen

/-- The first byte of a transaction is within its header and its length. -/
theorem cursorHeld_first {d : Slot} (h : (minLen d.dir).toNat ≤ d.len.toNat) : cursorHeld d 1 .addr := by
  have hpos : 1 ≤ d.len.toNat := by
    cases hd : d.dir <;> simp [hd, minLen] at h <;> omega
  have hheader : (1 : BitVec 16) ≤ headerLen d.dir := by cases d.dir <;> decide
  exact ⟨by decide, hheader, by bv_omega⟩

/-! ## An operation keeps R38 -/

/-- The queue's part of R38 when neither counter moves: only the cursor is left to check. -/
theorem State.Inv.of_moved (h : s.Inv) (hb : t.beginSeq = s.beginSeq) (he : t.endSeq = s.endSeq) (hslots : t.slots = s.slots)
    (hidle : t.idle = s.idle) (hp : s.phase ≠ .idle) (hp' : t.phase ≠ .idle) (hcursor : cursorHeld s.cur t.curByte t.phase)
    (hretries : t.retriesBounded) : t.Inv := by
  have hslot (k : BitVec 4) : t.slot k = s.slot k := by simp [State.slot, hslots]
  have hcur : t.cur = s.cur := by rw [State.cur, State.cur, hslot, State.beginPos_congr hb]
  have hcount := State.count_congr hb he
  have hbusy := h.idle_of_phase hp
  obtain ⟨hbound, ⟨hzero, -⟩, -, hlegal, -⟩ := s.Inv_iff.mp h
  refine t.Inv_iff.mpr ⟨?_, ⟨?_, ?_⟩, ?_, ?_, hretries⟩
  · rw [State.countBounded, hcount]
    exact hbound
  · rw [hidle, hcount]
    exact hzero
  · exact iff_of_false (by simp [hidle, hbusy]) hp'
  · rw [hcur]
    exact hcursor
  · intro k hk
    rw [hslot]
    exact hlegal k (State.occupied_congr hb he k ▸ hk)

theorem phaseAfterTx_ne_idle (j : BitVec 16) : phaseAfterTx j ≠ .idle := by
  unfold phaseAfterTx
  split <;> decide

/-- R134: after byte `j` of a write, with `j` below its length, the cursor is in the phase's bounds. -/
theorem cursorHeld_phaseAfterTx {d : Slot} {j : BitVec 16} (hdir : d.dir = .write) (hlt : j < d.len) :
    cursorHeld d (j + 1) (phaseAfterTx j) := by
  unfold phaseAfterTx
  split
  · next h =>
    refine ⟨by bv_omega, ?_, by bv_omega⟩
    rw [hdir, headerLen]
    bv_omega
  · next h => exact ⟨hdir, by bv_omega, by bv_omega⟩

/-- R38: a read is transmitting in ADDR only, with CUR_BYTE 1, 2 or 3. -/
theorem State.Inv.transmitting_read (h : s.Inv) (hp : s.transmitting) (hdir : s.cur.dir = .read) :
    s.phase = .addr ∧ 1 ≤ s.curByte ∧ s.curByte ≤ 3 := by
  have hcursor := h.cursor
  obtain hp | hp := hp
  · rw [hp, cursorHeld, hdir] at hcursor
    exact ⟨hp, hcursor.1, hcursor.2.1⟩
  · rw [hp, cursorHeld, hdir] at hcursor
    exact absurd hcursor.1 (by decide)

theorem State.transmitting.phase_ne_idle (hp : s.transmitting) : s.phase ≠ .idle := by
  rcases hp with hp | hp <;> simp [hp]

theorem SendRow.phase_ne_idle {j : BitVec 16} {p : Phase} (row : SendRow s i j p) : s.phase ≠ .idle ∧ p ≠ .idle := by
  cases row with
  | write hp => exact ⟨hp.phase_ne_idle, phaseAfterTx_ne_idle _⟩
  | register hp => exact ⟨hp.phase_ne_idle, hp.phase_ne_idle⟩
  | readdress hp => simp [hp]

theorem SendRow.cursorHeld {j : BitVec 16} {p : Phase} (row : SendRow s i j p) (hinv : s.Inv) :
    cursorHeld s.cur (j + 1) p := by
  cases row with
  | write _ hdir hlt => exact cursorHeld_phaseAfterTx hdir hlt
  | register hp hdir =>
    have hlen := hinv.four_le_len hp.phase_ne_idle hdir
    rw [(hinv.transmitting_read hp hdir).1]
    exact ⟨by decide, by rw [hdir]; decide, by bv_omega⟩
  | readdress hp =>
    have hcursor := hinv.cursor
    rw [hp] at hcursor
    have hlen := hinv.four_le_len (by simp [hp]) hcursor.1
    exact ⟨by decide, by rw [hcursor.1]; decide, by bv_omega⟩

/-- R131 to R133: a retire keeps R38, whether the block goes idle or the next transaction, of legal length, begins. -/
theorem EndRow.keeps_Inv {u : State} {bus : Action} {code : ResultCode} {idx : BitVec 16} (row : EndRow s i u bus code idx)
    (hinv : s.Inv) : (afterRetire u bus code idx).Inv := by
  have hb : (afterRetire u bus code idx).beginSeq = s.beginSeq + 1 := by rw [afterRetire_beginSeq, row.beginSeq]
  have he : (afterRetire u bus code idx).endSeq = s.endSeq := by rw [afterRetire_endSeq, row.endSeq]
  have hslot (k : BitVec 4) : (afterRetire u bus code idx).slot k = s.slot k := (EventCase.ended row).slot k
  have hretries : (afterRetire u bus code idx).retriesBounded := by
    obtain ⟨o, m, c, rfl, -⟩ := row.state
    unfold afterRetire
    split
    · exact hinv.retriesBounded
    · exact Nat.zero_le _
  have hnext := afterRetire_next (t := afterRetire u bus code idx) rfl
  rw [row.idle] at hnext
  generalize afterRetire u bus code idx = t at hb he hslot hretries hnext ⊢
  have hbusy := hinv.idle_of_phase row.phase_ne_idle
  have hpos := hinv.count_ne_zero hbusy
  obtain ⟨hbound, -, -, hlegal, -⟩ := s.Inv_iff.mp hinv
  have hlegal' : t.queueLegal := by
    intro k hk
    rw [hslot]
    exact hlegal k ((State.occupied_retired hb he hbound hpos).mp hk).1
  have hbound' : t.countBounded := by
    have hle : s.count.toNat ≤ 16 := hbound
    rw [State.countBounded, State.count_retired hb he]
    bv_omega
  obtain ⟨hlast, hidle, hphase⟩ | ⟨hmore, hidle, hphase, hcur, -⟩ := hnext
  · have hzero : t.count = 0 := by rw [State.count, hlast, BitVec.sub_self]; rfl
    exact t.Inv_iff.mpr ⟨hbound', State.idleAgrees_of_idle hidle hzero hphase, by rw [hphase]; trivial, hlegal',
      hretries⟩
  · have hpos' : t.count ≠ 0 := by
      rw [State.count]
      bv_omega
    refine t.Inv_iff.mpr ⟨hbound', State.idleAgrees_of_busy (hidle.trans hbusy) hpos' (by simp [hphase]), ?_, hlegal',
      hretries⟩
    rw [hphase, hcur]
    exact cursorHeld_first (State.minLen_le_of_legal hlegal' hpos')

theorem EventCase.keeps_Inv (h : EventCase s i t) (hinv : s.Inv) : t.Inv := by
  cases h with
  | ignored => exact hinv
  | sent row =>
    obtain ⟨hp, hp'⟩ := row.phase_ne_idle
    exact hinv.of_moved rfl rfl rfl rfl hp hp' (row.cursorHeld hinv) hinv.retriesBounded
  | restarted hp hdir hc =>
    exact hinv.of_moved rfl rfl rfl rfl hp.phase_ne_idle (by simp) ⟨hdir, hc⟩ hinv.retriesBounded
  | receiving hp hdir h1 h2 =>
    obtain ⟨-, hlow, hhigh⟩ := hinv.transmitting_read hp hdir
    have hlen := hinv.four_le_len hp.phase_ne_idle hdir
    have hcursor : cursorHeld s.cur s.curByte .readData := ⟨hdir, by bv_omega, by bv_omega⟩
    exact hinv.of_moved rfl rfl rfl rfl hp.phase_ne_idle (by simp) hcursor hinv.retriesBounded
  | stored d hp hmore =>
    have hcursor := hinv.cursor
    rw [hp] at hcursor
    obtain ⟨hdir, hlow, hlt⟩ := hcursor
    have hcursor' : cursorHeld s.cur (s.curByte + 1) .readData := ⟨hdir, by bv_omega, hmore⟩
    exact hinv.of_moved rfl rfl rfl rfl (by simp [hp]) (by simp [hp]) (by simpa [hp] using hcursor') hinv.retriesBounded
  | retried hp hr =>
    have hretries : s.retries + 1 ≤ s.params.arbRetryMax := by bv_omega
    exact hinv.of_moved (by simp) (by simp) (by simp) (by simp) hp (by simp)
      (by simpa using cursorHeld_first (hinv.minLen_le hp)) (by simpa [State.retriesBounded] using hretries)
  | ended row => exact row.keeps_Inv hinv

/-! ## An enqueue keeps R38 -/

/-- A legal staged length fits its slot (R102, R104). -/
theorem minLen_le_staged {dir : Dir} {len : Word} (h : legalLen dir len = true) :
    minLen dir ≤ (len.setWidth 16).setWidth 32 := by
  obtain ⟨hhigh, hlow⟩ := (legalLen_iff dir len).mp h
  rw [BitVec.le_def, BitVec.toNat_setWidth, BitVec.toNat_setWidth]
  omega

theorem State.Inv.accepted_queue (hinv : s.Inv) {dir : Dir} (hlen : legalLen dir s.descLen = true) (hroom : s.count ≠ 16) :
    (s.accepted dir).countBounded ∧ (s.accepted dir).count ≠ 0 ∧ (s.accepted dir).queueLegal := by
  obtain ⟨hbound, -, -, hlegal, -⟩ := s.Inv_iff.mp hinv
  have hlt := State.toNat_count_lt hbound hroom
  have hcount := State.count_enqueued (s.accepted_beginSeq dir) (s.accepted_endSeq dir)
  refine ⟨?bounded, ?pending, ?legal⟩
  case bounded =>
    rw [State.countBounded, hcount]
    bv_omega
  case pending =>
    rw [hcount]
    bv_omega
  case legal =>
    intro k hk
    obtain hk | rfl := (State.occupied_enqueued (s.accepted_beginSeq dir) (s.accepted_endSeq dir) hlt).mp hk
    · rw [State.accepted_slot_other s dir k (State.ne_endPos_of_occupied hbound hroom hk)]
      exact hlegal k hk
    · rw [State.accepted_slot_same]
      exact minLen_le_staged hlen

/-- While a transaction is in flight an accepted enqueue leaves its slot alone (R115). -/
theorem State.Inv.accepted_cur (hinv : s.Inv) (dir : Dir) (hroom : s.count ≠ 16) (hbusy : s.idle = false) :
    (s.accepted dir).cur = s.cur := by
  have hocc := State.occupied_beginPos (hinv.count_ne_zero hbusy)
  exact State.accepted_slot_other s dir s.beginPos (State.ne_endPos_of_occupied hinv.1 hroom hocc)

theorem EffectCase.keeps_Inv (h : EffectCase s i t) (hinv : s.Inv) : t.Inv := by
  cases h with
  | wroteDescPtr | wroteDescLen | readRegister | rejected | performed => exact hinv
  | event hevent => exact hevent.keeps_Inv hinv
  | queued dir _ hlen hroom hbusy =>
    obtain ⟨hbound, hpos, hlegal⟩ := hinv.accepted_queue hlen hroom
    have hcur := hinv.accepted_cur dir hroom hbusy
    obtain ⟨-, ⟨-, hphase⟩, hcursor, -, hretries⟩ := s.Inv_iff.mp hinv
    have hp : s.phase ≠ .idle := fun h => Bool.eq_false_iff.mp hbusy (hphase.mpr h)
    refine (s.accepted dir).Inv_iff.mpr ⟨hbound, ?_, ?_, hlegal, hretries⟩
    · exact State.idleAgrees_of_busy hbusy hpos hp
    · rw [hcur]
      exact hcursor
  | started dir _ hlen hroom hidle =>
    obtain ⟨hbound, hpos, hlegal⟩ := hinv.accepted_queue hlen hroom
    refine (State.Inv_iff _).mpr ⟨hbound, State.idleAgrees_of_busy rfl hpos (by simp), ?_, hlegal, Nat.zero_le _⟩
    exact cursorHeld_first (State.minLen_le_of_legal hlegal hpos)

theorem Inv_kept : KeptBySteps State.Inv where
  inputs _ _ h := h
  fault _ _ h := h
  store _ _ _ h := h
  load _ _ h := h
  perform _ _ _ _ h := h
  effect _ _ _ _ hcase h := hcase.keeps_Inv h

end

/-- Settles O17: the queue's items from the counters, and the cursor's from the row of R130 that moved it. -/
theorem stepKeepsInv : Obligations.StepKeepsInv := fun _ _ hs h => Inv_kept.step hs h

end Sys2Proof.Machine

/-! Proofs of the invariants beside R38: the records of pending transactions (R36) and what the PHY owes (R187). -/

namespace Sys2Proof.Machine

open Sys2Proof.Certificates

section

variable {s t : State} {i : Instr}

/-! ## The records (R36, R202) -/

/-- The records' part of the invariant, which R38 is a premise of. -/
abbrev State.recordsHeld (s : State) : Prop := s.pendingUnrecorded ∧ s.failIndexClean

theorem State.recordsHeld.of_eq (h : s.recordsHeld) (hb : t.beginSeq = s.beginSeq) (he : t.endSeq = s.endSeq)
    (hr : t.results = s.results) : t.recordsHeld := by
  have hresult (k : BitVec 4) : t.result k = s.result k := by simp [State.result, hr]
  obtain ⟨hpending, hclean⟩ := h
  constructor
  · intro k hk
    rw [hresult]
    exact hpending k (State.occupied_congr hb he k ▸ hk)
  · intro k hcode
    rw [hresult] at hcode ⊢
    exact hclean k hcode

/-- R133: the record of the transaction that ended is that of its row, and every other one is as it was. -/
theorem EndRow.keeps_records {u : State} {bus : Action} {code : ResultCode} {idx : BitVec 16}
    (row : EndRow s i u bus code idx) (hinv : s.Inv) (h : s.recordsHeld) : (afterRetire u bus code idx).recordsHeld := by
  obtain ⟨hpending, hclean⟩ := h
  have hb : (afterRetire u bus code idx).beginSeq = s.beginSeq + 1 := by rw [afterRetire_beginSeq, row.beginSeq]
  have he : (afterRetire u bus code idx).endSeq = s.endSeq := by rw [afterRetire_endSeq, row.endSeq]
  have hsame : (afterRetire u bus code idx).result s.beginPos = { code := code, failIndex := idx } := by
    rw [← row.beginPos, afterRetire_result_same]
  have hother (k : BitVec 4) (hk : k ≠ s.beginPos) : (afterRetire u bus code idx).result k = s.result k := by
    obtain ⟨o, m, c, rfl, -⟩ := row.state
    exact afterRetire_result_other _ _ _ _ hk
  have hpos := hinv.count_ne_zero (hinv.idle_of_phase row.phase_ne_idle)
  constructor
  · intro k hk
    obtain ⟨hocc, hne⟩ := (State.occupied_retired hb he hinv.1 hpos).mp hk
    rw [hother k hne]
    exact hpending k hocc
  · intro k hcode
    by_cases hk : k = s.beginPos
    · subst hk
      rw [hsame] at hcode ⊢
      exact row.index_of_ok (hcode.resolve_left row.code_ne_none)
    · rw [hother k hk] at hcode ⊢
      exact hclean k hcode

theorem EventCase.keeps_records (h : EventCase s i t) (hinv : s.Inv) (hrec : s.recordsHeld) : t.recordsHeld := by
  cases h with
  | ended row => exact row.keeps_records hinv hrec
  | ignored => exact hrec
  | sent | restarted | receiving | stored | retried => exact hrec.of_eq (by simp) (by simp) (by simp)

/-- R104: the slot that an enqueue takes gets the record `{NONE, 0}`. -/
theorem State.accepted_records (hinv : s.Inv) (dir : Dir) (hroom : s.count ≠ 16) (h : s.recordsHeld) :
    (s.accepted dir).recordsHeld := by
  obtain ⟨hpending, hclean⟩ := h
  constructor
  · intro k hk
    by_cases hend : k = s.endPos
    · rw [hend, State.accepted_result_same]
    · have hocc := (State.occupied_enqueued (s.accepted_beginSeq dir) (s.accepted_endSeq dir)
        (State.toNat_count_lt hinv.1 hroom)).mp hk
      rw [State.accepted_result_other s dir k hend]
      exact hpending k (hocc.resolve_right hend)
  · intro k hcode
    by_cases hend : k = s.endPos
    · rw [hend, State.accepted_result_same]
    · rw [State.accepted_result_other s dir k hend] at hcode ⊢
      exact hclean k hcode

theorem EffectCase.keeps_records (h : EffectCase s i t) (hinv : s.Inv) (hrec : s.recordsHeld) : t.recordsHeld := by
  cases h with
  | queued dir _ _ hroom | started dir _ _ hroom => exact State.accepted_records hinv dir hroom hrec
  | event hevent => exact hevent.keeps_records hinv hrec
  | wroteDescPtr | wroteDescLen | readRegister | rejected | performed => exact hrec

theorem records_kept : KeptBySteps fun s => s.Inv ∧ s.recordsHeld where
  inputs _ _ h := h
  fault _ _ h := h
  store _ _ _ h := h
  load _ _ h := h
  perform _ _ _ _ h := h
  effect _ _ _ _ hcase h := ⟨hcase.keeps_Inv h.1, hcase.keeps_records h.1 h.2⟩

/-! ## What the PHY owes (R186, R187) -/

/-- R187's table as a condition on what is owed, with the acknowledge bit of R135 where a byte is received. -/
theorem State.owedExpected_iff (s : State) : s.owedExpected = true ↔
    (s.phase = .idle ∧ s.owed = none) ∨ (s.transmitting ∧ ∃ b, s.owed = some (.tx b)) ∨
    (s.phase = .restart ∧ s.owed = some .rstart) ∨
    (s.phase = .readData ∧ s.owed = some (.rx (ackFor s.cur.len s.curByte))) := by
  unfold State.owedExpected
  cases hp : s.phase <;> cases s.owed with
  | none => simp [State.transmitting, hp]
  | some op => cases op <;> simp [State.transmitting, hp]

/-- The first byte has been handed to the PHY, behind START. -/
theorem State.begun_owedExpected (s : State) : s.begun.owedExpected = true := by
  rw [State.owedExpected_iff]
  exact .inr (.inl ⟨.inl rfl, Memory.read s.mem s.cur.ptr.toNat, by simp [Action.after]⟩)

theorem SendRow.transmitting {j : BitVec 16} {p : Phase} (row : SendRow s i j p) : p = .addr ∨ p = .writeData := by
  cases row with
  | write =>
    unfold phaseAfterTx
    split
    · exact .inl rfl
    · exact .inr rfl
  | register hp => exact hp
  | readdress => exact .inl rfl

/-- Each event emits the action whose answer its next phase expects, whatever was owed before. -/
theorem EventCase.keeps_owedExpected (h : EventCase s i t) (hinv : s.Inv) (howed : s.owedExpected = true) :
    t.owedExpected = true := by
  cases h with
  | ignored => exact howed
  | retried => exact State.begun_owedExpected _
  | ended row =>
    by_cases hlast : lastPending ‹State›
    · rw [afterRetire_last hlast, State.owedExpected_iff]
      exact .inl ⟨rfl, by simp [row.bus_abandons]⟩
    · rw [afterRetire_more hlast]
      exact State.begun_owedExpected _
  | @sent _ j _ row =>
    rw [State.owedExpected_iff]
    exact .inr (.inl ⟨row.transmitting, Memory.read s.mem (s.baddr j).toNat, by simp [Action.after]⟩)
  | restarted =>
    rw [State.owedExpected_iff]
    exact .inr (.inr (.inl ⟨rfl, by simp [Action.after]⟩))
  | receiving hp hdir h1 h2 =>
    obtain ⟨-, hlow, hhigh⟩ := hinv.transmitting_read hp hdir
    have hcur : s.curByte = 3 := by bv_omega
    rw [State.owedExpected_iff]
    exact .inr (.inr (.inr ⟨rfl, by simp [Action.after, hcur]⟩))
  | stored d hp =>
    rw [State.owedExpected_iff]
    exact .inr (.inr (.inr ⟨hp, by simp [Action.after]⟩))

theorem EffectCase.keeps_owedExpected (h : EffectCase s i t) (hi : isAction i = false) (hinv : s.Inv)
    (howed : s.owedExpected = true) : t.owedExpected = true := by
  cases h with
  | started => exact State.begun_owedExpected _
  | queued dir _ _ hroom hbusy =>
    rw [State.owedExpected, hinv.accepted_cur dir hroom hbusy]
    exact howed
  | event hevent => exact hevent.keeps_owedExpected hinv howed
  | performed a he =>
    rw [he] at hi
    cases a <;> cases hi
  | wroteDescPtr | wroteDescLen | readRegister | rejected => exact howed

theorem owedExpected_kept : KeptBySteps fun s => s.Inv ∧ s.owedExpected = true where
  inputs _ _ h := h
  fault _ _ h := h
  store _ _ _ h := h
  load _ _ h := h
  perform s a more ha h := by
    refine ⟨h.1, ?_⟩
    rw [State.owedExpected, State.perform_owed ha]
    exact h.2
  effect _ _ _ hi hcase h := ⟨hcase.keeps_Inv h.1, hcase.keeps_owedExpected hi h.1 h.2⟩

end

/-- Settles O20: a record is written by an accepted enqueue, as `{NONE, 0}`, and by a retire, for a transaction that is then no
longer pending. -/
theorem stepKeepsResultRecords : Obligations.StepKeepsResultRecords :=
  fun _ _ hinv hpending hclean h => (records_kept.step ⟨hinv, hpending, hclean⟩ h).2

/-- Settles O19: the PHY's performing moves an operation from emitted to outstanding, and every event emits what its next phase
expects. -/
theorem stepKeepsOwedExpected : Obligations.StepKeepsOwedExpected :=
  fun _ _ hinv howed h => (owedExpected_kept.step ⟨hinv, howed⟩ h).2

end Sys2Proof.Machine

/-! Proofs about what an event's handler depends on: an owed answer faults by its memory access alone (R187), and no handler sees
the staging registers, or what was emitted or performed before (R180, R206, R245). -/

namespace Sys2Proof.Machine

open Sys2Proof.Certificates

/-! ## The faults of the handlers, once PHASE expects the event -/

/-- The only fault that the handler's answer may be is a memory access outside MEM_MAP (R53). -/
def memFaultOnly (s : State) (r : Except ModelFault State) : Prop :=
  ∀ f, r = .error f → ∃ addr, mapped s.params.memMap addr = false ∧ f = .memFault addr

section

variable {s : State}

theorem memFaultOnly_ok (t : State) : memFaultOnly s (.ok t) := fun _ h => nomatch h

theorem memFaultOnly_error {addr : Word} (h : mapped s.params.memMap addr = false) :
    memFaultOnly s (.error (.memFault addr)) := fun _ hf => ⟨addr, h, (Except.error.inj hf).symm⟩

theorem startOp_memFaultOnly (s : State) : memFaultOnly s (startOp s) := by
  cases hm : mapped s.params.memMap s.cur.ptr with
  | true => rw [startOp_mapped hm]; exact memFaultOnly_ok _
  | false => rw [startOp_unmapped hm]; exact memFaultOnly_error hm

theorem retire_memFaultOnly (code : ResultCode) (idx : BitVec 16) (s : State) : memFaultOnly s (retire code idx s) := by
  by_cases h : s.endSeq = s.beginSeq + 1
  · rw [retire_last code idx h]
    exact memFaultOnly_ok _
  · rw [retire_more code idx h]
    exact startOp_memFaultOnly (((s.retired code idx).setCurByte 0).setRetries 0)

theorem sendByte_memFaultOnly (i : BitVec 16) (p : Phase) (s : State) : memFaultOnly s (sendByte i p s) := by
  cases hm : mapped s.params.memMap (s.baddr i) with
  | true => rw [sendByte_mapped hm]; exact memFaultOnly_ok _
  | false => rw [sendByte_unmapped hm]; exact memFaultOnly_error hm

theorem txComplete_memFaultOnly (a : Ack) (s : State) : memFaultOnly s (txComplete a s) := by
  cases a with
  | nack => exact retire_memFaultOnly .noack (s.curByte - 1) (s.emit .stop)
  | ack =>
    rw [txComplete, txAck]
    cases s.cur.dir with
    | write =>
      show memFaultOnly s (txAckWrite s)
      unfold txAckWrite
      split
      · exact sendByte_memFaultOnly _ _ s
      · exact retire_memFaultOnly .ok 0 (s.emit .stop)
    | read =>
      show memFaultOnly s (if s.curByte = 1 then txAckReadAddr s else if s.curByte = 2 then txAckReadReg s else
        txAckReadReaddr s)
      split
      · exact sendByte_memFaultOnly 1 s.phase s
      · split
        · exact memFaultOnly_ok _
        · exact memFaultOnly_ok _

theorem rxComplete_memFaultOnly (d : Byte) (s : State) : memFaultOnly s (rxComplete d s) := by
  rw [rxComplete, rxMore, rxLast]
  cases hm : mapped s.params.memMap (s.baddr s.curByte) with
  | false =>
    rw [storeByte_unmapped hm]
    split <;> exact memFaultOnly_error hm
  | true =>
    rw [storeByte_mapped hm]
    split
    · exact memFaultOnly_ok _
    · exact retire_memFaultOnly .ok 0
        (((s.setMem (Memory.write s.mem (s.baddr s.curByte).toNat d)).setCurByte (s.curByte + 1)).emit .stop)

theorem onTxc_memFaultOnly (a : Ack) (h : s.transmitting) : memFaultOnly s (onTxc a s) := by
  have hrow : onTxc a s = txComplete a s.answered := by
    rw [onTxc]
    rcases h with h | h <;> rw [h]
  rw [hrow]
  exact txComplete_memFaultOnly a s.answered

theorem onReq_memFaultOnly (h : s.phase = .restart) : memFaultOnly s (onReq s) := by
  rw [onReq, h]
  exact sendByte_memFaultOnly 2 .addr s.answered

theorem onRxc_memFaultOnly (d : Byte) (h : s.phase = .readData) : memFaultOnly s (onRxc d s) := by
  rw [onRxc, h]
  exact rxComplete_memFaultOnly d s.answered

theorem onArbl_memFaultOnly (h : s.phase ≠ .idle) : memFaultOnly s (onArbl s) := by
  rw [onArbl, if_neg h]
  split
  · exact startOp_memFaultOnly ((s.answered.emit .release).setRetries (s.retries + 1))
  · exact retire_memFaultOnly .arbLost s.inProgress (s.answered.emit .release)

/-! ## An owed answer -/

theorem PhyOp.tx_answeredWith {b : Byte} {i : Instr} (h : (PhyOp.tx b).answeredWith i = true) :
    (∃ a, i = .evTxc a) ∨ i = .evArbl := by
  cases i with
  | evTxc a => exact .inl ⟨a, rfl⟩
  | evArbl => exact .inr rfl
  | _ => cases h

theorem PhyOp.rstart_answeredWith {i : Instr} (h : PhyOp.rstart.answeredWith i = true) : i = .evReq ∨ i = .evArbl := by
  cases i with
  | evReq => exact .inl rfl
  | evArbl => exact .inr rfl
  | _ => cases h

theorem PhyOp.rx_answeredWith {a : Ack} {i : Instr} (h : (PhyOp.rx a).answeredWith i = true) :
    (∃ d, i = .evRxc d) ∨ i = .evArbl := by
  cases i with
  | evRxc d => exact .inl ⟨d, rfl⟩
  | evArbl => exact .inr rfl
  | _ => cases h

theorem State.owes_iff (s : State) (i : Instr) : s.owes i = true ↔ ∃ op, s.owed = some op ∧ op.answeredWith i = true := by
  unfold State.owes
  cases s.owed <;> simp

/-- Where what is owed is what PHASE expects, PHASE expects the answer (R187). -/
theorem effect_memFaultOnly_of_owes {i : Instr} (hexpected : s.owedExpected = true) (howes : s.owes i = true) :
    memFaultOnly s (effect i s) := by
  obtain ⟨op, hop, hans⟩ := (s.owes_iff i).mp howes
  obtain ⟨-, ho⟩ | ⟨hp, b, ho⟩ | ⟨hp, ho⟩ | ⟨hp, ho⟩ := s.owedExpected_iff.mp hexpected
  · rw [ho] at hop
    cases hop
  · obtain rfl := Option.some.inj (ho.symm.trans hop)
    obtain ⟨a, rfl⟩ | rfl := PhyOp.tx_answeredWith hans
    · exact onTxc_memFaultOnly a hp
    · exact onArbl_memFaultOnly hp.phase_ne_idle
  · obtain rfl := Option.some.inj (ho.symm.trans hop)
    obtain rfl | rfl := PhyOp.rstart_answeredWith hans
    · exact onReq_memFaultOnly hp
    · exact onArbl_memFaultOnly (by simp [hp])
  · obtain rfl := Option.some.inj (ho.symm.trans hop)
    obtain ⟨d, rfl⟩ | rfl := PhyOp.rx_answeredWith hans
    · exact onRxc_memFaultOnly d hp
    · exact onArbl_memFaultOnly (by simp [hp])

end

/-- Settles O49: the phase that expects what is owed has a row for the answer, and the answer is raised where the PHY has caught
up, so that what it owes is what is outstanding. -/
theorem owedAnswerNeverSpurious : Obligations.OwedAnswerNeverSpurious := by
  refine ⟨?handled, ?raised⟩
  case handled =>
    intro i s _ hexpected howes
    have hfault := effect_memFaultOnly_of_owes hexpected howes
    rw [exec_settle]
    cases heffect : effect i s with
    | ok t => exact ⟨t, rfl, .inl (effect_keeps_faults heffect)⟩
    | error f =>
      obtain ⟨addr, hm, rfl⟩ := hfault f heffect
      exact ⟨_, rfl, .inr ⟨addr, hm, rfl⟩⟩
  case raised =>
    intro i s howes
    obtain ⟨op, hop, hans⟩ := (s.owes_iff i).mp howes
    rw [State.raising_of_owes howes]
    exact ⟨s.catchUp_actions, op, by rw [State.catchUp_phy, hop], hans⟩

/-! ## What no handler sees -/

/-- `W` rewrites what no event's handler reads, so it commutes with all that a handler does. -/
structure Unseen (W : State → State) : Prop where
  cur : ∀ s, (W s).cur = s.cur
  mem : ∀ s, (W s).mem = s.mem
  params : ∀ s, (W s).params = s.params
  phase : ∀ s, (W s).phase = s.phase
  curByte : ∀ s, (W s).curByte = s.curByte
  retries : ∀ s, (W s).retries = s.retries
  beginSeq : ∀ s, (W s).beginSeq = s.beginSeq
  endSeq : ∀ s, (W s).endSeq = s.endSeq
  emit : ∀ s a, (W s).emit a = W (s.emit a)
  setCurByte : ∀ s c, (W s).setCurByte c = W (s.setCurByte c)
  setPhase : ∀ s p, (W s).setPhase p = W (s.setPhase p)
  setRetries : ∀ s n, (W s).setRetries n = W (s.setRetries n)
  setResult : ∀ s k r, (W s).setResult k r = W (s.setResult k r)
  setBeginSeq : ∀ s b, (W s).setBeginSeq b = W (s.setBeginSeq b)
  setIdle : ∀ s b, (W s).setIdle b = W (s.setIdle b)
  setMem : ∀ s m, (W s).setMem m = W (s.setMem m)
  answered : ∀ s, (W s).answered = W s.answered
  recordFault : ∀ s f, (W s).recordFault f = W (s.recordFault f)

namespace Unseen

variable {W : State → State} (hW : Unseen W) (s : State)

include hW

theorem beginPos : (W s).beginPos = s.beginPos := congrArg slotOf (hW.beginSeq s)

theorem baddr (i : BitVec 16) : (W s).baddr i = s.baddr i := by rw [State.baddr, State.baddr, hW.cur]

theorem inProgress : (W s).inProgress = s.inProgress := by
  rw [State.inProgress, State.inProgress, hW.phase, hW.curByte]

theorem memRead (addr : Word) : memRead (W s) addr = memRead s addr := by
  rw [Machine.memRead, Machine.memRead, hW.params, hW.mem]

theorem startOp : startOp (W s) = (startOp s).map W := by
  rw [Machine.startOp, Machine.startOp, hW.baddr, hW.memRead]
  cases Machine.memRead s (s.baddr 0) with
  | error f => rfl
  | ok b => simp only [Except.map, hW.emit, hW.setCurByte, hW.setPhase]

theorem retired (code : ResultCode) (idx : BitVec 16) : (W s).retired code idx = W (s.retired code idx) := by
  simp only [State.retired, hW.setPhase, hW.beginPos, hW.setResult, hW.beginSeq, hW.setBeginSeq]

theorem retire (code : ResultCode) (idx : BitVec 16) : retire code idx (W s) = (retire code idx s).map W := by
  by_cases h : s.endSeq = s.beginSeq + 1
  · rw [retire_last code idx h, retire_last code idx (by rw [hW.endSeq, hW.beginSeq, h]), hW.retired, hW.setIdle, hW.setPhase]
    rfl
  · rw [retire_more code idx h, retire_more code idx (by rw [hW.endSeq, hW.beginSeq]; exact h), hW.retired, nextOp, nextOp,
      hW.setCurByte, hW.setRetries, hW.startOp]

theorem sendByte (i : BitVec 16) (p : Phase) : sendByte i p (W s) = (sendByte i p s).map W := by
  rw [Machine.sendByte, Machine.sendByte, hW.baddr, hW.memRead]
  cases Machine.memRead s (s.baddr i) with
  | error f => rfl
  | ok b => simp only [Except.map, hW.emit, hW.setCurByte, hW.setPhase]

theorem storeByte (d : Byte) : storeByte d (W s) = (storeByte d s).map W := by
  cases hm : mapped s.params.memMap (s.baddr s.curByte) with
  | false =>
    have hm' : mapped (W s).params.memMap ((W s).baddr (W s).curByte) = false := by
      rw [hW.params, hW.baddr, hW.curByte, hm]
    rw [storeByte_unmapped hm, storeByte_unmapped hm', hW.baddr, hW.curByte]
    rfl
  | true =>
    have hm' : mapped (W s).params.memMap ((W s).baddr (W s).curByte) = true := by
      rw [hW.params, hW.baddr, hW.curByte, hm]
    rw [storeByte_mapped hm, storeByte_mapped hm', hW.baddr, hW.curByte, hW.mem, hW.setMem, hW.setCurByte]
    rfl

theorem txComplete (a : Ack) : txComplete a (W s) = (txComplete a s).map W := by
  cases a with
  | nack =>
    rw [Machine.txComplete, Machine.txComplete, txNack, txNack, hW.curByte, hW.emit, hW.retire]
  | ack =>
    rw [Machine.txComplete, Machine.txComplete, txAck, txAck, hW.cur, hW.curByte]
    cases s.cur.dir with
    | write =>
      show txAckWrite (W s) = (txAckWrite s).map W
      rw [txAckWrite, txAckWrite, hW.cur, hW.curByte, hW.emit, hW.retire, hW.sendByte]
      exact (apply_ite (Except.map W) _ _ _).symm
    | read =>
      show (if s.curByte = 1 then txAckReadAddr (W s) else if s.curByte = 2 then txAckReadReg (W s)
        else txAckReadReaddr (W s)) = (if s.curByte = 1 then txAckReadAddr s else if s.curByte = 2 then txAckReadReg s
        else txAckReadReaddr s).map W
      have haddr : txAckReadAddr (W s) = (txAckReadAddr s).map W := by
        rw [txAckReadAddr, txAckReadAddr, hW.phase, hW.sendByte]
      have hreg : txAckReadReg (W s) = (txAckReadReg s).map W := by
        rw [txAckReadReg, txAckReadReg, hW.emit, hW.setPhase]
        rfl
      have hreaddr : txAckReadReaddr (W s) = (txAckReadReaddr s).map W := by
        rw [txAckReadReaddr, txAckReadReaddr, hW.cur, hW.setPhase, hW.emit]
        rfl
      rw [haddr, hreg, hreaddr, apply_ite (Except.map W), apply_ite (Except.map W)]

theorem rxComplete (d : Byte) : rxComplete d (W s) = (rxComplete d s).map W := by
  have hmore : rxMore d (W s) = (rxMore d s).map W := by
    rw [rxMore, rxMore, hW.storeByte, hW.cur, hW.curByte]
    cases Machine.storeByte d s with
    | error f => rfl
    | ok t => exact congrArg Except.ok (hW.emit t _)
  have hlast : rxLast d (W s) = (rxLast d s).map W := by
    rw [rxLast, rxLast, hW.storeByte]
    cases Machine.storeByte d s with
    | error f => rfl
    | ok t => exact (congrArg (Machine.retire .ok 0) (hW.emit t .stop)).trans (hW.retire _ .ok 0)
  rw [Machine.rxComplete, Machine.rxComplete, hW.curByte, hW.cur, hmore, hlast]
  exact (apply_ite (Except.map W) _ _ _).symm

theorem onTxc (a : Ack) : onTxc a (W s) = (onTxc a s).map W := by
  rw [Machine.onTxc, Machine.onTxc, spurious, spurious, hW.phase, hW.answered, hW.txComplete]
  cases s.phase <;> rfl

theorem onReq : onReq (W s) = (onReq s).map W := by
  rw [Machine.onReq, Machine.onReq, spurious, spurious, hW.phase, hW.answered, request, request, hW.sendByte]
  cases s.phase <;> rfl

theorem onRxc (d : Byte) : onRxc d (W s) = (onRxc d s).map W := by
  rw [Machine.onRxc, Machine.onRxc, spurious, spurious, hW.phase, hW.answered, hW.rxComplete]
  cases s.phase <;> rfl

theorem onArbl : onArbl (W s) = (onArbl s).map W := by
  rw [Machine.onArbl, Machine.onArbl, spurious, spurious, hW.phase, hW.retries, hW.params, hW.answered, arbRetry, arbRetry,
    arbFail, arbFail, hW.retries, hW.inProgress, hW.emit, hW.setRetries, hW.startOp, hW.retire,
    apply_ite (Except.map W), apply_ite (Except.map W)]
  rfl

theorem onTmo : onTmo (W s) = (onTmo s).map W := by
  rw [Machine.onTmo, Machine.onTmo, timeout, timeout, hW.phase, hW.inProgress, hW.emit, hW.retire, apply_ite (Except.map W)]
  rfl

theorem effect {i : Instr} (hi : isEvent i = true) : effect i (W s) = (effect i s).map W := by
  cases i with
  | evTxc a => exact hW.onTxc s a
  | evRxc d => exact hW.onRxc s d
  | evReq => exact hW.onReq s
  | evArbl => exact hW.onArbl s
  | evTmo => exact hW.onTmo s
  | _ => cases hi

/-- An event's step on the rewritten state is its step, rewritten. -/
theorem exec {i : Instr} (hi : isEvent i = true) {s t : State} (h : exec i s = .next t) : exec i (W s) = .next (W t) := by
  rw [exec_settle, hW.effect s hi]
  rw [exec_settle] at h
  cases heffect : Machine.effect i s with
  | ok u =>
    rw [heffect] at h
    exact congrArg (Host.Outcome.next ∘ W) (Host.Outcome.next.inj h)
  | error f =>
    rw [heffect] at h
    exact congrArg Host.Outcome.next ((hW.recordFault s f).trans (congrArg W (Host.Outcome.next.inj h)))

end Unseen

/-! ## The staging registers -/

/-- The state with other values in the registers that the host and its commands write (R22), and another last value read. -/
def stagingReplaced (p l k r : Word) (e : EnqStatus) (s : State) : State :=
  { s with descPtr := p, descLen := l, lastTicket := k, readData := r, enqStatus := e }

theorem unseen_stagingReplaced (p l k r : Word) (e : EnqStatus) : Unseen (stagingReplaced p l k r e) := by
  constructor <;> intros <;> rfl

/-- Settles O51: no handler reads the registers that `stagingReplaced` rewrites. -/
theorem eventsIgnoreStaging : Obligations.EventsIgnoreStaging :=
  fun _ _ _ p l k r e hi h => (unseen_stagingReplaced p l k r e).exec hi h

/-! ## The actions emitted and performed before -/

/-- The state with other actions emitted before its own, another traffic, and another record of who drives the bus. -/
def earlierActionsReplaced (emitted performed : List Action) (driving : Bool) (s : State) : State :=
  { s with
    actions := emitted ++ s.actions
    traffic := performed
    phy := { s.phy with driving := driving } }

theorem unseen_earlierActionsReplaced (emitted performed : List Action) (driving : Bool) :
    Unseen (earlierActionsReplaced emitted performed driving) where
  emit s a := by
    ext1
    case actions => exact List.append_assoc emitted s.actions [a]
    all_goals rfl
  cur _ := rfl
  mem _ := rfl
  params _ := rfl
  phase _ := rfl
  curByte _ := rfl
  retries _ := rfl
  beginSeq _ := rfl
  endSeq _ := rfl
  setCurByte _ _ := rfl
  setPhase _ _ := rfl
  setRetries _ _ := rfl
  setResult _ _ _ := rfl
  setBeginSeq _ _ := rfl
  setIdle _ _ := rfl
  setMem _ _ := rfl
  answered _ := rfl
  recordFault _ _ := rfl

/-- An answer's handler starts by taking what was outstanding as answered (R186). -/
theorem effect_answered {i : Instr} (hi : isEvent i = true) (htmo : i ≠ .evTmo) (s : State) :
    effect i s.answered = effect i s := by
  cases i with
  | evTxc a => rw [effect, effect, onTxc, onTxc, State.answered_phase]; cases s.phase <;> rfl
  | evRxc d => rw [effect, effect, onRxc, onRxc, State.answered_phase]; cases s.phase <;> rfl
  | evReq => rw [effect, effect, onReq, onReq, State.answered_phase]; cases s.phase <;> rfl
  | evArbl => rfl
  | evTmo => exact absurd rfl htmo
  | _ => cases hi

theorem State.answered_eq_earlierActionsReplaced (s : State) :
    s.answered = earlierActionsReplaced s.actions s.traffic s.phy.driving s.catchUp.answered := by
  ext1 <;> simp [earlierActionsReplaced]

theorem State.owes_isAnswer {i : Instr} {s : State} (h : s.owes i = true) : isEvent i = true ∧ i ≠ .evTmo := by
  obtain ⟨op, -, hans⟩ := (s.owes_iff i).mp h
  cases op with
  | tx b => obtain ⟨a, rfl⟩ | rfl := PhyOp.tx_answeredWith hans <;> simp [isEvent]
  | rstart => obtain rfl | rfl := PhyOp.rstart_answeredWith hans <;> simp [isEvent]
  | rx a => obtain ⟨d, rfl⟩ | rfl := PhyOp.rx_answeredWith hans <;> simp [isEvent]

theorem effect_of_catchUp {i : Instr} {s : State} (howes : s.owes i = true) :
    effect i s = (effect i s.catchUp).map (earlierActionsReplaced s.actions s.traffic s.phy.driving) := by
  obtain ⟨hi, htmo⟩ := State.owes_isAnswer howes
  have hW := unseen_earlierActionsReplaced s.actions s.traffic s.phy.driving
  rw [← effect_answered hi htmo s, ← effect_answered hi htmo s.catchUp, State.answered_eq_earlierActionsReplaced,
    hW.effect _ hi]

/-- An owed answer emits the same behind what is still to perform as it does once that is performed. -/
theorem exec_owed_actions {i : Instr} {s t : State} (howes : s.owes i = true) (h : exec i s.catchUp = .next t) :
    ∃ u, exec i s = .next u ∧ u.actions = s.actions ++ t.actions := by
  have heffect := effect_of_catchUp howes
  rw [exec_settle] at h ⊢
  rw [heffect]
  cases hcaught : effect i s.catchUp with
  | ok u =>
    rw [hcaught] at h
    obtain rfl := Host.Outcome.next.inj h
    exact ⟨_, rfl, rfl⟩
  | error f =>
    rw [hcaught] at h
    obtain rfl := Host.Outcome.next.inj h
    exact ⟨_, rfl, by simp⟩

/-- R189, R186: no event's handler performs an action. -/
theorem exec_keeps_traffic {i : Instr} {s t : State} (hi : isEvent i = true) (h : exec i s = .next t) :
    t.traffic = s.traffic := by
  obtain ⟨-, -, -, -, -, -, -, -, -, htraffic, -⟩ := eventFrame i s t hi h
  exact htraffic

theorem run_succ {s t : State} (h : step s = .next t) (k : Nat) : Host.Core.run core (k + 1) s = Host.Core.run core k t := by
  have hstep : core.step s = .next t := h
  simp only [Host.Core.run, hstep]

/-- R180: one of the PHY's steps per emitted action performs them all, in order, and changes nothing that is owed. -/
theorem run_performs (l : List Action) (rest : List Input) (s : State) (hl : s.actions = l)
    (hin : s.inputs = List.replicate l.length .perform ++ rest) :
    ∃ t, Host.Core.run core l.length s = .next t ∧ t.traffic = s.traffic ++ l ∧ t.actions = [] ∧ t.inputs = rest ∧
      t.phy.outstanding = s.owed := by
  induction l generalizing s with
  | nil => exact ⟨s, rfl, by simp, hl, hin, by simp [State.owed, hl]⟩
  | cons a more ih =>
    have hstep := step_perform (rest := List.replicate more.length .perform ++ rest) hin hl
    obtain ⟨t, hrun, htraffic, hactions, hinputs, howed⟩ :=
      ih (((s.setInputs (List.replicate more.length .perform ++ rest)).setActions more).perform a) rfl rfl
    refine ⟨t, (run_succ hstep more.length).trans hrun, ?_, hactions, hinputs, ?_⟩
    · simpa using htraffic
    · rw [howed]
      exact State.perform_owed (s := s.setInputs _) hl

/-- Settles O55: the first part is `run_performs`; the step of an owed answer catches up first, and its handler neither performs
nor sees what was emitted before. -/
theorem actionsPerformedInOrder : Obligations.ActionsPerformedInOrder := by
  refine ⟨?performed, ?answered⟩
  case performed =>
    intro s rest hin
    exact run_performs s.actions rest s rfl hin
  case answered =>
    intro s w rest i hin hdec howes
    obtain ⟨t, ht⟩ := everyInstructionAnswers i (s.setInputs rest).catchUp
    refine ⟨t, (step_owedEvent hin hdec howes).trans ht, ?_, exec_owed_actions (s := s.setInputs rest) howes ht⟩
    rw [exec_keeps_traffic (State.owes_isAnswer howes).1 ht]
    simp

end Sys2Proof.Machine

/-! Proofs about whole transactions that are acknowledged throughout (R158): a write by induction on the bytes left to send, a
read by induction on the bytes left to receive. -/

namespace Sys2Proof.Machine

open Sys2Proof.Certificates

section

variable {s t : State}

theorem execAll_cons {i : Instr} (h : exec i s = .next t) (rest : List Instr) :
    execAll (i :: rest) s = execAll rest t := by rw [execAll, h]

/-- What is queued behind the transaction in flight starts when it ends (R133). -/
def startOfNext (s : State) (m : Memory) : List Action :=
  if lastPending s then [] else [.start, .tx (Memory.read m (nextSlot s).ptr.toNat)]

/-! ## Writes -/

/-- The bytes of the transaction in flight from index `c` on, `n` of them, as they are sent. -/
def sentFrom (s : State) (c : BitVec 16) (n : Nat) : List Action :=
  (List.range n).map fun j => .tx (Memory.read s.mem (s.baddr (c + BitVec.ofNat 16 j)).toNat)

theorem sentFrom_succ (s : State) (c : BitVec 16) (n : Nat) :
    sentFrom s c (n + 1) = .tx (Memory.read s.mem (s.baddr c).toNat) :: sentFrom s (c + 1) n := by
  have hstep (j : Nat) : c + BitVec.ofNat 16 (j + 1) = c + 1 + BitVec.ofNat 16 j := by
    rw [BitVec.add_assoc, Nat.add_comm, BitVec.ofNat_add]
    rfl
  rw [sentFrom, List.range_succ_eq_map, List.map_cons, List.map_map, BitVec.add_zero]
  simp only [sentFrom, Function.comp_def, Nat.succ_eq_add_one, hstep]

theorem phaseAfterTx_transmitting (j : BitVec 16) : phaseAfterTx j = .addr ∨ phaseAfterTx j = .writeData := by
  unfold phaseAfterTx
  split
  · exact .inl rfl
  · exact .inr rfl

/-- R138: the byte at CUR_BYTE has been sent. -/
def writeByteSent (s : State) : State :=
  ((s.answered.emit (.tx (Memory.read s.mem (s.baddr s.curByte).toNat))).setCurByte (s.curByte + 1)).setPhase
    (phaseAfterTx s.curByte)

theorem exec_writeByteSent (hp : s.transmitting) (hdir : s.cur.dir = .write) (hlt : s.curByte < s.cur.len)
    (hmap : mapped s.params.memMap (s.baddr s.curByte) = true) : exec (.evTxc .ack) s = .next (writeByteSent s) :=
  (exec_txAckWrite_more hp hdir hlt).trans (settle_sendByte_mapped hmap)

/-- From CUR_BYTE on, `n` bytes are left to send: each acknowledge sends one, and the last one ends the transaction (R138). -/
theorem execAll_write (n : Nat) (s : State) (hp : s.transmitting) (hdir : s.cur.dir = .write)
    (hleft : s.curByte.toNat + n = s.cur.len.toNat) (hmap : s.bufferMapped s.cur) (hnext : nextReadable s) :
    ∃ t, execAll (List.replicate (n + 1) (.evTxc .ack)) s = .next t ∧
      t.actions = s.actions ++ sentFrom s s.curByte n ++ .stop :: startOfNext s s.mem ∧
      t.result s.beginPos = { code := .ok, failIndex := 0 } ∧ t.beginSeq = s.beginSeq + 1 ∧ t.mem = s.mem := by
  induction n generalizing s with
  | zero =>
    have hdone : s.cur.len ≤ s.curByte := by bv_omega
    have hexec := (exec_txAckWrite_done hp hdir hdone).trans (settle_retire_readable (t := s.answered) hnext)
    refine ⟨_, execAll_cons hexec [], ?_, afterRetire_result_same s.answered .stop .ok 0, by simp, by simp⟩
    rw [afterRetire_actions, sentFrom, List.range_zero, List.map_nil, List.append_nil]
    rfl
  | succ n ih =>
    have hlt : s.curByte < s.cur.len := by bv_omega
    have hexec := exec_writeByteSent hp hdir hlt (hmap s.curByte hlt)
    have hcount : (s.curByte + 1).toNat + n = s.cur.len.toNat := by bv_omega
    obtain ⟨t, hrun, hactions, hrest⟩ :=
      ih (writeByteSent s) (phaseAfterTx_transmitting s.curByte) hdir hcount hmap hnext
    refine ⟨t, (execAll_cons hexec _).trans hrun, ?_, hrest⟩
    have hemitted : (writeByteSent s).actions = s.actions ++ [.tx (Memory.read s.mem (s.baddr s.curByte).toNat)] := rfl
    rw [hactions, hemitted, sentFrom_succ, List.append_assoc s.actions]
    rfl

end

/-- Settles O56: with CUR_BYTE = 1 all bytes but the first are left to send. -/
theorem writeTransactionTraffic : Obligations.WriteTransactionTraffic := by
  intro s hp hdir hcur hlen hmap hnext
  have hpos : s.cur.len.toNat - 1 + 1 = s.cur.len.toNat := by bv_omega
  obtain ⟨t, hrun, hactions, hrest⟩ :=
    execAll_write (s.cur.len.toNat - 1) s (.inl hp) hdir (by rw [hcur]; simpa [Nat.add_comm] using hpos) hmap hnext
  rw [hpos] at hrun
  refine ⟨t, hrun, ?_, hrest⟩
  have hfirst (j : Nat) : (1 : BitVec 16) + BitVec.ofNat 16 j = BitVec.ofNat 16 (j + 1) := by
    rw [Nat.add_comm, BitVec.ofNat_add]
    rfl
  rw [hactions, hcur, sentFrom, startOfNext]
  simp only [hfirst, List.append_assoc, List.singleton_append]

/-! ## Reads -/

/-- The requests for `n + 1` bytes: ACK for every one but the last (R135). -/
def rxRequests (n : Nat) : List Action := List.replicate n (.rx .ack) ++ [.rx .nack]

/-- What receiving `data` from CUR_BYTE on to the end of a read has left (R147, R148). -/
structure Received (s t : State) (data : List Byte) : Prop where
  bytes : ∀ (j : Nat) (h : j < data.length),
    Memory.read t.mem (s.cur.ptr + BitVec.ofNat 32 (s.curByte.toNat + j)).toNat = data[j]
  others : ∀ a : Word, (a - s.cur.ptr).toNat < s.curByte.toNat ∨ s.cur.len.toNat ≤ (a - s.cur.ptr).toNat →
    Memory.read t.mem a.toNat = Memory.read s.mem a.toNat
  record : t.result s.beginPos = { code := .ok, failIndex := 0 }
  beginSeq : t.beginSeq = s.beginSeq + 1
  idle : lastPending s → t.idle = true

theorem State.baddr_curByte (s : State) : s.baddr s.curByte = s.cur.ptr + BitVec.ofNat 32 s.curByte.toNat := by
  rw [State.baddr, BitVec.ofNat_toNat]

/-- An address whose offset in the buffer is not CUR_BYTE is not the byte received. -/
theorem State.ne_baddr_curByte {s : State} {a : Word} (h : (a - s.cur.ptr).toNat ≠ s.curByte.toNat) :
    a.toNat ≠ (s.baddr s.curByte).toNat := by
  intro heq
  rw [BitVec.eq_of_toNat_eq heq, State.baddr_sub_ptr] at h
  exact h rfl

theorem afterRetire_idle_of_last {s : State} {bus : Action} {code : ResultCode} {idx : BitVec 16} (h : lastPending s) :
    (afterRetire s bus code idx).idle = true := by
  rw [afterRetire_last h]
  simp

/-- The last byte: it is stored, and the transaction ends. -/
theorem execAll_receive_last (s : State) (d : Byte) (pre : List Action) (hwf : s.memCanonical) (hp : s.phase = .readData)
    (hleft : s.curByte.toNat + 1 = s.cur.len.toNat) (hmap : mapped s.params.memMap (s.baddr s.curByte) = true)
    (hnext : nextReadable s) (hpre : s.actions = pre ++ [.rx (ackFor s.cur.len s.curByte)]) :
    ∃ t, execAll [.evRxc d] s = .next t ∧ t.actions = pre ++ rxRequests 0 ++ .stop :: startOfNext s t.mem ∧
      Received s t [d] := by
  have hlast : s.curByte + 1 = s.cur.len := by bv_omega
  have hexec := (exec_rxLast d hp hlast hmap).trans (settle_retire_readable (t := byteStored s d) hnext)
  have hnack : ackFor s.cur.len s.curByte = .nack := if_neg (hlast ▸ BitVec.lt_irrefl _)
  refine ⟨_, execAll_cons hexec [], ?actions, ?bytes, ?others, afterRetire_result_same (byteStored s d) .stop .ok 0, by simp,
    fun h => afterRetire_idle_of_last h⟩
  case actions =>
    have hbefore : (byteStored s d).actions = pre ++ rxRequests 0 := hpre.trans (by rw [hnack]; rfl)
    rw [afterRetire_actions, hbefore, afterRetire_mem]
    rfl
  case bytes =>
    intro j hj
    obtain rfl : j = 0 := by simpa using hj
    rw [Nat.add_zero, ← State.baddr_curByte]
    simpa using Memory.read_write_same d hwf
  case others =>
    intro a ha
    have hne : (a - s.cur.ptr).toNat ≠ s.curByte.toNat := by omega
    simpa using Memory.read_write_other (State.ne_baddr_curByte hne) d s.mem

/-- R147: a byte with more to come has been stored, and the next one asked for. -/
def readByteStored (s : State) (d : Byte) : State :=
  (byteStored s d).emit (.rx (ackFor s.cur.len (s.curByte + 1)))

/-- From CUR_BYTE on `data` is received to the end of the read: each byte is stored, and each but the last asks for another. -/
theorem execAll_receive (d : Byte) (data : List Byte) (s : State) (pre : List Action) (hwf : s.memCanonical)
    (hp : s.phase = .readData) (hleft : s.curByte.toNat + data.length + 1 = s.cur.len.toNat) (hmap : s.bufferMapped s.cur)
    (hnext : nextReadable s) (hpre : s.actions = pre ++ [.rx (ackFor s.cur.len s.curByte)]) :
    ∃ t, execAll ((d :: data).map .evRxc) s = .next t ∧
      t.actions = pre ++ rxRequests data.length ++ .stop :: startOfNext s t.mem ∧ Received s t (d :: data) := by
  have hmapped : mapped s.params.memMap (s.baddr s.curByte) = true := hmap s.curByte (by bv_omega)
  induction data generalizing d s pre with
  | nil => exact execAll_receive_last s d pre hwf hp hleft hmapped hnext hpre
  | cons d' data ih =>
    simp only [List.length_cons] at hleft
    have hmore : s.curByte + 1 < s.cur.len := by bv_omega
    have hsucc : (s.curByte + 1).toNat = s.curByte.toNat + 1 := by bv_omega
    have hack : ackFor s.cur.len s.curByte = .ack := if_pos hmore
    have hexec : exec (.evRxc d) s = .next (readByteStored s d) := exec_rxMore d hp hmore hmapped
    have hmem : (readByteStored s d).mem = Memory.write s.mem (s.baddr s.curByte).toNat d := rfl
    obtain ⟨t, hrun, hactions, hreceived⟩ := ih d' (readByteStored s d) (pre ++ [.rx .ack]) (Memory.write_wf _ d hwf) hp
      (show (s.curByte + 1).toNat + data.length + 1 = s.cur.len.toNat by omega) hmap hnext
      (by rw [← hack, ← hpre]; rfl) (hmap (s.curByte + 1) hmore)
    obtain ⟨hbytes, hothers, hrecord, hbegin, hidle⟩ := hreceived
    refine ⟨t, (execAll_cons hexec _).trans hrun, ?actions, ?bytes, ?others, hrecord, hbegin, hidle⟩
    case actions =>
      rw [hactions, List.append_assoc pre, rxRequests, rxRequests, List.length_cons, List.replicate_succ]
      rfl
    case bytes =>
      intro j hj
      cases j with
      | zero =>
        have hbefore : (s.baddr s.curByte - s.cur.ptr).toNat < (s.curByte + 1).toNat := by
          rw [State.baddr_sub_ptr, hsucc]
          exact Nat.lt_succ_self _
        rw [Nat.add_zero, ← State.baddr_curByte, hothers _ (.inl hbefore), hmem]
        exact Memory.read_write_same d hwf
      | succ j =>
        have hindex : s.curByte.toNat + (j + 1) = (s.curByte + 1).toNat + j := by omega
        rw [hindex]
        exact hbytes j (Nat.lt_of_succ_lt_succ hj)
    case others =>
      intro a ha
      have hne : (a - s.cur.ptr).toNat ≠ s.curByte.toNat := by omega
      have ha' : (a - s.cur.ptr).toNat < (s.curByte + 1).toNat ∨ s.cur.len.toNat ≤ (a - s.cur.ptr).toNat := by omega
      rw [hothers a ha', hmem, Memory.read_write_other (State.ne_baddr_curByte hne)]

/-! ### A read's header (R139, R140, R142, R145) -/

/-- R139. -/
def registerSent (s : State) : State :=
  (s.answered.emit (.tx (Memory.read s.mem (s.cur.ptr + 1).toNat))).setCurByte 2

/-- R140. -/
def restartAsked (s : State) : State := (s.answered.emit .rstart).setPhase .restart

/-- R145. -/
def readdressSent (s : State) : State :=
  ((s.answered.emit (.tx (Memory.read s.mem (s.cur.ptr + 2).toNat))).setCurByte 3).setPhase .addr

/-- R142. -/
def firstByteAsked (s : State) : State := (s.answered.setPhase .readData).emit (.rx (ackFor s.cur.len 3))

section

variable {s : State}

theorem exec_registerSent (hp : s.phase = .addr) (hdir : s.cur.dir = .read) (hcur : s.curByte = 1)
    (hmap : mapped s.params.memMap (s.cur.ptr + 1) = true) : exec (.evTxc .ack) s = .next (registerSent s) :=
  readAddressAckSendsRegister.1 s hp hdir hcur hmap

theorem exec_restartAsked (hp : s.phase = .addr) (hdir : s.cur.dir = .read) (hcur : s.curByte = 2) :
    exec (.evTxc .ack) s = .next (restartAsked s) := readRegisterAckRestarts s hp hdir hcur

theorem exec_readdressSent (hp : s.phase = .restart) (hmap : mapped s.params.memMap (s.cur.ptr + 2) = true) :
    exec .evReq s = .next (readdressSent s) := requestSendsReaddress.1 s hp hmap

theorem exec_firstByteAsked (hp : s.phase = .addr) (hdir : s.cur.dir = .read) (hcur : s.curByte = 3) :
    exec (.evTxc .ack) s = .next (firstByteAsked s) := readReaddressAckReceives s hp hdir hcur

end

/-- What a read's header has emitted. -/
def headerSent (s : State) : List Action :=
  [.tx (Memory.read s.mem (s.cur.ptr + 1).toNat), .rstart, .tx (Memory.read s.mem (s.cur.ptr + 2).toNat)]

/-- The header has been acknowledged, and byte 3 asked for. -/
def headerAcknowledged (s : State) : State :=
  { answeredBy s with
    phase := .readData
    curByte := 3
    actions := s.actions ++ headerSent s ++ [.rx (ackFor s.cur.len 3)] }

theorem firstByteAsked_header (s : State) :
    firstByteAsked (readdressSent (restartAsked (registerSent s))) = headerAcknowledged s := by
  ext1 <;>
    simp [headerAcknowledged, headerSent, answeredBy, firstByteAsked, readdressSent, restartAsked, registerSent]

theorem execAll_header (s : State) (hp : s.phase = .addr) (hdir : s.cur.dir = .read) (hcur : s.curByte = 1)
    (h1 : mapped s.params.memMap (s.cur.ptr + 1) = true) (h2 : mapped s.params.memMap (s.cur.ptr + 2) = true)
    (rest : List Instr) : execAll ([.evTxc .ack, .evTxc .ack, .evReq, .evTxc .ack] ++ rest) s =
      execAll rest (headerAcknowledged s) := by
  have hrestart := exec_restartAsked (s := registerSent s) hp hdir rfl
  have hreaddress := exec_readdressSent (s := restartAsked (registerSent s)) rfl
    (by simpa [restartAsked, registerSent] using h2)
  have hask := exec_firstByteAsked (s := readdressSent (restartAsked (registerSent s))) rfl
    (by simpa [readdressSent, restartAsked, registerSent] using hdir) rfl
  rw [firstByteAsked_header] at hask
  calc execAll (.evTxc .ack :: .evTxc .ack :: .evReq :: .evTxc .ack :: rest) s
      = execAll (.evTxc .ack :: .evReq :: .evTxc .ack :: rest) (registerSent s) :=
        execAll_cons (exec_registerSent hp hdir hcur h1) _
    _ = execAll (.evReq :: .evTxc .ack :: rest) (restartAsked (registerSent s)) := execAll_cons hrestart _
    _ = execAll (.evTxc .ack :: rest) (readdressSent (restartAsked (registerSent s))) := execAll_cons hreaddress _
    _ = execAll rest (headerAcknowledged s) := execAll_cons hask _

/-- Settles O57: the header is sent, byte 3 asked for, and `data` received from index 3 on. -/
theorem readTransactionTraffic : Obligations.ReadTransactionTraffic := by
  intro s data hwf hp hdir hcur hlen hdata hmap hnext
  have h1 := hmap 1 (by bv_omega)
  have h2 := hmap 2 (by bv_omega)
  cases data with
  | nil => cases hlen
  | cons d data =>
    have hleft : 3 + data.length + 1 = s.cur.len.toNat := by
      rw [hdata, List.length_cons]
      omega
    obtain ⟨t, hrun, hactions, hbytes, hothers, hrecord, hbegin, hidle⟩ := execAll_receive d data (headerAcknowledged s)
      (s.actions ++ headerSent s) hwf rfl hleft hmap hnext rfl
    have hrun' := (execAll_header s hp hdir hcur h1 h2 _).trans hrun
    refine ⟨t, hrun', ?actions, hbytes, hothers, hrecord, hbegin, hidle⟩
    rw [hactions, rxRequests, List.length_cons, Nat.add_sub_cancel]
    simp only [List.append_assoc, List.cons_append, List.nil_append]
    rfl

end Sys2Proof.Machine

/-! Proofs of the host procedures `schedule` (R206) and `readSync` (R211), their accesses one after the other. -/

namespace Sys2Proof.Machine

open Sys2Proof.Certificates

section

variable {s t : State} {p : Proc}

/-! ## One access -/

/-- A register access is the machine's step on the word of its operation (R82). -/
theorem advance_access {i : Instr} {w : BitVec 41} (hin : p.input = hostStep i) (hw : encode i = .host w)
    (hwf : wellFormed i = true) (h : exec i s = .next t) : p.advance s = .next (p.resume t.readData t.loadData, t) := by
  have hinput : p.input = some (.host w) := by rw [hin, hostStep, hw]
  have hdec : decodeHost w = .ok i := by
    have := decodeOfEncode i hwf
    rw [hw] at this
    exact this
  have hstep : step (s.setInputs (.host w :: s.inputs)) = .next t := (step_host rfl hdec).trans h
  rw [Proc.advance, hinput]
  simp only [hstep]

theorem advance_store (a : Word) (b : Byte) (more : List Byte) (g : ProcGoal) (ptr len : Word) (dir : Dir) (s : State) :
    (Proc.storing a b more g ptr len dir).advance s =
      .next ((Proc.storing a b more g ptr len dir).resume s.readData s.loadData,
        s.setMem (Memory.write s.mem a.toNat b)) := by
  have hstep : step (s.setInputs (.store a b :: s.inputs)) = .next (s.setMem (Memory.write s.mem a.toNat b)) :=
    step_store rfl
  simp only [Proc.advance, Proc.input, hstep, State.setMem_readData, State.setMem_loadData]

theorem advance_load (ptr : Word) (r : ExecResult) (s : State) :
    (Proc.loading ptr r).advance s =
      .next (.returned (.readByte r.status (Memory.read s.mem (ptr + 3).toNat)),
        s.setLoadData (Memory.read s.mem (ptr + 3).toNat)) := by
  have hstep : step (s.setInputs (.load (ptr + 3) :: s.inputs)) =
      .next (s.setLoadData (Memory.read s.mem (ptr + 3).toNat)) := step_load rfl
  simp only [Proc.advance, Proc.input, hstep, Proc.resume, State.setLoadData_loadData]

/-! ## One access after the other -/

theorem advances_succ {q : Proc} (h : p.advance s = .next (q, t)) (n : Nat) :
    advances (n + 1) p s = advances n q t := by rw [advances, h]

theorem advances_add {m : Nat} {q : Proc} (h : advances m p s = .next (q, t)) (n : Nat) :
    advances (m + n) p s = advances n q t := by
  induction m generalizing p s with
  | zero =>
    cases h
    rw [Nat.zero_add]
  | succ m ih =>
    rw [Nat.add_right_comm, advances]
    rw [advances] at h
    cases hadv : p.advance s with
    | next r =>
      rw [hadv] at h
      exact ih h
    | fault f =>
      rw [hadv] at h
      cases h
    | refused r =>
      rw [hadv] at h
      cases h

/-! ## Staging and the command (R206) -/

/-- The descriptor has been staged. -/
def staged (s : State) (ptr len : Word) : State := (s.setDescPtr ptr).setDescLen len

theorem advance_command (g : ProcGoal) (dir : Dir) (h : exec (enqueueOf dir) s = .next t) :
    (Proc.command g dir).advance s = .next (.rdEnqStatus g, t) := by
  cases dir with
  | write => exact advance_access rfl rfl rfl h
  | read => exact advance_access rfl rfl rfl h

theorem advances_command (g : ProcGoal) {ptr len : Word} {dir : Dir} (h : exec (enqueueOf dir) (staged s ptr len) = .next t) :
    advances 3 (.wrPtr g ptr len dir) s = .next (.rdEnqStatus g, t) := by
  have hptr : (Proc.wrPtr g ptr len dir).advance s = .next (.wrLen g len dir, s.setDescPtr ptr) :=
    advance_access (i := .wrDescPtr ptr) rfl rfl rfl rfl
  have hlen : (Proc.wrLen g len dir).advance (s.setDescPtr ptr) = .next (.command g dir, staged s ptr len) :=
    advance_access (i := .wrDescLen len) rfl rfl rfl rfl
  rw [advances_succ hptr, advances_succ hlen, advances_succ (advance_command g dir h)]
  rfl

/-- R206: ENQ_STATUS is read, and LAST_TICKET when it is OK. -/
theorem advances_ticket (g : ProcGoal) (h : s.enqStatus = .ok) :
    ∃ t, advances 2 (.rdEnqStatus g) s = .next ((Proc.rdLastTicket g).resume s.lastTicket t.loadData, t) ∧
      (∀ k, t.slot k = s.slot k) ∧ t.endSeq = s.endSeq ∧ t.mem = s.mem := by
  have hstatus : (Proc.rdEnqStatus g).advance s = .next (.rdLastTicket g, s.setReadData (enqStatusWord s.enqStatus)) := by
    rw [advance_access (i := .rdEnqStatus) rfl rfl rfl rfl]
    simp [Proc.resume, h]
  refine ⟨(s.setReadData (enqStatusWord s.enqStatus)).setReadData s.lastTicket, ?_, fun _ => rfl, rfl, rfl⟩
  rw [advances_succ hstatus, advances_succ (advance_access (i := .rdLastTicket) rfl rfl rfl rfl)]
  rfl

/-- R206: any other status is the rejection. -/
theorem advances_rejected (h : s.enqStatus ≠ .ok) :
    advances 1 (.rdEnqStatus .schedule) s =
      .next (.returned (.rejected (enqStatusWord s.enqStatus)), s.setReadData (enqStatusWord s.enqStatus)) := by
  have hne : enqStatusWord s.enqStatus ≠ enqStatusWord .ok := by
    revert h
    cases s.enqStatus <;> decide
  rw [advances_succ (advance_access (i := .rdEnqStatus) rfl rfl rfl rfl)]
  simp [Proc.resume, hne, advances]

/-! ## The command's outcome, as `schedule` finds it -/

/-- R104, R105: what an accepted enqueue leaves that `schedule` and `readSync` return or rely on. -/
theorem exec_enqueue_accepted {dir : Dir} (hlen : legalLen dir s.descLen = true) (hroom : s.endSeq - s.beginSeq ≠ 16)
    (hidle : s.idle = true → s.endSeq = s.beginSeq ∧ mapped s.params.memMap s.descPtr = true) :
    ∃ t, exec (enqueueOf dir) s = .next t ∧ t.enqStatus = .ok ∧ t.lastTicket = s.endSeq ∧ t.endSeq = s.endSeq + 1 ∧
      t.slot (slotOf s.endSeq) = { ptr := s.descPtr, len := s.descLen.setWidth 16, dir := dir } ∧ t.mem = s.mem := by
  obtain ⟨-, -, -, hbusy, hstarts, -⟩ := enqueueCommands
  cases hi : s.idle with
  | false =>
    exact ⟨_, hbusy s dir hlen hroom hi, rfl, rfl, rfl, State.accepted_slot_same s dir, rfl⟩
  | true =>
    obtain ⟨hempty, hmap⟩ := hidle hi
    exact ⟨_, hstarts s dir hlen hi hempty hmap, rfl, rfl, rfl, State.accepted_slot_same s dir, rfl⟩

end

/-- Settles O58: the staging writes, the command and the status read, and then the ticket when the status is OK. -/
theorem scheduleReturns : Obligations.ScheduleReturns := by
  obtain ⟨-, hbad, hfull, -⟩ := enqueueCommands
  refine ⟨?accepted, ?queueFull, ?badLength⟩
  case accepted =>
    intro s ptr len dir hlen hroom hidle
    obtain ⟨u, hexec, hstatus, hticket, hend, hslot, -⟩ := exec_enqueue_accepted (s := staged s ptr len) hlen hroom hidle
    obtain ⟨t, hrun, hslots, hend', -⟩ := advances_ticket .schedule hstatus
    rw [hticket] at hrun
    exact ⟨t, (advances_add (advances_command .schedule hexec) 2).trans hrun, hend'.trans hend, (hslots _).trans hslot⟩
  case queueFull =>
    intro s ptr len dir hlen hfullQueue
    have hexec := hfull (staged s ptr len) dir hlen hfullQueue
    exact ⟨_, (advances_add (advances_command .schedule hexec) 1).trans (advances_rejected (by simp)), rfl, rfl⟩
  case badLength =>
    intro s ptr len dir hlen
    have hexec := hbad (staged s ptr len) dir hlen
    exact ⟨_, (advances_add (advances_command .schedule hexec) 1).trans (advances_rejected (by simp)), rfl, rfl⟩

/-! ## The buffer of `readSync` (R211) -/

/-- The four bytes that `readSync` stores from `p` on. -/
def bufferStored (p : Word) (b0 b1 b2 b3 : Byte) (m : Memory) : Memory :=
  Memory.write (Memory.write (Memory.write (Memory.write m p.toNat b0) (p + 1).toNat b1) (p + 2).toNat b2) (p + 3).toNat b3

theorem read_bufferStored {m : Memory} (hm : Memory.wf m = true) (p : Word) (b0 b1 b2 b3 : Byte) :
    Memory.read (bufferStored p b0 b1 b2 b3 m) p.toNat = b0 ∧ Memory.read (bufferStored p b0 b1 b2 b3 m) (p + 1).toNat = b1 ∧
    Memory.read (bufferStored p b0 b1 b2 b3 m) (p + 2).toNat = b2 ∧
    Memory.read (bufferStored p b0 b1 b2 b3 m) (p + 3).toNat = b3 := by
  have h01 : p.toNat ≠ (p + 1).toNat := by bv_omega
  have h02 : p.toNat ≠ (p + 2).toNat := by bv_omega
  have h03 : p.toNat ≠ (p + 3).toNat := by bv_omega
  have h12 : (p + 1).toNat ≠ (p + 2).toNat := by bv_omega
  have h13 : (p + 1).toNat ≠ (p + 3).toNat := by bv_omega
  have h23 : (p + 2).toNat ≠ (p + 3).toNat := by bv_omega
  have w0 := Memory.write_wf p b0 hm
  have w1 := Memory.write_wf (p + 1) b1 w0
  have w2 := Memory.write_wf (p + 2) b2 w1
  unfold bufferStored
  refine ⟨?_, ?_, ?_, Memory.read_write_same b3 w2⟩
  · rw [Memory.read_write_other h03, Memory.read_write_other h02, Memory.read_write_other h01, Memory.read_write_same b0 hm]
  · rw [Memory.read_write_other h13, Memory.read_write_other h12, Memory.read_write_same b1 w0]
  · rw [Memory.read_write_other h23, Memory.read_write_same b2 w1]

theorem advances_store (p : Word) (slave : BitVec 7) (reg : Byte) (s : State) :
    advances 4 (procReadSync p slave reg) s = .next (.wrPtr (.readSync p) p 4 .read,
      s.setMem (bufferStored p (addrByte slave .write) reg (addrByte slave .read) 0 s.mem)) := by
  have h2 : p + 1 + 1 = p + 2 := BitVec.add_assoc p 1 1
  have h3 : p + 2 + 1 = p + 3 := BitVec.add_assoc p 2 1
  rw [procReadSync, advances_succ (advance_store ..), Proc.resume, advances_succ (advance_store ..), Proc.resume,
    advances_succ (advance_store ..), Proc.resume, advances_succ (advance_store ..), Proc.resume, h2, h3]
  rfl

/-- Settles O60: four stores, `schedule`'s five accesses, and then the poll and the two reads that follow it. -/
theorem readSyncReturns : Obligations.ReadSyncReturns := by
  refine ⟨?queues, ?polls, ?returns⟩
  case queues =>
    intro s p slave reg hwf hroom hidle
    obtain ⟨u, hexec, hstatus, hticket, hend, hslot, hmem⟩ := exec_enqueue_accepted (dir := .read)
      (s := staged (s.setMem (bufferStored p (addrByte slave .write) reg (addrByte slave .read) 0 s.mem)) p 4)
      (show legalLen .read 4 = true by decide) hroom hidle
    obtain ⟨t, hrun, hslots, hend', hmem'⟩ := advances_ticket (.readSync p) hstatus
    rw [hticket] at hrun
    have hbytes := read_bufferStored hwf p (addrByte slave .write) reg (addrByte slave .read) 0
    refine ⟨t, ?_, hend'.trans hend, (hslots _).trans hslot, ?_⟩
    · exact (advances_add (advances_store p slave reg s) 5).trans
        ((advances_add (advances_command (.readSync p) hexec) 2).trans hrun)
    · rw [hmem', hmem]
      exact hbytes
  case polls =>
    intro s p ticket hpending
    rw [advance_access (i := .rdBeginSeq) rfl rfl rfl rfl]
    simp [Proc.resume, hpending]
    rfl
  case returns =>
    intro s p ticket hdone
    have hpoll : (Proc.pollBegin (.readSync p) ticket).advance s =
        .next (.rdResult (.readSync p) ticket, s.setReadData s.beginSeq) := by
      rw [advance_access (i := .rdBeginSeq) rfl rfl rfl rfl]
      simp [Proc.resume, hdone]
    rw [advances_succ hpoll, advances_succ (advance_access (i := .rdResult (slotOf ticket)) rfl rfl rfl rfl), Proc.resume,
      ProcGoal.finish, advances_succ (advance_load ..), ExecResult.status,
      State.setReadData_readData, resultWord_code]
    exact ⟨_, rfl⟩

end Sys2Proof.Machine

/-! Proof that transmit bytes are read late (R63): the step that sends a byte reads memory as the host's store before it
left it. -/

namespace Sys2Proof.Machine

open Sys2Proof.Certificates

/-- `s` with `v` stored at `addr`, and any schedule, PHY, and split of the actions into emitted and performed ones. -/
def storedBefore (s : State) (addr : Word) (v : Byte) (inputs : List Input) (phy : Phy) (actions traffic : List Action) :
    State :=
  { s with
    inputs := inputs
    mem := Memory.write s.mem addr.toNat v
    phy := phy
    actions := actions
    traffic := traffic }

section

variable {s : State} {addr : Word} {v : Byte}

theorem step_storedBefore {l : List Input} (h : s.inputs = .store addr v :: l) :
    step s = .next (storedBefore s addr v l s.phy s.actions s.traffic) := step_store h

/-- Where an event is raised after the store: all that was emitted is still so, or has been performed. -/
theorem storedBefore_raising (i : Instr) (rest : List Input) : ∃ phy actions traffic,
    (storedBefore s addr v rest s.phy s.actions s.traffic).raising i = storedBefore s addr v rest phy actions traffic ∧
      traffic ++ actions = s.traffic ++ s.actions := by
  obtain h | ⟨-, h⟩ := State.raising_cases (storedBefore s addr v rest s.phy s.actions s.traffic) i
  · exact ⟨_, _, _, h, rfl⟩
  · exact ⟨_, [], s.traffic ++ s.actions, h.trans (State.catchUp_eq _), List.append_nil _⟩

/-- It is enough that the event, run after the store, emits `emitted`. -/
theorem lateStoreSent_of_event {w : BitVec 12} {i : Instr} {emitted : List Action} (hdec : decodeEvent w = .ok i)
    (hwatchdog : i = .evTmo → s.params.watchdogPresent = true)
    (hexec : ∀ rest phy actions traffic, ∃ u, exec i (storedBefore s addr v rest phy actions traffic) = .next u ∧
      u.actions = actions ++ emitted) : lateStoreSent s addr v (.event w) emitted := by
  intro rest hin
  obtain ⟨phy, actions, traffic, hraising, hsplit⟩ := storedBefore_raising (s := s) (addr := addr) (v := v) i rest
  obtain ⟨u, hu, hactions⟩ := hexec rest phy actions traffic
  have hstep : step (storedBefore s addr v (.event w :: rest) s.phy s.actions s.traffic) = .next u := by
    rw [step_event (s := storedBefore s addr v (.event w :: rest) s.phy s.actions s.traffic) rfl hdec hwatchdog]
    exact (congrArg (exec i) hraising).trans hu
  refine ⟨_, u, step_storedBefore hin, hstep, ?_⟩
  have htraffic : u.traffic = traffic := exec_keeps_traffic (isEvent_of_decodeEvent hdec) hu
  rw [htraffic, hactions, ← List.append_assoc, hsplit]

/-- The byte stored is the byte read there. -/
theorem storedBefore_read (hwf : s.memCanonical) (rest : List Input) (phy : Phy) (actions traffic : List Action) :
    Memory.read (storedBefore s addr v rest phy actions traffic).mem addr.toNat = v := Memory.read_write_same v hwf

/-- A retire with a transaction queued behind sends that one's byte 0 (R132). -/
theorem afterRetire_actions_more {u : State} {bus : Action} {code : ResultCode} {idx : BitVec 16} (hmore : ¬ lastPending u)
    (hv : Memory.read u.mem (nextSlot u).ptr.toNat = v) :
    (afterRetire u bus code idx).actions = u.actions ++ [bus, .start, .tx v] := by
  rw [afterRetire_actions, if_neg hmore, hv]

/-! ## The bytes of the transaction in flight -/

theorem lateStore_writeByte (hwf : s.memCanonical) (hp : s.transmitting) (hdir : s.cur.dir = .write)
    (hlt : s.curByte < s.cur.len) (hmap : mapped s.params.memMap (s.baddr s.curByte) = true) :
    lateStoreSent s (s.baddr s.curByte) v (.event 0x200) [.tx v] :=
  lateStoreSent_of_event (decodeEvent_txc .ack) nofun fun rest phy actions traffic => by
    refine ⟨_, exec_writeByteSent hp hdir hlt hmap, ?_⟩
    exact congrArg (fun b => actions ++ [Action.tx b]) (storedBefore_read hwf rest phy actions traffic)

theorem lateStore_register (hwf : s.memCanonical) (hp : s.phase = .addr) (hdir : s.cur.dir = .read) (hcur : s.curByte = 1)
    (hmap : mapped s.params.memMap (s.cur.ptr + 1) = true) :
    lateStoreSent s (s.cur.ptr + 1) v (.event 0x200) [.tx v] :=
  lateStoreSent_of_event (decodeEvent_txc .ack) nofun fun rest phy actions traffic => by
    refine ⟨_, exec_registerSent hp hdir hcur hmap, ?_⟩
    exact congrArg (fun b => actions ++ [Action.tx b]) (storedBefore_read hwf rest phy actions traffic)

theorem lateStore_readdress (hwf : s.memCanonical) (hp : s.phase = .restart)
    (hmap : mapped s.params.memMap (s.cur.ptr + 2) = true) :
    lateStoreSent s (s.cur.ptr + 2) v (.event 0x600) [.tx v] :=
  lateStoreSent_of_event (i := .evReq) rfl nofun fun rest phy actions traffic => by
    refine ⟨_, exec_readdressSent hp hmap, ?_⟩
    exact congrArg (fun b => actions ++ [Action.tx b]) (storedBefore_read hwf rest phy actions traffic)

theorem lateStore_retry (hwf : s.memCanonical) (hp : s.phase ≠ .idle) (hr : s.retries < s.params.arbRetryMax)
    (hmap : mapped s.params.memMap s.cur.ptr = true) :
    lateStoreSent s s.cur.ptr v (.event 0x800) [.release, .start, .tx v] :=
  lateStoreSent_of_event (i := .evArbl) rfl nofun fun rest phy actions traffic => by
    refine ⟨_, arbitrationLossRetries.1 _ hp hr hmap, ?_⟩
    exact congrArg (fun b => actions ++ [Action.release, .start, .tx b]) (storedBefore_read hwf rest phy actions traffic)

/-- Byte 0 of an accepted enqueue from idle. -/
theorem lateStore_enqueue {dir : Dir} {w : BitVec 41} (hdec : decodeHost w = .ok (enqueueOf dir)) (hwf : s.memCanonical)
    (hlen : legalLen dir s.descLen = true) (hidle : s.idle = true) (hempty : s.endSeq = s.beginSeq)
    (hmap : mapped s.params.memMap s.descPtr = true) : lateStoreSent s s.descPtr v (.host w) [.start, .tx v] := by
  intro rest hin
  obtain ⟨-, -, -, -, hstarts, -⟩ := enqueueCommands
  have hstep : step (storedBefore s s.descPtr v (.host w :: rest) s.phy s.actions s.traffic) = _ :=
    (step_host rfl hdec).trans (hstarts _ dir hlen hidle hempty hmap)
  refine ⟨_, _, step_storedBefore hin, hstep, ?_⟩
  rw [List.append_assoc]
  exact congrArg (fun b => s.traffic ++ (s.actions ++ [Action.start, .tx b]))
    (storedBefore_read hwf rest s.phy s.actions s.traffic)

/-! ## Byte 0 of the next transaction, by each event that ends the one in flight -/

/-- It is enough that the event, run after the store, is a retire from where the byte stored is still there. -/
theorem lateStoreSent_of_retire {w : BitVec 12} {i : Instr} {bus : Action} (hdec : decodeEvent w = .ok i)
    (hwatchdog : i = .evTmo → s.params.watchdogPresent = true) (hmore : ¬ lastPending s)
    (hmap : mapped s.params.memMap (nextSlot s).ptr = true)
    (hexec : ∀ rest phy actions traffic, ∃ u code idx,
      EndRow (storedBefore s (nextSlot s).ptr v rest phy actions traffic) i u bus code idx ∧
      exec i (storedBefore s (nextSlot s).ptr v rest phy actions traffic) =
        settle (storedBefore s (nextSlot s).ptr v rest phy actions traffic) (retire code idx (u.emit bus)) ∧
      Memory.read u.mem (nextSlot s).ptr.toNat = v) :
    lateStoreSent s (nextSlot s).ptr v (.event w) [bus, .start, .tx v] :=
  lateStoreSent_of_event hdec hwatchdog fun rest phy actions traffic => by
    obtain ⟨u, code, idx, row, hu, hv⟩ := hexec rest phy actions traffic
    obtain ⟨o, m, c, rfl, -⟩ := row.state
    exact ⟨_, hu.trans (settle_retire_readable (.inr hmap)), afterRetire_actions_more hmore hv⟩

section

variable (hwf : s.memCanonical) (hmore : ¬ lastPending s) (hmap : mapped s.params.memMap (nextSlot s).ptr = true)

include hwf hmore hmap

theorem lateStore_writeDone (hp : s.transmitting) (hdir : s.cur.dir = .write) (hdone : s.cur.len ≤ s.curByte) :
    lateStoreSent s (nextSlot s).ptr v (.event 0x200) [.stop, .start, .tx v] :=
  lateStoreSent_of_retire (decodeEvent_txc .ack) nofun hmore hmap fun rest phy actions traffic =>
    ⟨_, _, _, .lastByteSent hp hdir (BitVec.not_lt.mpr hdone), exec_txAckWrite_done hp hdir hdone,
      storedBefore_read hwf rest phy actions traffic⟩

theorem lateStore_nack (hp : s.transmitting) :
    lateStoreSent s (nextSlot s).ptr v (.event 0x300) [.stop, .start, .tx v] :=
  lateStoreSent_of_retire (decodeEvent_txc .nack) nofun hmore hmap fun rest phy actions traffic =>
    ⟨_, _, _, .nacked hp, exec_txNack hp, storedBefore_read hwf rest phy actions traffic⟩

theorem lateStore_lastReceive (d : Byte) (hp : s.phase = .readData) (hlast : s.curByte + 1 = s.cur.len)
    (hreceived : mapped s.params.memMap (s.baddr s.curByte) = true) (hne : (nextSlot s).ptr ≠ s.baddr s.curByte) :
    lateStoreSent s (nextSlot s).ptr v (.event (portWord 2 0 d)) [.stop, .start, .tx v] :=
  lateStoreSent_of_retire (decodeEvent_rxc d) nofun hmore hmap fun rest phy actions traffic =>
    ⟨_, _, _, .lastByteReceived d hp (hlast ▸ BitVec.lt_irrefl _), exec_rxLast d hp hlast hreceived,
      (Memory.read_write_other (fun h => hne (BitVec.eq_of_toNat_eq h)) d _).trans
        (storedBefore_read hwf rest phy actions traffic)⟩

theorem lateStore_arbFail (hp : s.phase ≠ .idle) (hr : s.retries = s.params.arbRetryMax) :
    lateStoreSent s (nextSlot s).ptr v (.event 0x800) [.release, .start, .tx v] :=
  lateStoreSent_of_retire (i := .evArbl) rfl nofun hmore hmap fun rest phy actions traffic =>
    ⟨_, _, _, .arbitrationLost hp (hr ▸ BitVec.lt_irrefl _), exec_arbFail hp (hr ▸ BitVec.lt_irrefl _),
      storedBefore_read hwf rest phy actions traffic⟩

theorem lateStore_timeout (hp : s.phase ≠ .idle) (hwatchdog : s.params.watchdogPresent = true) :
    lateStoreSent s (nextSlot s).ptr v (.event 0xA00) [.stop, .start, .tx v] :=
  lateStoreSent_of_retire (i := .evTmo) rfl (fun _ => hwatchdog) hmore hmap fun rest phy actions traffic =>
    ⟨_, _, _, .timedOut hp, exec_timeout hp, storedBefore_read hwf rest phy actions traffic⟩

end

end

/-- Settles O10: each step that sends a byte runs on the state that the store left, and reads the byte there. -/
theorem transmitByteReadLate : Obligations.TransmitByteReadLate := by
  refine ⟨fun _ _ => lateStore_writeByte, fun _ _ => lateStore_register, fun _ _ => lateStore_readdress,
    fun _ dir _ => lateStore_enqueue (enqueueCommands.1 dir), ?next, fun _ _ => lateStore_retry, ?nothing⟩
  case next =>
    intro s v hwf hmore hmap
    exact ⟨lateStore_writeDone hwf hmore hmap, lateStore_nack hwf hmore hmap, lateStore_lastReceive hwf hmore hmap,
      lateStore_arbFail hwf hmore hmap, lateStore_timeout hwf hmore hmap⟩
  case nothing =>
    intro s addr v rest hin
    exact ⟨_, step_store hin, rfl, rfl⟩

end Sys2Proof.Machine
